-- ==== Sys2Proof/Word.lean ====
section
/-! DEFINITION. The word types of the host port and of the codecs (00_scope.md R8, R9; 20_memory.md R80). -/

namespace Sys2Proof

/-- A register word of the host port: 32 bits, bit 0 least significant (R8, R80). -/
abbrev Word := BitVec 32

/-- A GF(2^8) element, a Reed–Solomon symbol or a packed Hamming word: 8 bits (R9, R61). -/
abbrev Byte := BitVec 8

/-- A byte address of the host register space (R80). -/
abbrev Addr := BitVec 20

end Sys2Proof
end

