-- ==== Sys2Proof/Config.lean ====
section
/-! DEFINITION. What an implementation fixes (00_scope.md R7, R11 to R13) and the free values. -/

namespace Sys2Proof

/-- The OPEN sizes of R7. A `Params` stands in State, so that a theorem about every state is a theorem
about every choice of them (log entry 1). -/
structure Params where
  /-- `NSYM_MAX`: the largest Reed–Solomon parity count, 0..255. -/
  nsymMax : Nat
  /-- `LDPC_M_MAX`: the most LDPC check rows, 1..256. -/
  ldpcMMax : Nat
  /-- `LDPC_N_MAX`: the most LDPC variable columns, 1..256. -/
  ldpcNMax : Nat
  /-- `POLAR_LOGN_MAX`: the largest n of the polar block length 2^n, 0..10. -/
  polarLognMax : Nat
  deriving DecidableEq, Repr

/-- `LLR_ARITH`: the operations and comparisons of R12 on a number type `L`. -/
structure LlrArith (L : Type) where
  zero : L
  add : L → L → L
  sub : L → L → L
  neg : L → L
  abs : L → L
  min : L → L → L
  /-- The product of a message and the damping factor. -/
  mul : L → L → L
  lt : L → L → Bool
  eq : L → L → Bool

/-- `sgn(a)`: +1 when a > 0, 0 when a = 0, −1 when a < 0 (R12). -/
def LlrArith.sgn {L : Type} (A : LlrArith L) (a : L) : Int :=
  if A.lt a A.zero then -1 else if A.eq a A.zero then 0 else 1

/-- `s·a` for s ∈ {+1, 0, −1}: a, 0, −a (R12). -/
def LlrArith.signTimes {L : Type} (A : LlrArith L) (s : Int) (a : L) : L :=
  if s = 0 then A.zero else if s < 0 then A.neg a else a

/-- `Llr` is a totally ordered type (R7): a < b is a total order of it and a = b its equality. The other
operations may be any total functions. -/
structure LlrArith.TotalOrder {L : Type} (A : LlrArith L) : Prop where
  eq_iff : ∀ a b, A.eq a b = true ↔ a = b
  irrefl : ∀ a, A.lt a a = false
  trans : ∀ a b c, A.lt a b = true → A.lt b c = true → A.lt a c = true
  total : ∀ a b, A.lt a b = true ∨ a = b ∨ A.lt b a = true

/-- What R7 leaves OPEN of the LLR numbers, for a number type `L`: `LLR_ARITH`, which orders `L` totally,
`LLR_FORMAT`, and the two values of `L` that rules name besides 0: the 1 of R282's check d < 1 (DEDUCED, log
entry 3) and the 3/4 LDPC_DAMP has at reset (R401), which is a legal damping factor (R405, R282). The machine
takes `L` and this record as arguments. -/
structure LlrParam (L : Type) where
  /-- `LLR_ARITH`. -/
  arith : LlrArith L
  ordered : arith.TotalOrder
  one : L
  threeQuarters : L
  threeQuarters_pos : arith.lt arith.zero threeQuarters = true
  threeQuarters_lt_one : arith.lt threeQuarters one = true
  /-- `LLR_FORMAT`, port to cell: the `Llr` a 32-bit word stands for (R89: any; log entry 4). -/
  ofWord : Word → L
  /-- `LLR_FORMAT`, cell to port: the 32-bit word of an `Llr` (R89: any; log entry 4). -/
  toWord : L → Word

/-- The number type of `P`. A register of this type says which `P` its state has. -/
abbrev LlrParam.Number {L : Type} (_P : LlrParam L) : Type := L

/-- The `Llr` of the reference instantiation (R13). -/
abbrev Llr := Rat

/-- Exact rational arithmetic, the reference `LLR_ARITH` of R13: no operation rounds. -/
def LlrArith.exact : LlrArith Rat where
  zero := 0
  add a b := a + b
  sub a b := a - b
  neg a := -a
  abs a := if a < 0 then -a else a
  min a b := if a ≤ b then a else b
  mul a b := a * b
  lt a b := decide (a < b)
  eq a b := decide (a = b)

/-- The same operations on integers, which the polar decoder uses (R12, R322). -/
def LlrArith.integer : LlrArith Int where
  zero := 0
  add a b := a + b
  sub a b := a - b
  neg a := -a
  abs a := if a < 0 then -a else a
  min a b := if a ≤ b then a else b
  mul a b := a * b
  lt a b := decide (a < b)
  eq a b := decide (a = b)

namespace Config

/-- INST-A of 95_test_vectors.md, the sizes `State.reset` carries (DESIGN CHOICE, log entry 1). -/
def params : Params :=
  { nsymMax := 16, ldpcMMax := 8, ldpcNMax := 16, polarLognMax := 4 }

/-- FREE VALUE: the word an unconstrained read returns (R86, I3), applied to the count of such
reads (log entry 7). -/
opaque freeWord : Nat → Word

/-- FREE VALUE: the `Llr` an unconstrained read of an `Llr` cell returns (R86, I3; log entry 7). -/
opaque freeLlr (L : Type) [Inhabited L] : Nat → L

/-- FREE VALUE: `LLR_FORMAT` of the reference instantiation, port to cell (R89: any; log entry 4). -/
opaque llrOfWord : Word → Llr

/-- FREE VALUE: `LLR_FORMAT` of the reference instantiation, cell to port (R89: any; log entry 4). -/
opaque wordOfLlr : Llr → Word

/-- FREE VALUE: `LOG[0]`, which no rule reads (R172, I14; log entry 18). -/
opaque logZero : Nat

end Config

/-- The comparisons of exact rational arithmetic are the total order of the rational numbers. -/
theorem LlrArith.exact_totalOrder : LlrArith.exact.TotalOrder where
  eq_iff _ _ := decide_eq_true_iff
  irrefl a := decide_eq_false (lt_irrefl a)
  trans _ _ _ h h' := decide_eq_true (lt_trans (of_decide_eq_true h) (of_decide_eq_true h'))
  total a b := (lt_trichotomy a b).imp decide_eq_true (Or.imp_right decide_eq_true)

/-- The reference instantiation of R13. -/
def LlrParam.exact : LlrParam Llr where
  arith := LlrArith.exact
  ordered := LlrArith.exact_totalOrder
  one := 1
  threeQuarters := 3 / 4
  threeQuarters_pos := by decide +kernel
  threeQuarters_lt_one := by decide +kernel
  ofWord := Config.llrOfWord
  toWord := Config.wordOfLlr

end Sys2Proof
end

