-- ==== Sys2Proof/Syntax.lean ====
section
/-! DEFINITION. The command words as syntax (30_encoding.md R110 to R116). -/

namespace Sys2Proof

/-- The fourteen command words of R112 and R116, one constructor per row of the opcode table. A
command word carries no operand but F (R111), which the row fixes, so no constructor has a field. -/
inductive Instr where
  /-- `NOP`, 0x00000000 (R145). -/
  | nop
  /-- `HAM.ENC`, 0x00000001: Hamming(7,4) encode (R202). -/
  | hamEnc
  /-- `HAM.ENC.X`, 0x00000101: extended Hamming(8,4) encode (R202). -/
  | hamEncX
  /-- `HAM.DEC`, 0x00000002: Hamming(7,4) decode (R204). -/
  | hamDec
  /-- `HAM.DEC.X`, 0x00000102: extended Hamming(8,4) decode (R204). -/
  | hamDecX
  /-- `GF.MUL`, 0x00000003 (R175). -/
  | gfMul
  /-- `GF.INV`, 0x00000004 (R176). -/
  | gfInv
  /-- `RS.ENC`, 0x00000005 (R233). -/
  | rsEnc
  /-- `RS.SYND`, 0x00000006 (R240). -/
  | rsSynd
  /-- `RS.BM`, 0x00000007 (R245). -/
  | rsBm
  /-- `RS.CHIEN`, 0x00000008 (R250). -/
  | rsChien
  /-- `LDPC.BP`, 0x00000009: start from the channel (R289, CONT = 0). -/
  | ldpcBp
  /-- `LDPC.BP.C`, 0x00000109: continue from the stored messages (R289, R292, CONT = 1). -/
  | ldpcBpC
  /-- `POLAR.SC`, 0x0000000A (R326). -/
  | polarSc
  deriving DecidableEq, Repr

/-- The three fields of R110's one format, before any check. -/
structure CommandFields where
  /-- OP, bits 7:0. -/
  op : BitVec 8
  /-- F, bit 8: EXT, CONT, or 0. -/
  f : Bool
  /-- RSV, bits 31:9. -/
  rsv : BitVec 23
  deriving DecidableEq, Repr

/-- OP and F of each command word, from the table of R112 (RSV is 0 in all of them). -/
def Instr.fields : Instr → CommandFields
  | .nop => ⟨0x00, false, 0⟩
  | .hamEnc => ⟨0x01, false, 0⟩
  | .hamEncX => ⟨0x01, true, 0⟩
  | .hamDec => ⟨0x02, false, 0⟩
  | .hamDecX => ⟨0x02, true, 0⟩
  | .gfMul => ⟨0x03, false, 0⟩
  | .gfInv => ⟨0x04, false, 0⟩
  | .rsEnc => ⟨0x05, false, 0⟩
  | .rsSynd => ⟨0x06, false, 0⟩
  | .rsBm => ⟨0x07, false, 0⟩
  | .rsChien => ⟨0x08, false, 0⟩
  | .ldpcBp => ⟨0x09, false, 0⟩
  | .ldpcBpC => ⟨0x09, true, 0⟩
  | .polarSc => ⟨0x0A, false, 0⟩

end Sys2Proof
end

