-- ==== Sys2Proof/WellFormed.lean ====
section
/-! DEFINITION. The checks on syntax and on the parameters: which fields make a legal command word
(30_encoding.md R114) and which parameter values are legal (00_scope.md R7). -/

namespace Sys2Proof

/-- The reserved bits 31:9 are 0 (R114, first case). -/
def CommandFields.rsvOk (c : CommandFields) : Bool := c.rsv == 0

/-- The opcode is one of 0x00..0x0A (R114, second case). -/
def CommandFields.opOk (c : CommandFields) : Bool := decide (c.op.toNat ≤ 0x0A)

/-- F is 1 only where the opcode gives it a meaning: EXT for 0x01 and 0x02, CONT for 0x09
(R110, R114 third case). -/
def CommandFields.flagOk (c : CommandFields) : Bool :=
  !c.f || c.op == 0x01 || c.op == 0x02 || c.op == 0x09

/-- A legal command word (the complement of R114). -/
def CommandFields.wellFormed (c : CommandFields) : Bool := c.rsvOk && c.opOk && c.flagOk

/-- An instruction is well formed when its fields are. No constructor has an operand, so this holds
of all fourteen (R111). -/
def Instr.wellFormed (i : Instr) : Bool := i.fields.wellFormed

/-- The legal parameter values of R7's table. -/
def Params.legal (p : Params) : Bool :=
  decide (p.nsymMax ≤ 255) && decide (1 ≤ p.ldpcMMax) && decide (p.ldpcMMax ≤ 256) &&
    decide (1 ≤ p.ldpcNMax) && decide (p.ldpcNMax ≤ 256) && decide (p.polarLognMax ≤ 10)

end Sys2Proof
end

