-- ==== Sys2Proof/Decode.lean ====
section
/-! DEFINITION. The decoder of 30_encoding.md R113, total on 32-bit words, and after it the encoder,
written from the word table of R116. -/

namespace Sys2Proof

/-- Why a word is ILLEGAL: the three cases of R114. All of them complete alike, with ILLEGAL_CMD. -/
inductive IllegalWord where
  /-- w[31:9] ≠ 0. -/
  | reservedBits
  /-- w[7:0] in 0x0B..0xFF. -/
  | unassignedOpcode
  /-- F = 1 where the opcode gives it no meaning. -/
  | flagNotZero
  deriving DecidableEq, Repr

/-- OP of a command word (R110). -/
def opField (w : Word) : BitVec 8 := w.extractLsb' 0 8

/-- F of a command word (R110). -/
def flagField (w : Word) : Bool := w.getLsbD 8

/-- RSV of a command word (R110). -/
def rsvField (w : Word) : BitVec 23 := w.extractLsb' 9 23

/-- `decode` of R113, with the reason where the word is ILLEGAL. -/
def decode (w : Word) : Except IllegalWord Instr :=
  if rsvField w ≠ 0 then .error .reservedBits
  else
    match (opField w).toNat, flagField w with
    | 0x00, false => .ok .nop
    | 0x01, false => .ok .hamEnc
    | 0x01, true => .ok .hamEncX
    | 0x02, false => .ok .hamDec
    | 0x02, true => .ok .hamDecX
    | 0x03, false => .ok .gfMul
    | 0x04, false => .ok .gfInv
    | 0x05, false => .ok .rsEnc
    | 0x06, false => .ok .rsSynd
    | 0x07, false => .ok .rsBm
    | 0x08, false => .ok .rsChien
    | 0x09, false => .ok .ldpcBp
    | 0x09, true => .ok .ldpcBpC
    | 0x0A, false => .ok .polarSc
    | n, _ => if n ≤ 0x0A then .error .flagNotZero else .error .unassignedOpcode

/-- The word of each mnemonic, from the table of R116. -/
def encode : Instr → Word
  | .nop => 0x00000000
  | .hamEnc => 0x00000001
  | .hamEncX => 0x00000101
  | .hamDec => 0x00000002
  | .hamDecX => 0x00000102
  | .gfMul => 0x00000003
  | .gfInv => 0x00000004
  | .rsEnc => 0x00000005
  | .rsSynd => 0x00000006
  | .rsBm => 0x00000007
  | .rsChien => 0x00000008
  | .ldpcBp => 0x00000009
  | .ldpcBpC => 0x00000109
  | .polarSc => 0x0000000A

/-- The command word whose low `nbits` bits are those of `w` and whose other bits are 0: the one
length is 32 bits (R115). -/
def tableWord (nbits w : Nat) : Word := BitVec.ofNat 32 (w % 2 ^ nbits)

/-- The instruction the decoder reads from an opcode-table word (its bits are the command word's
bits, bit 0 least significant, R8). -/
def decodeTableWord (nbits w : Nat) : Option Instr :=
  match decode (tableWord nbits w) with
  | .ok i => some i
  | .error _ => none

end Sys2Proof
end

