-- ==== Sys2Proof/Machine/State.lean ====
section
/-! DEFINITION. The state of the FEC core (10_state.md R30 to R79) as plain data, the outcomes a step
can stop with, and the state right after the hardware reset (70_reset_and_hazards.md R401, R402). -/

namespace Sys2Proof.Machine

/-- The error codes of STATUS.ERR. Codes 6..15 are never written (R361), so they are no value here
(DEDUCED, log entry 14). -/
inductive ErrCode where
  /-- 0: the command succeeded. -/
  | ok
  /-- 1: the CMD word decodes to ILLEGAL (R362). -/
  | illegalCmd
  /-- 2: an input check failed (R363). -/
  | input
  /-- 3: GF.INV with GF_A = 0 (R364). -/
  | zeroOperand
  /-- 4: 2·errs > nsym after Berlekamp–Massey (R366). -/
  | tooManyErrors
  /-- 5: the Chien search's root count differs from errs (R367). -/
  | locatorMismatch
  deriving DecidableEq, Repr

/-- STATUS (R37): its four fields; every other bit is reserved and reads 0. -/
structure Status where
  busy : Bool
  done : Bool
  haz : Bool
  err : ErrCode
  deriving DecidableEq, Repr

/-- HAM_DSTAT (R43): its five fields. -/
structure HamDstat where
  syn : BitVec 3
  errv : Bool
  errpos : BitVec 3
  oor : Bool
  msg : BitVec 4
  deriving DecidableEq, Repr

/-- An array of cells by index: only the cells that differ from the value an unlisted index reads
as, indexes strictly rising (`cellsWf` in Machine/Ops.lean). -/
abbrev Cells (α : Type) := List (Nat × α)

/-- The arrays of R61 to R76, the core's whole memory (R81), for a number type `L`. An index with no entry
reads as `unlisted` says (Machine/Ops.lean). -/
structure Memory (L : Type := Llr) where
  /-- RS_BUF (R61). -/
  rsBuf : List Host.Cell
  /-- RS_SYN (R62). -/
  rsSyn : List Host.Cell
  /-- RS_LAMBDA (R63). -/
  rsLambda : List Host.Cell
  /-- RS_POS (R64). -/
  rsPos : List Host.Cell
  /-- LDPC_RX (R65). -/
  ldpcRx : BitVec 256
  /-- LDPC_HD (R66). -/
  ldpcHd : BitVec 256
  /-- LDPC_SYN (R67). -/
  ldpcSyn : BitVec 256
  /-- LDPC_BELIEF (R68). -/
  ldpcBelief : Cells L
  /-- LDPC_H, one 256-bit row per index (R69). -/
  ldpcH : Cells (BitVec 256)
  /-- LDPC_C2V, index 256·i + j (R70). -/
  ldpcC2v : Cells L
  /-- LDPC_V2C, index 256·i + j (R71). -/
  ldpcV2c : Cells L
  /-- POLAR_FROZEN (R72). -/
  polarFrozen : BitVec 1024
  /-- POLAR_RX (R73). -/
  polarRx : BitVec 1024
  /-- POLAR_UHAT (R74). -/
  polarUhat : BitVec 1024
  /-- POLAR_XHAT (R75). -/
  polarXhat : BitVec 1024
  /-- POLAR_MSG (R76). -/
  polarMsg : BitVec 1024
  deriving DecidableEq, Repr

/-- No element listed. -/
def Memory.zero {L : Type} : Memory L :=
  { rsBuf := [], rsSyn := [], rsLambda := [], rsPos := []
    ldpcRx := 0#256, ldpcHd := 0#256, ldpcSyn := 0#256
    ldpcBelief := [], ldpcH := [], ldpcC2v := [], ldpcV2c := []
    polarFrozen := 0#1024, polarRx := 0#1024, polarUhat := 0#1024, polarXhat := 0#1024
    polarMsg := 0#1024 }

/-- What one Host transaction carries: a 32-bit word, or an `Llr` value where the cell is one
(R85, R89). -/
inductive PortValue (L : Type := Llr) where
  | word (w : Word)
  | llr (v : L)
  deriving DecidableEq, Repr

/-- One transaction on the host port (R85). -/
inductive HostTxn (L : Type := Llr) where
  | read (addr : Addr)
  | write (addr : Addr) (v : PortValue L)
  deriving DecidableEq, Repr

/-- One event of the total order of R85 and R94. -/
inductive Event (L : Type := Llr) where
  /-- A Host transaction (R85). -/
  | host (t : HostTxn L)
  /-- The Engine's turn: it completes the pending command, if there is one (R142). -/
  | engine
  /-- The hardware reset input, with the array contents it draws (R400, R402). -/
  | rst (drawn : Memory L)
  deriving DecidableEq, Repr

/-- What can stop the machine: nothing. The spec has no trap, Host transactions never fail, and every
error is a completion with a code (R360), so the type has no constructor (log entry 9). -/
inductive Fault where
  deriving DecidableEq, Repr

/-- Reasons to answer no next state. -/
inductive Refusal where
  /-- Raised by an arm of `exec` whose instruction has no meaning yet. Safe: the run stops. No arm
  raises it now. -/
  | notModelled (mnemonic : String)
  deriving DecidableEq, Repr

/-- The state of the core (R30) on a number type `L` with the operations `P` (R7), and below it the model's
own record of the outside world. `State` alone is the state on the reference instantiation (R13; DESIGN CHOICE,
log entry 2). -/
structure State (L : Type := Llr) (P : LlrParam L := by exact Sys2Proof.LlrParam.exact) where
  /-- The sizes of R7, which nothing writes: PARAM0 and PARAM1 (R34, R35). -/
  params : Params
  /-- CTRL.IRQ_EN (R36). -/
  irqEn : Bool
  /-- STATUS (R37). -/
  status : Status
  /-- CMD (R38). -/
  cmd : Word
  /-- HAM_DIN (R39). -/
  hamDin : BitVec 4
  /-- HAM_CW (R40). -/
  hamCw : Byte
  /-- HAM_RX (R41). -/
  hamRx : Byte
  /-- HAM_CORR (R42). -/
  hamCorr : Byte
  /-- HAM_DSTAT (R43). -/
  hamDstat : HamDstat
  /-- GF_A (R44). -/
  gfA : Byte
  /-- GF_B (R45). -/
  gfB : Byte
  /-- GF_R (R46). -/
  gfR : Byte
  /-- RS_K (R47). -/
  rsK : BitVec 8
  /-- RS_NSYM (R48). -/
  rsNsym : BitVec 8
  /-- RS_ERRS (R49). -/
  rsErrs : BitVec 8
  /-- RS_NPOS (R50). -/
  rsNpos : BitVec 8
  /-- RS_SSTAT.SYNZ (R51). -/
  rsSynz : Bool
  /-- LDPC_M (R52). -/
  ldpcM : BitVec 9
  /-- LDPC_N (R53). -/
  ldpcN : BitVec 9
  /-- LDPC_MAXIT (R54). -/
  ldpcMaxit : BitVec 16
  /-- LDPC_LC (R55). -/
  ldpcLc : P.Number
  /-- LDPC_DAMP (R56). -/
  ldpcDamp : P.Number
  /-- LDPC_ITERS (R57). -/
  ldpcIters : Word
  /-- LDPC_STAT.CONV (R58). -/
  ldpcConv : Bool
  /-- POLAR_LOGN (R59). -/
  polarLogn : BitVec 4
  /-- POLAR_KINFO (R60). -/
  polarKinfo : BitVec 11
  /-- The arrays (R61 to R76). -/
  mem : Memory L
  /-- The model's own: the rest of the order of events (log entry 6). -/
  events : List (Event L)
  /-- The model's own: what the last RegRead returned to the Host (log entry 8). -/
  rdata : Option (PortValue L)
  /-- The model's own: how many unconstrained reads have been answered (log entry 7). -/
  draws : Nat
  deriving DecidableEq, Repr

/-- The registers of R401 on a core with sizes `p`, LDPC_LC and LDPC_DAMP at its own 0 and 3/4; no array
element listed, no event given. -/
def State.initial {L : Type} {P : LlrParam L} (p : Params) : State L P :=
  { params := p
    irqEn := false
    status := { busy := false, done := false, haz := false, err := .ok }
    cmd := 0x00000000#32
    hamDin := 0#4, hamCw := 0#8, hamRx := 0#8, hamCorr := 0#8
    hamDstat := { syn := 0#3, errv := false, errpos := 0#3, oor := false, msg := 0#4 }
    gfA := 0#8, gfB := 0#8, gfR := 0#8
    rsK := 0#8, rsNsym := 0#8, rsErrs := 0#8, rsNpos := 0#8, rsSynz := false
    ldpcM := 0#9, ldpcN := 0#9, ldpcMaxit := 0#16
    ldpcLc := P.arith.zero, ldpcDamp := P.threeQuarters, ldpcIters := 0#32, ldpcConv := false
    polarLogn := 0#4, polarKinfo := 0#11
    mem := Memory.zero
    events := [], rdata := none, draws := 0 }

/-- The state right after the hardware reset: the registers of R401, on the reference instantiation with the
sizes of INST-A and the arrays all 0 (DESIGN CHOICES, log entries 1, 2 and 5). -/
def State.reset : State := State.initial Config.params

end Sys2Proof.Machine
end

