-- ==== Sys2Proof/Machine/Ops.lean ====
section
/-! DEFINITION. The named operations over arrays, bits and registers that every meaning uses; the error
completion (the core's exception entry, 60_exceptions.md R365, R374), the launch (its return, R375,
40_control.md R141) and the two resets (70_reset_and_hazards.md R400 to R404). -/

namespace Sys2Proof.Machine

/-! ### Arrays of cells -/

/-- What an index with no entry reads as (log entry 5): the type's default, 0 for bytes, rows and the
rational numbers. -/
def unlisted (α : Type) [Inhabited α] : α := default

/-- Element `i` of an array. -/
def cellGet {α : Type} [Inhabited α] : Cells α → Nat → α
  | [], _ => unlisted α
  | (k, v) :: t, i => if k = i then v else cellGet t i

/-- Element `i` of an array ← `v`, keeping the canonical form. -/
def cellSet {α : Type} [Inhabited α] [DecidableEq α] : Cells α → Nat → α → Cells α
  | [], i, v => if v = unlisted α then [] else [(i, v)]
  | (k, w) :: t, i, v =>
    if i < k then (if v = unlisted α then (k, w) :: t else (i, v) :: (k, w) :: t)
    else if i = k then (if v = unlisted α then t else (i, v) :: t)
    else (k, w) :: cellSet t i v

/-- Elements base, base + 1, … ← the values of a list. -/
def cellSetFrom {α : Type} [Inhabited α] [DecidableEq α] (c : Cells α) : Nat → List α → Cells α
  | _, [] => c
  | base, v :: vs => cellSetFrom (cellSet c base v) (base + 1) vs

/-- Elements base .. base + n − 1 of an array, as a list. -/
def cellList {α : Type} [Inhabited α] (c : Cells α) (base n : Nat) : List α :=
  (List.range n).map fun i => cellGet c (base + i)

/-- The canonical form: indexes strictly rising and valid, no entry equal to what an unlisted index
reads as. -/
def cellsWf {α : Type} [Inhabited α] [DecidableEq α] (valid : Nat → Bool) : Cells α → Bool
  | [] => true
  | (k, v) :: t =>
    valid k && decide (v ≠ unlisted α) && t.all (fun e => decide (k < e.1)) && cellsWf valid t

/-- The array that a list of (index, value) pairs describes, later pairs over earlier ones, invalid
indexes dropped, in canonical form. -/
def cellsOf {α : Type} [Inhabited α] [DecidableEq α] (valid : Nat → Bool) (l : List (Nat × α)) : Cells α :=
  l.foldl (fun c e => if valid e.1 then cellSet c e.1 e.2 else c) []

/-! ### Packed bits -/

/-- The number Σ b[k]·2^k of a list of bits, in `w` bits (R202; `bit(ARR, j)` of R10). -/
def packBits (w : Nat) : List Bool → BitVec w
  | [] => 0#w
  | b :: t => (packBits w t <<< 1) ||| (if b then 1#w else 0#w)

/-- Bits 0 .. n − 1 of a bit array, as a list. -/
def bitList {w : Nat} (v : BitVec w) (n : Nat) : List Bool :=
  (List.range n).map fun j => v.getLsbD j

/-- The word whose low min(n, 32) bits are 1. -/
def lowMask (n : Nat) : Word := BitVec.ofNat 32 (2 ^ min n 32 - 1)

/-- A bit array with every bit from `n` on cleared. -/
def keepBits {w : Nat} (v : BitVec w) (n : Nat) : BitVec w := v &&& BitVec.ofNat w (2 ^ n - 1)

/-- Word `k` of a bit array of which bits j < n are valid: bit j at bit j mod 32 of word ⌊j/32⌋
(R10), reserved bits 0 (R84). -/
def bitWord {w : Nat} (v : BitVec w) (n k : Nat) : Word :=
  (v >>> (32 * k)).setWidth 32 &&& lowMask (n - 32 * k)

/-- Word `k` of a bit array ← `x`: the valid bits take the word's bits, reserved bits ignore the
write (R84). -/
def setBitWord {w : Nat} (v : BitVec w) (n k : Nat) (x : Word) : BitVec w :=
  let m := (lowMask (n - 32 * k)).setWidth w <<< (32 * k)
  (v &&& ~~~m) ||| ((x.setWidth w <<< (32 * k)) &&& m)

/-! ### The arrays as a whole -/

/-- RS_BUF and RS_POS: i ≤ 254 (R83). -/
def validSymbol (i : Nat) : Bool := decide (i ≤ 254)

/-- RS_SYN: i < NSYM_MAX (R83). -/
def validSyn (p : Params) (i : Nat) : Bool := decide (i < p.nsymMax)

/-- RS_LAMBDA: j ≤ NSYM_MAX (R83). -/
def validLambda (p : Params) (i : Nat) : Bool := decide (i ≤ p.nsymMax)

/-- LDPC_BELIEF: j < LDPC_N_MAX (R83). -/
def validBelief (p : Params) (j : Nat) : Bool := decide (j < p.ldpcNMax)

/-- LDPC_H rows: i < LDPC_M_MAX (R83). -/
def validRow (p : Params) (i : Nat) : Bool := decide (i < p.ldpcMMax)

/-- LDPC_C2V and LDPC_V2C, index 256·i + j: i < LDPC_M_MAX and j < LDPC_N_MAX (R83). -/
def validMessage (p : Params) (k : Nat) : Bool :=
  decide (k / 256 < p.ldpcMMax) && decide (k % 256 < p.ldpcNMax)

/-- The number of valid bits of a polar array: 2^POLAR_LOGN_MAX (R83). -/
def polarMax (p : Params) : Nat := 2 ^ p.polarLognMax

/-- The canonical form of the arrays: every cell array as `cellsWf` says over its valid elements, and
every reserved bit of a bit array 0. -/
def Memory.wf {L : Type} [DecidableEq L] [Inhabited L] (p : Params) (m : Memory L) : Bool :=
  cellsWf validSymbol m.rsBuf && cellsWf (validSyn p) m.rsSyn &&
    cellsWf (validLambda p) m.rsLambda && cellsWf validSymbol m.rsPos &&
    m.ldpcRx == keepBits m.ldpcRx p.ldpcNMax && m.ldpcHd == keepBits m.ldpcHd p.ldpcNMax &&
    m.ldpcSyn == keepBits m.ldpcSyn p.ldpcMMax && cellsWf (validBelief p) m.ldpcBelief &&
    cellsWf (validRow p) m.ldpcH && m.ldpcH.all (fun e => e.2 == keepBits e.2 p.ldpcNMax) &&
    cellsWf (validMessage p) m.ldpcC2v && cellsWf (validMessage p) m.ldpcV2c &&
    m.polarFrozen == keepBits m.polarFrozen (polarMax p) &&
    m.polarRx == keepBits m.polarRx (polarMax p) &&
    m.polarUhat == keepBits m.polarUhat (polarMax p) &&
    m.polarXhat == keepBits m.polarXhat (polarMax p) &&
    m.polarMsg == keepBits m.polarMsg (polarMax p)

/-- Drawn contents brought into canonical form: the valid elements as drawn, nothing at reserved
ones (R84, R402). -/
def Memory.conform {L : Type} [DecidableEq L] [Inhabited L] (p : Params) (m : Memory L) : Memory L :=
  { rsBuf := cellsOf validSymbol m.rsBuf
    rsSyn := cellsOf (validSyn p) m.rsSyn
    rsLambda := cellsOf (validLambda p) m.rsLambda
    rsPos := cellsOf validSymbol m.rsPos
    ldpcRx := keepBits m.ldpcRx p.ldpcNMax
    ldpcHd := keepBits m.ldpcHd p.ldpcNMax
    ldpcSyn := keepBits m.ldpcSyn p.ldpcMMax
    ldpcBelief := cellsOf (validBelief p) m.ldpcBelief
    ldpcH := cellsOf (validRow p) (m.ldpcH.map fun e => (e.1, keepBits e.2 p.ldpcNMax))
    ldpcC2v := cellsOf (validMessage p) m.ldpcC2v
    ldpcV2c := cellsOf (validMessage p) m.ldpcV2c
    polarFrozen := keepBits m.polarFrozen (polarMax p)
    polarRx := keepBits m.polarRx (polarMax p)
    polarUhat := keepBits m.polarUhat (polarMax p)
    polarXhat := keepBits m.polarXhat (polarMax p)
    polarMsg := keepBits m.polarMsg (polarMax p) }

/-! ### Completion, error completion, launch, reset -/

variable {L : Type} [DecidableEq L] [Inhabited L] {P : LlrParam L}

/-- The last three lines of R142: STATUS.ERR ← code, BUSY ← 0, DONE ← 1. -/
def complete (code : ErrCode) (s : State L P) : State L P :=
  { s with status := { s.status with busy := false, done := true, err := code } }

/-- `raise Error(code)`: the error completion, the core's exception entry. It writes STATUS and nothing
else; the command's word stays in CMD (R10, R365, R374). -/
def raise (code : ErrCode) (s : State L P) : State L P := complete code s

/-- A successful completion: the result writes are in `s` already (R142). -/
def succeed (s : State L P) : State L P := complete .ok s

/-- The completion of a command whose rule ran on `s`: its result writes where it succeeds, none of
them where it raised a code (R142). -/
def finish (s : State L P) : Except ErrCode (State L P) → State L P
  | .ok s' => succeed s'
  | .error code => raise code s

/-- A launch: CMD ← w, ERR ← 0, DONE ← 0, BUSY ← 1, nothing else. It is also the return from an error
completion (R141, R375). -/
def launch (w : Word) (s : State L P) : State L P :=
  { s with cmd := w, status := { s.status with busy := true, done := false, err := .ok } }

/-- The reset values of R401 in every register; the parameters, the arrays and the model's own fields
stay. -/
def resetRegisters (s : State L P) : State L P :=
  { (State.initial s.params : State L P) with
    mem := s.mem, events := s.events, rdata := s.rdata, draws := s.draws }

/-- The soft reset: the registers of R401, every array element kept (R402). -/
def softReset (s : State L P) : State L P := resetRegisters s

/-- The hardware reset: the registers of R401, every array element drawn anew; a pending command is
discarded (R400, R402). -/
def hardReset (drawn : Memory L) (s : State L P) : State L P :=
  { resetRegisters s with mem := drawn.conform s.params }

end Sys2Proof.Machine
end

