-- ==== Sys2Proof/Machine/Flags.lean ====
section
/-! DEFINITION. The status flags: the words of STATUS, CTRL and the result status registers, the W1C
write, the hazard flag and the interrupt line (10_state.md R36, R37, R43, R78, R79; 60_exceptions.md
R361, R370, R371). -/

namespace Sys2Proof.Machine

variable {L : Type} [DecidableEq L] [Inhabited L] {P : LlrParam L}

/-- The number of an error code (R361). -/
def ErrCode.code : ErrCode → BitVec 4
  | .ok => 0
  | .illegalCmd => 1
  | .input => 2
  | .zeroOperand => 3
  | .tooManyErrors => 4
  | .locatorMismatch => 5

/-- A flag as bit `k` of a word. -/
def flagBit (b : Bool) (k : Nat) : Word := if b then 1#32 <<< k else 0#32

/-- The word STATUS reads as: BUSY 0, DONE 1, HAZ 2, ERR 7:4 (R37). -/
def statusWord (st : Status) : Word :=
  flagBit st.busy 0 ||| flagBit st.done 1 ||| flagBit st.haz 2 ||| (st.err.code.setWidth 32 <<< 4)

/-- The word CTRL reads as: IRQ_EN 0; SRST always reads 0 (R36). -/
def ctrlWord (irqEn : Bool) : Word := flagBit irqEn 0

/-- The word HAM_DSTAT reads as: SYN 2:0, ERRV 3, ERRPOS 6:4, OOR 7, MSG 11:8 (R43). -/
def hamDstatWord (d : HamDstat) : Word :=
  d.syn.setWidth 32 ||| flagBit d.errv 3 ||| (d.errpos.setWidth 32 <<< 4) ||| flagBit d.oor 7 |||
    (d.msg.setWidth 32 <<< 8)

/-- A Host write to STATUS: writing 1 clears DONE or HAZ, BUSY and ERR ignore it (R37, R87). -/
def clearStatus (w : Word) (s : State L P) : State L P :=
  { s with
    status :=
      { s.status with
        done := s.status.done && !w.getLsbD 1
        haz := s.status.haz && !w.getLsbD 2 } }

/-- STATUS.HAZ ← 1 (R370). -/
def setHaz (s : State L P) : State L P := { s with status := { s.status with haz := true } }

/-- The interrupt line: STATUS.DONE ∧ CTRL.IRQ_EN at every moment (R78, R371). -/
def irq (s : State L P) : Bool := s.status.done && s.irqEn

end Sys2Proof.Machine
end

