-- ==== Sys2Proof/Machine/Operands.lean ====
section
/-! DEFINITION. The operand forms: the register and array map of the host port (20_memory.md R82, R83),
the element addresses (R93), reserved addresses (R84), and reading and writing one location with its
field widths (10_state.md R33 to R76). -/

namespace Sys2Proof.Machine

variable {L : Type} [DecidableEq L] [Inhabited L] {P : LlrParam L}

/-- What an address of the host port reaches: a register (R82), an array element or packed word (R83),
or nothing. -/
inductive Location where
  | reserved
  | id
  | param0
  | param1
  | ctrl
  | status
  | cmd
  | hamDin
  | hamCw
  | hamRx
  | hamCorr
  | hamDstat
  | gfA
  | gfB
  | gfR
  | rsK
  | rsNsym
  | rsErrs
  | rsNpos
  | rsSstat
  | ldpcM
  | ldpcN
  | ldpcMaxit
  | ldpcLc
  | ldpcDamp
  | ldpcIters
  | ldpcStat
  | polarLogn
  | polarKinfo
  /-- Element i of RS_BUF. -/
  | rsBuf (i : Nat)
  /-- Element i of RS_SYN. -/
  | rsSyn (i : Nat)
  /-- Element j of RS_LAMBDA. -/
  | rsLambda (j : Nat)
  /-- Element k of RS_POS. -/
  | rsPos (k : Nat)
  /-- Word k of LDPC_RX. -/
  | ldpcRx (k : Nat)
  /-- Word k of LDPC_HD. -/
  | ldpcHd (k : Nat)
  /-- Word k of LDPC_SYN. -/
  | ldpcSyn (k : Nat)
  /-- Element j of LDPC_BELIEF. -/
  | ldpcBelief (j : Nat)
  /-- Word k of row i of LDPC_H. -/
  | ldpcH (i k : Nat)
  /-- Element (i, j) of LDPC_C2V. -/
  | ldpcC2v (i j : Nat)
  /-- Element (i, j) of LDPC_V2C. -/
  | ldpcV2c (i j : Nat)
  /-- Word k of POLAR_FROZEN. -/
  | polarFrozen (k : Nat)
  /-- Word k of POLAR_RX. -/
  | polarRx (k : Nat)
  /-- Word k of POLAR_UHAT. -/
  | polarUhat (k : Nat)
  /-- Word k of POLAR_XHAT. -/
  | polarXhat (k : Nat)
  /-- Word k of POLAR_MSG. -/
  | polarMsg (k : Nat)
  deriving DecidableEq, Repr

/-- The offsets of the scalar registers (R82). -/
def scalarMap : List (Nat × Location) :=
  [(0x000, .id), (0x004, .param0), (0x008, .param1), (0x010, .ctrl), (0x014, .status), (0x018, .cmd),
   (0x040, .hamDin), (0x044, .hamCw), (0x048, .hamRx), (0x04C, .hamCorr), (0x050, .hamDstat),
   (0x060, .gfA), (0x064, .gfB), (0x068, .gfR),
   (0x080, .rsK), (0x084, .rsNsym), (0x088, .rsErrs), (0x08C, .rsNpos), (0x090, .rsSstat),
   (0x0C0, .ldpcM), (0x0C4, .ldpcN), (0x0C8, .ldpcMaxit), (0x0CC, .ldpcLc), (0x0D0, .ldpcDamp),
   (0x0D4, .ldpcIters), (0x0D8, .ldpcStat), (0x100, .polarLogn), (0x104, .polarKinfo)]

/-- A window's location if its element is valid, else reserved (R83, R84). -/
def ifValid (valid : Bool) (l : Location) : Location := if valid then l else .reserved

/-- The location at a word-aligned address (R82, R83). A packed word is a location when at least one of
its bits is valid (DEDUCED, log entry 12). -/
def locateWord (p : Params) (a : Nat) : Location :=
  if a < 0x01000 then (scalarMap.lookup a).getD .reserved
  else if a < 0x01400 then let i := (a - 0x01000) / 4; ifValid (validSymbol i) (.rsBuf i)
  else if a < 0x01800 then let i := (a - 0x01400) / 4; ifValid (validSyn p i) (.rsSyn i)
  else if a < 0x01C00 then let j := (a - 0x01800) / 4; ifValid (validLambda p j) (.rsLambda j)
  else if a < 0x02000 then let k := (a - 0x01C00) / 4; ifValid (validSymbol k) (.rsPos k)
  else if a < 0x02020 then let k := (a - 0x02000) / 4; ifValid (decide (32 * k < p.ldpcNMax)) (.ldpcRx k)
  else if a < 0x02100 then .reserved
  else if a < 0x02120 then let k := (a - 0x02100) / 4; ifValid (decide (32 * k < p.ldpcNMax)) (.ldpcHd k)
  else if a < 0x02200 then .reserved
  else if a < 0x02220 then let k := (a - 0x02200) / 4; ifValid (decide (32 * k < p.ldpcMMax)) (.ldpcSyn k)
  else if a < 0x02400 then .reserved
  else if a < 0x02800 then let j := (a - 0x02400) / 4; ifValid (validBelief p j) (.ldpcBelief j)
  else if a < 0x04000 then .reserved
  else if a < 0x04080 then
    let k := (a - 0x04000) / 4; ifValid (decide (32 * k < polarMax p)) (.polarFrozen k)
  else if a < 0x04100 then .reserved
  else if a < 0x04180 then let k := (a - 0x04100) / 4; ifValid (decide (32 * k < polarMax p)) (.polarRx k)
  else if a < 0x04200 then .reserved
  else if a < 0x04280 then
    let k := (a - 0x04200) / 4; ifValid (decide (32 * k < polarMax p)) (.polarUhat k)
  else if a < 0x04300 then .reserved
  else if a < 0x04380 then
    let k := (a - 0x04300) / 4; ifValid (decide (32 * k < polarMax p)) (.polarXhat k)
  else if a < 0x04400 then .reserved
  else if a < 0x04480 then let k := (a - 0x04400) / 4; ifValid (decide (32 * k < polarMax p)) (.polarMsg k)
  else if a < 0x10000 then .reserved
  else if a < 0x12000 then
    let i := (a - 0x10000) / 32
    let k := (a - 0x10000) % 32 / 4
    ifValid (validRow p i && decide (32 * k < p.ldpcNMax)) (.ldpcH i k)
  else if a < 0x20000 then .reserved
  else if a < 0x60000 then
    let k := (a - 0x20000) / 4; ifValid (validMessage p k) (.ldpcC2v (k / 256) (k % 256))
  else if a < 0xA0000 then
    let k := (a - 0x60000) / 4; ifValid (validMessage p k) (.ldpcV2c (k / 256) (k % 256))
  else .reserved

/-- The word-aligned byte offset a transaction reaches: address bits [1:0] are ignored (R86, R88). -/
def alignedOffset (a : Addr) : Nat := a.toNat / 4 * 4

/-- The location a transaction's address reaches (R84, R86). -/
def locate (p : Params) (a : Addr) : Location := locateWord p (alignedOffset a)

/-- The byte offset of a location (R82, R83, R93); `none` for no location. -/
def Location.offset : Location → Option Nat
  | .reserved => none
  | .rsBuf i => some (0x01000 + 4 * i)
  | .rsSyn i => some (0x01400 + 4 * i)
  | .rsLambda j => some (0x01800 + 4 * j)
  | .rsPos k => some (0x01C00 + 4 * k)
  | .ldpcRx k => some (0x02000 + 4 * k)
  | .ldpcHd k => some (0x02100 + 4 * k)
  | .ldpcSyn k => some (0x02200 + 4 * k)
  | .ldpcBelief j => some (0x02400 + 4 * j)
  | .ldpcH i k => some (0x10000 + 32 * i + 4 * k)
  | .ldpcC2v i j => some (0x20000 + 4 * (256 * i + j))
  | .ldpcV2c i j => some (0x60000 + 4 * (256 * i + j))
  | .polarFrozen k => some (0x04000 + 4 * k)
  | .polarRx k => some (0x04100 + 4 * k)
  | .polarUhat k => some (0x04200 + 4 * k)
  | .polarXhat k => some (0x04300 + 4 * k)
  | .polarMsg k => some (0x04400 + 4 * k)
  | l => (scalarMap.find? fun e => e.2 == l).map Prod.fst

/-- The address of a location, 0x00C (a reserved address) for none. -/
def Location.addr (l : Location) : Addr := BitVec.ofNat 20 (l.offset.getD 0x00C)

/-- The locations that exist on a core with these parameters (R82, R83). -/
def Location.present (p : Params) : Location → Bool
  | .reserved => false
  | .rsBuf i => validSymbol i
  | .rsSyn i => validSyn p i
  | .rsLambda j => validLambda p j
  | .rsPos k => validSymbol k
  | .ldpcRx k => decide (32 * k < p.ldpcNMax)
  | .ldpcHd k => decide (32 * k < p.ldpcNMax)
  | .ldpcSyn k => decide (32 * k < p.ldpcMMax)
  | .ldpcBelief j => validBelief p j
  | .ldpcH i k => validRow p i && decide (32 * k < p.ldpcNMax)
  | .ldpcC2v i j => decide (i < p.ldpcMMax) && decide (j < p.ldpcNMax)
  | .ldpcV2c i j => decide (i < p.ldpcMMax) && decide (j < p.ldpcNMax)
  | .polarFrozen k => decide (32 * k < polarMax p)
  | .polarRx k => decide (32 * k < polarMax p)
  | .polarUhat k => decide (32 * k < polarMax p)
  | .polarXhat k => decide (32 * k < polarMax p)
  | .polarMsg k => decide (32 * k < polarMax p)
  | _ => true

/-- The locations of access `RW` that hold an operand (R39 to R76): CTRL, STATUS and CMD have writes of
their own (R87), the rest are `RO`. -/
def Location.isOperand : Location → Bool
  | .hamDin | .hamRx | .gfA | .gfB | .rsK | .rsNsym | .rsErrs | .ldpcM | .ldpcN | .ldpcMaxit
  | .ldpcLc | .ldpcDamp | .polarLogn | .rsBuf _ | .rsSyn _ | .rsLambda _ | .ldpcRx _ | .ldpcH _ _
  | .polarFrozen _ | .polarRx _ => true
  | _ => false

/-- The `Llr` cells (R89). -/
def Location.isLlr : Location → Bool
  | .ldpcLc | .ldpcDamp | .ldpcBelief _ | .ldpcC2v _ _ | .ldpcV2c _ _ => true
  | _ => false

/-- A transaction's value as a 32-bit word (an `Llr` through LLR_FORMAT, log entry 4). -/
def PortValue.toWord (P : LlrParam L) : PortValue L → Word
  | .word w => w
  | .llr v => P.toWord v

/-- A transaction's value as an `Llr` (a word through LLR_FORMAT, log entry 4). -/
def PortValue.toLlr (P : LlrParam L) : PortValue L → L
  | .word w => P.ofWord w
  | .llr v => v

/-- The constant ID reads, ASCII "FEC1" (R33). -/
def idWord : Word := 0x46454331

/-- PARAM0: NSYM_MAX in 7:0, POLAR_LOGN_MAX in 19:16 (R34). -/
def param0Word (p : Params) : Word :=
  (BitVec.ofNat 8 p.nsymMax).setWidth 32 ||| ((BitVec.ofNat 4 p.polarLognMax).setWidth 32 <<< 16)

/-- PARAM1: LDPC_M_MAX in 8:0, LDPC_N_MAX in 24:16 (R35). -/
def param1Word (p : Params) : Word :=
  (BitVec.ofNat 9 p.ldpcMMax).setWidth 32 ||| ((BitVec.ofNat 9 p.ldpcNMax).setWidth 32 <<< 16)

/-- A field of `w` bits at bit 0 of a word, the rest 0 (R8). -/
def fieldWord {w : Nat} (v : BitVec w) : PortValue L := .word (v.setWidth 32)

/-- The current value of a location, reserved bits 0 (the last line of R86). -/
def readLocation (s : State L P) : Location → PortValue L
  | .reserved => .word 0
  | .id => .word idWord
  | .param0 => .word (param0Word s.params)
  | .param1 => .word (param1Word s.params)
  | .ctrl => .word (ctrlWord s.irqEn)
  | .status => .word (statusWord s.status)
  | .cmd => .word s.cmd
  | .hamDin => fieldWord s.hamDin
  | .hamCw => fieldWord s.hamCw
  | .hamRx => fieldWord s.hamRx
  | .hamCorr => fieldWord s.hamCorr
  | .hamDstat => .word (hamDstatWord s.hamDstat)
  | .gfA => fieldWord s.gfA
  | .gfB => fieldWord s.gfB
  | .gfR => fieldWord s.gfR
  | .rsK => fieldWord s.rsK
  | .rsNsym => fieldWord s.rsNsym
  | .rsErrs => fieldWord s.rsErrs
  | .rsNpos => fieldWord s.rsNpos
  | .rsSstat => .word (flagBit s.rsSynz 0)
  | .ldpcM => fieldWord s.ldpcM
  | .ldpcN => fieldWord s.ldpcN
  | .ldpcMaxit => fieldWord s.ldpcMaxit
  | .ldpcLc => .llr s.ldpcLc
  | .ldpcDamp => .llr s.ldpcDamp
  | .ldpcIters => .word s.ldpcIters
  | .ldpcStat => .word (flagBit s.ldpcConv 0)
  | .polarLogn => fieldWord s.polarLogn
  | .polarKinfo => fieldWord s.polarKinfo
  | .rsBuf i => fieldWord (cellGet s.mem.rsBuf i)
  | .rsSyn i => fieldWord (cellGet s.mem.rsSyn i)
  | .rsLambda j => fieldWord (cellGet s.mem.rsLambda j)
  | .rsPos k => fieldWord (cellGet s.mem.rsPos k)
  | .ldpcRx k => .word (bitWord s.mem.ldpcRx s.params.ldpcNMax k)
  | .ldpcHd k => .word (bitWord s.mem.ldpcHd s.params.ldpcNMax k)
  | .ldpcSyn k => .word (bitWord s.mem.ldpcSyn s.params.ldpcMMax k)
  | .ldpcBelief j => .llr (cellGet s.mem.ldpcBelief j)
  | .ldpcH i k => .word (bitWord (cellGet s.mem.ldpcH i) s.params.ldpcNMax k)
  | .ldpcC2v i j => .llr (cellGet s.mem.ldpcC2v (256 * i + j))
  | .ldpcV2c i j => .llr (cellGet s.mem.ldpcV2c (256 * i + j))
  | .polarFrozen k => .word (bitWord s.mem.polarFrozen (polarMax s.params) k)
  | .polarRx k => .word (bitWord s.mem.polarRx (polarMax s.params) k)
  | .polarUhat k => .word (bitWord s.mem.polarUhat (polarMax s.params) k)
  | .polarXhat k => .word (bitWord s.mem.polarXhat (polarMax s.params) k)
  | .polarMsg k => .word (bitWord s.mem.polarMsg (polarMax s.params) k)

/-- The state with other arrays. -/
def State.withMem (s : State L P) (m : Memory L) : State L P := { s with mem := m }

/-- Store the field bits of a value into an operand location (the last line of R87; R8). Every other
location is left alone. -/
def writeOperand (s : State L P) (v : PortValue L) : Location → State L P
  | .hamDin => { s with hamDin := (v.toWord P).setWidth 4 }
  | .hamRx => { s with hamRx := (v.toWord P).setWidth 8 }
  | .gfA => { s with gfA := (v.toWord P).setWidth 8 }
  | .gfB => { s with gfB := (v.toWord P).setWidth 8 }
  | .rsK => { s with rsK := (v.toWord P).setWidth 8 }
  | .rsNsym => { s with rsNsym := (v.toWord P).setWidth 8 }
  | .rsErrs => { s with rsErrs := (v.toWord P).setWidth 8 }
  | .ldpcM => { s with ldpcM := (v.toWord P).setWidth 9 }
  | .ldpcN => { s with ldpcN := (v.toWord P).setWidth 9 }
  | .ldpcMaxit => { s with ldpcMaxit := (v.toWord P).setWidth 16 }
  | .ldpcLc => { s with ldpcLc := v.toLlr P }
  | .ldpcDamp => { s with ldpcDamp := v.toLlr P }
  | .polarLogn => { s with polarLogn := (v.toWord P).setWidth 4 }
  | .rsBuf i => s.withMem { s.mem with rsBuf := cellSet s.mem.rsBuf i ((v.toWord P).setWidth 8) }
  | .rsSyn i => s.withMem { s.mem with rsSyn := cellSet s.mem.rsSyn i ((v.toWord P).setWidth 8) }
  | .rsLambda j => s.withMem { s.mem with rsLambda := cellSet s.mem.rsLambda j ((v.toWord P).setWidth 8) }
  | .ldpcRx k =>
    s.withMem { s.mem with ldpcRx := setBitWord s.mem.ldpcRx s.params.ldpcNMax k (v.toWord P) }
  | .ldpcH i k =>
    s.withMem
      { s.mem with
        ldpcH :=
          cellSet s.mem.ldpcH i (setBitWord (cellGet s.mem.ldpcH i) s.params.ldpcNMax k (v.toWord P)) }
  | .polarFrozen k =>
    s.withMem { s.mem with polarFrozen := setBitWord s.mem.polarFrozen (polarMax s.params) k (v.toWord P) }
  | .polarRx k =>
    s.withMem { s.mem with polarRx := setBitWord s.mem.polarRx (polarMax s.params) k (v.toWord P) }
  | _ => s

end Sys2Proof.Machine
end

