-- ==== Sys2Proof/Machine/HostPort.lean ====
section
/-! DEFINITION. The host port: the write sets (40_control.md R144), RegRead and RegWrite (20_memory.md
R86, R87) and one Host transaction (R85). -/

namespace Sys2Proof.Machine

variable {L : Type} [DecidableEq L] [Inhabited L] {P : LlrParam L}

/-- The locations a command's completion may write, STATUS apart (the table of R144). -/
def writeSet : Instr → Location → Bool
  | .nop, _ => false
  | .hamEnc, l => l == .hamCw
  | .hamEncX, l => l == .hamCw
  | .hamDec, l => l == .hamCorr || l == .hamDstat
  | .hamDecX, l => l == .hamCorr || l == .hamDstat
  | .gfMul, l => l == .gfR
  | .gfInv, l => l == .gfR
  | .rsEnc, l => match l with
    | .rsBuf _ => true
    | _ => false
  | .rsSynd, l => match l with
    | .rsSyn _ | .rsSstat => true
    | _ => false
  | .rsBm, l => match l with
    | .rsLambda _ | .rsErrs => true
    | _ => false
  | .rsChien, l => match l with
    | .rsPos _ | .rsNpos => true
    | _ => false
  | .ldpcBp, l => match l with
    | .ldpcHd _ | .ldpcSyn _ | .ldpcBelief _ | .ldpcC2v _ _ | .ldpcV2c _ _ | .ldpcIters | .ldpcStat => true
    | _ => false
  | .ldpcBpC, l => match l with
    | .ldpcHd _ | .ldpcSyn _ | .ldpcBelief _ | .ldpcC2v _ _ | .ldpcV2c _ _ | .ldpcIters | .ldpcStat => true
    | _ => false
  | .polarSc, l => match l with
    | .polarUhat _ | .polarXhat _ | .polarMsg _ | .polarKinfo => true
    | _ => false

/-- The locations the pending command word may write; none for an ILLEGAL word (R144). -/
def pendingWrites (cmd : Word) (l : Location) : Bool :=
  match decode cmd with
  | .ok i => writeSet i l
  | .error _ => false

/-- RegRead (R86): its answer stands in `rdata`. A location of the pending command's write set reads as
the free value (log entry 7); no read changes any state of the core (R92). -/
def regRead (a : Addr) (s : State L P) : State L P :=
  let l := locate s.params a
  if s.status.busy && pendingWrites s.cmd l then
    { s with
      rdata :=
        some (if l.isLlr then .llr (Config.freeLlr L s.draws) else .word (Config.freeWord s.draws))
      draws := s.draws + 1 }
  else { s with rdata := some (readLocation s l) }

/-- A Host write to CTRL: IRQ_EN ← w[0], then SRST: a soft reset when idle, a hazard when busy
(R36, R87, R403). -/
def writeCtrl (w : Word) (s : State L P) : State L P :=
  let s' := { s with irqEn := w.getLsbD 0 }
  if w.getLsbD 1 then (if s.status.busy then setHaz s' else softReset s') else s'

/-- RegWrite, its cases in the order of R87. -/
def regWrite (a : Addr) (v : PortValue L) (s : State L P) : State L P :=
  match locate s.params a with
  | .reserved => s
  | .status => clearStatus (v.toWord P) s
  | .ctrl => writeCtrl (v.toWord P) s
  | .cmd => if s.status.busy then setHaz s else launch (v.toWord P) s
  | l =>
    if l.isOperand then (if s.status.busy then setHaz s else writeOperand s v l) else s

/-- One Host transaction (R85). -/
def hostTxn (t : HostTxn L) (s : State L P) : State L P :=
  match t with
  | .read a => regRead a s
  | .write a v => regWrite a v s

end Sys2Proof.Machine
end

