-- ==== Sys2Proof/Machine/Control.lean ====
section
/-! DEFINITION. NOP (40_control.md R145) and the completion of an ILLEGAL word (60_exceptions.md R362). -/

namespace Sys2Proof.Machine

variable {L : Type} [DecidableEq L] [Inhabited L] {P : LlrParam L}

/-- The rule of NOP: no effect (R145). -/
def nopRule (s : State L P) : Except ErrCode (State L P) := .ok s

/-- `NOP` (R145): only the completion of R142. -/
def execNop (s : State L P) : Host.Outcome (State L P) Fault Refusal := .next (finish s (nopRule s))

/-- The completion of a word that decodes to ILLEGAL: ILLEGAL_CMD, nothing but STATUS written
(R142, R362). -/
def illegalCompletion (s : State L P) : State L P := raise .illegalCmd s

end Sys2Proof.Machine
end

