-- ==== Sys2Proof/Machine/Hamming.lean ====
section
/-! DEFINITION. Hamming(7,4) and extended Hamming(8,4) (42_hamming.md R200 to R206). The variant `ext`
is the command flag F. -/

namespace Sys2Proof.Machine

variable {L : Type} [DecidableEq L] [Inhabited L] {P : LlrParam L}

/-- The seven bits p1, p2, d0, p4, d1, d2, d3 of a codeword, 0-indexed position first (R200 to R202). -/
def hamCode7 (d : BitVec 4) : List Bool :=
  let d0 := d.getLsbD 0
  let d1 := d.getLsbD 1
  let d2 := d.getLsbD 2
  let d3 := d.getLsbD 3
  let p1 := d0 ^^ d1 ^^ d3
  let p2 := d0 ^^ d2 ^^ d3
  let p4 := d1 ^^ d2 ^^ d3
  [p1, p2, d0, p4, d1, d2, d3]

/-- The exclusive OR of a list of bits. -/
def xorBits (l : List Bool) : Bool := l.foldl (· ^^ ·) false

/-- The word HAM.ENC writes: the seven bits, behind the overall parity bit p0 in the extended variant
(R202). -/
def hamEncode (ext : Bool) (d : BitVec 4) : Byte :=
  let c7 := hamCode7 d
  if ext then packBits 8 (xorBits c7 :: c7) else packBits 8 c7

/-- The offset e of the 1-indexed positions in the word: 1 in the extended variant (R203, R204). -/
def hamOffset (ext : Bool) : Nat := if ext then 1 else 0

/-- The syndrome s1 + 2·s2 + 4·s4 of a received word (R203). p0 enters no syndrome bit. -/
def hamSyndrome (ext : Bool) (r : List Bool) : Nat :=
  let w := fun k => r.getD (k + hamOffset ext) false
  let s1 := w 0 ^^ w 2 ^^ w 4 ^^ w 6
  let s2 := w 1 ^^ w 2 ^^ w 5 ^^ w 6
  let s4 := w 3 ^^ w 4 ^^ w 5 ^^ w 6
  s1.toNat + 2 * s2.toNat + 4 * s4.toNat

/-- The word with the bit at `idx` flipped. -/
def flipAt (r : List Bool) (idx : Nat) : List Bool := r.set idx (!r.getD idx false)

/-- The message read from the corrected word at the data positions (R205). -/
def hamMessage (ext : Bool) (c : List Bool) : BitVec 4 :=
  let e := hamOffset ext
  packBits 4 [c.getD (2 + e) false, c.getD (4 + e) false, c.getD (5 + e) false, c.getD (6 + e) false]

/-- What HAM.DEC writes: HAM_CORR and HAM_DSTAT (R204 to R206). -/
def hamDecode (ext : Bool) (rx : Byte) : Byte × HamDstat :=
  let e := hamOffset ext
  let len := 7 + e
  let r := bitList rx len
  let s := hamSyndrome ext r
  let idx := s - 1 + e
  let flip := decide (s ≠ 0) && decide (idx < len)
  let c := if flip then flipAt r idx else r
  (packBits 8 c,
    { syn := BitVec.ofNat 3 s
      errv := flip
      errpos := if flip then BitVec.ofNat 3 idx else 0#3
      oor := decide (s ≠ 0) && !decide (idx < len)
      msg := hamMessage ext c })

/-- The rule of HAM.ENC and HAM.ENC.X (R202). -/
def hamEncRule (ext : Bool) (s : State L P) : Except ErrCode (State L P) :=
  .ok { s with hamCw := hamEncode ext s.hamDin }

/-- The rule of HAM.DEC and HAM.DEC.X (R204). -/
def hamDecRule (ext : Bool) (s : State L P) : Except ErrCode (State L P) :=
  .ok { s with hamCorr := (hamDecode ext s.hamRx).1, hamDstat := (hamDecode ext s.hamRx).2 }

/-- `HAM.ENC`: Hamming(7,4) (R202). -/
def execHamEnc (s : State L P) : Host.Outcome (State L P) Fault Refusal := .next (finish s (hamEncRule false s))

/-- `HAM.ENC.X`: extended Hamming(8,4) (R202). -/
def execHamEncX (s : State L P) : Host.Outcome (State L P) Fault Refusal := .next (finish s (hamEncRule true s))

/-- `HAM.DEC`: Hamming(7,4) (R204). -/
def execHamDec (s : State L P) : Host.Outcome (State L P) Fault Refusal := .next (finish s (hamDecRule false s))

/-- `HAM.DEC.X`: extended Hamming(8,4) (R204). -/
def execHamDecX (s : State L P) : Host.Outcome (State L P) Fault Refusal := .next (finish s (hamDecRule true s))

end Sys2Proof.Machine
end

