-- ==== Sys2Proof/Machine/Ldpc.lean ====
section
/-! DEFINITION. LDPC min-sum belief propagation (44_ldpc.md R280 to R292). The decoder is written over an
arbitrary `LLR_ARITH` (R12); the commands run it at the core's own, the argument `P` (R7). A matrix is a list
of rows. -/

namespace Sys2Proof.Machine

variable {L : Type} [DecidableEq L] [Inhabited L] {P : LlrParam L}

/-- The configuration of one decode (R280): H, the received bits, Lc and d. -/
structure LdpcConfig (L : Type) where
  /-- H, M rows of N bits. -/
  h : List (List Bool)
  /-- rx, N bits. -/
  rx : List Bool
  lc : L
  damp : L

/-- The values of one iteration (R284 to R288), and the count and flag after it. -/
structure LdpcIteration (L : Type) where
  c2v : List (List L)
  belief : List L
  v2c : List (List L)
  hd : List Bool
  syn : List Bool
  iters : Word
  conv : Bool

/-- E(i): the variables of a check row, ascending (R280). -/
def rowEdges (row : List Bool) : List Nat := (List.range row.length).filter fun j => row.getD j false

/-- The channel LLRs ch_j = ±Lc (R281). -/
def channelLlrs (A : LlrArith L) (lc : L) (rx : List Bool) : List L :=
  rx.map fun b => if b then A.neg lc else lc

/-- A row's values on its edges, `zero` at non-edges (R283, R290). -/
def maskRow (A : LlrArith L) (row : List Bool) (vals : List L) : List L :=
  List.zipWith (fun h v => if h then v else A.zero) row vals

/-- The starting messages: the channel LLR on every edge (R283). -/
def startMessages (A : LlrArith L) (c : LdpcConfig L) : List (List L) :=
  c.h.map fun row => maskRow A row (channelLlrs A c.lc c.rx)

/-- The least of the absolute values of a list, the binary min of R12 folded from the left with the first as
start (R284; DESIGN CHOICE, log entry 20); `zero` for the empty list, which R282 rules out. -/
def minAbs (A : LlrArith L) : List L → L
  | [] => A.zero
  | m :: ms => ms.foldl (fun a x => A.min a (A.abs x)) (A.abs m)

/-- Whether the product of the signs is −1; a 0 counts as positive (R284). -/
def signNegative (A : LlrArith L) (ms : List L) : Bool :=
  ms.foldl (fun s m => if A.lt m A.zero then !s else s) false

/-- The check-to-variable message computed from the other incoming messages `others` (R284). -/
def checkMessage (A : LlrArith L) (damp : L) (others : List L) : L :=
  A.signTimes (if signNegative A others then -1 else 1) (A.mul (minAbs A others) damp)

/-- The messages of a check row's edges other than j, ascending (R284). -/
def otherMessages (A : LlrArith L) (row : List Bool) (v : List L) (j : Nat) : List L :=
  ((rowEdges row).filter fun k => k != j).map fun k => v.getD k A.zero

/-- Step 1 for one check row (R284). -/
def checkRow (A : LlrArith L) (damp : L) (row : List Bool) (v : List L) : List L :=
  (List.range row.length).map fun j =>
    if row.getD j false then checkMessage A damp (otherMessages A row v j) else A.zero

/-- Step 2 for one variable: ch_j plus its incoming messages in ascending check order, the sum taken from
the left (R285; log entry 10). -/
def beliefOf (A : LlrArith L) (h : List (List Bool)) (c2v : List (List L)) (ch : L)
    (j : Nat) : L :=
  (List.zip h c2v).foldl
    (fun acc r => if r.1.getD j false then A.add acc (r.2.getD j A.zero) else acc) ch

/-- Step 3 for one check row (R286). -/
def varRow (A : LlrArith L) (belief : List L) (row : List Bool) (c2v : List L) : List L :=
  maskRow A row (List.zipWith A.sub belief c2v)

/-- Step 5 for one check row: the exclusive OR of the hard decisions on its edges (R288). -/
def rowSyndrome (row hd : List Bool) : Bool :=
  (List.zipWith (fun h b => h && b) row hd).foldl (· ^^ ·) false

/-- One iteration, steps 1 to 5 (R284 to R288). -/
def ldpcIterate (A : LlrArith L) (c : LdpcConfig L) (v2c : List (List L)) (iters : Word) :
    LdpcIteration L :=
  let ch := channelLlrs A c.lc c.rx
  let c2v := List.zipWith (checkRow A c.damp) c.h v2c
  let belief := ch.mapIdx fun j x => beliefOf A c.h c2v x j
  let hd := belief.map fun b => A.lt b A.zero
  let syn := c.h.map fun row => rowSyndrome row hd
  { c2v := c2v
    belief := belief
    v2c := List.zipWith (varRow A belief) c.h c2v
    hd := hd
    syn := syn
    iters := iters + 1#32
    conv := syn.all fun b => !b }

/-- At most `n` further iterations, stopping at the first that converged (R288, R289). -/
def ldpcMore (A : LlrArith L) (c : LdpcConfig L) : Nat → LdpcIteration L → LdpcIteration L
  | 0, r => r
  | n + 1, r => if r.conv then r else ldpcMore A c n (ldpcIterate A c r.v2c r.iters)

/-- The loop of R289 for a cap `maxit` ≥ 1: at least one iteration, at most `maxit`. -/
def ldpcRun (A : LlrArith L) (c : LdpcConfig L) (maxit : Nat) (v2c : List (List L))
    (iters : Word) : LdpcIteration L :=
  ldpcMore A c (maxit - 1) (ldpcIterate A c v2c iters)

/-! ### The command -/

/-- M = LDPC_M. -/
def ldpcRows (s : State L P) : Nat := s.ldpcM.toNat

/-- N = LDPC_N. -/
def ldpcCols (s : State L P) : Nat := s.ldpcN.toNat

/-- H, the received bits, Lc and d of the state (R280). -/
def ldpcConfig (s : State L P) : LdpcConfig L :=
  { h := (List.range (ldpcRows s)).map fun i => bitList (cellGet s.mem.ldpcH i) (ldpcCols s)
    rx := bitList s.mem.ldpcRx (ldpcCols s)
    lc := s.ldpcLc
    damp := s.ldpcDamp }

/-- The input checks of R282. -/
def ldpcOk (s : State L P) : Bool :=
  decide (1 ≤ ldpcRows s) && decide (ldpcRows s ≤ s.params.ldpcMMax) && decide (1 ≤ ldpcCols s) &&
    decide (ldpcCols s ≤ s.params.ldpcNMax) && decide (1 ≤ s.ldpcMaxit.toNat) &&
    P.arith.lt P.arith.zero s.ldpcDamp &&
    P.arith.lt s.ldpcDamp P.one &&
    (ldpcConfig s).h.all fun row => (rowEdges row).length != 1

/-- The stored messages LDPC_V2C on the edges (R292). -/
def storedMessages (s : State L P) : List (List L) :=
  (ldpcConfig s).h.mapIdx fun i row =>
    maskRow P.arith row (cellList s.mem.ldpcV2c (256 * i) (ldpcCols s))

/-- Elements (i, 0), (i, 1), … of a message array ← row i, for each row from `i` on (R290). -/
def setRows (c : Cells L) : Nat → List (List L) → Cells L
  | _, [] => c
  | i, row :: rows => setRows (cellSetFrom c (256 * i) row) (i + 1) rows

/-- The outputs of R290. -/
def ldpcWrite (s : State L P) (r : LdpcIteration L) : State L P :=
  { s.withMem
      { s.mem with
        ldpcHd := packBits 256 r.hd
        ldpcSyn := packBits 256 r.syn
        ldpcBelief := cellSetFrom s.mem.ldpcBelief 0 r.belief
        ldpcC2v := setRows s.mem.ldpcC2v 0 r.c2v
        ldpcV2c := setRows s.mem.ldpcV2c 0 r.v2c } with
    ldpcIters := r.iters
    ldpcConv := r.conv }

/-- The rule of LDPC.BP (cont = 0) and LDPC.BP.C (cont = 1) (R289, R292). -/
def ldpcRule (cont : Bool) (s : State L P) : Except ErrCode (State L P) :=
  if ldpcOk s then
    let c := ldpcConfig s
    let A := P.arith
    let v2c := if cont then storedMessages s else startMessages A c
    let iters := if cont then s.ldpcIters else 0#32
    .ok (ldpcWrite s (ldpcRun A c s.ldpcMaxit.toNat v2c iters))
  else .error .input

/-- `LDPC.BP` (R289). -/
def execLdpcBp (s : State L P) : Host.Outcome (State L P) Fault Refusal := .next (finish s (ldpcRule false s))

/-- `LDPC.BP.C` (R289, R292). -/
def execLdpcBpC (s : State L P) : Host.Outcome (State L P) Fault Refusal := .next (finish s (ldpcRule true s))

end Sys2Proof.Machine
end

