-- ==== Sys2Proof/Machine/Polar.lean ====
section
/-! DEFINITION. The polar successive-cancellation decoder (45_polar.md R320 to R327). -/

namespace Sys2Proof.Machine

variable {L : Type} [DecidableEq L] [Inhabited L] {P : LlrParam L}

/-- `f(a, b) = sgn(a)·sgn(b)·min(|a|, |b|)` (R323), with the operations of R12 on integers. -/
def polarF (a b : Int) : Int :=
  let A := LlrArith.integer
  A.signTimes (A.sgn a * A.sgn b) (A.min (A.abs a) (A.abs b))

/-- `g(a, b, u) = b + (1 − 2u)·a` (R324). -/
def polarG (a b : Int) (u : Bool) : Int :=
  let A := LlrArith.integer
  A.add b (A.signTimes (if u then -1 else 1) a)

/-- The received LLRs ±1 (R322). -/
def polarLlrs (rx : List Bool) : List Int := rx.map fun b => if b then -1 else 1

/-- The SC recursion `sc(Lv, off)` of R325 on a block of 2^n LLRs: the decided bits û of the block and
its encoded partial sums. -/
def polarSc (frozen : BitVec 1024) : Nat → List Int → Nat → List Bool × List Bool
  | 0, lv, off =>
    let u := !frozen.getLsbD off && decide (lv.headD 0 < 0)
    ([u], [u])
  | n + 1, lv, off =>
    let a := lv.take (2 ^ n)
    let b := lv.drop (2 ^ n)
    let up := polarSc frozen n (List.zipWith polarF a b) off
    let lo := polarSc frozen n (List.zipWith3 polarG a b up.2) (off + 2 ^ n)
    (up.1 ++ lo.1, List.zipWith (· ^^ ·) up.2 lo.2 ++ lo.2)

/-- The information positions below N, ascending (R320, R327). -/
def infoPositions (frozen : BitVec 1024) (len : Nat) : List Nat :=
  (List.range len).filter fun j => !frozen.getLsbD j

/-- n = POLAR_LOGN. -/
def polarLogn (s : State L P) : Nat := s.polarLogn.toNat

/-- û and x̂ for the received word of the state (R322, R325, R326). -/
def polarDecoded (s : State L P) : List Bool × List Bool :=
  polarSc s.mem.polarFrozen (polarLogn s)
    (polarLlrs (bitList s.mem.polarRx (2 ^ polarLogn s))) 0

/-- The rule of POLAR.SC: the check of R321, the outputs of R327. -/
def polarRule (s : State L P) : Except ErrCode (State L P) :=
  if polarLogn s ≤ s.params.polarLognMax then
    let d := polarDecoded s
    let info := infoPositions s.mem.polarFrozen (2 ^ polarLogn s)
    .ok
      { s.withMem
          { s.mem with
            polarUhat := packBits 1024 d.1
            polarXhat := packBits 1024 d.2
            polarMsg := packBits 1024 (info.map fun j => d.1.getD j false) } with
        polarKinfo := BitVec.ofNat 11 info.length }
  else .error .input

/-- `POLAR.SC` (R326). -/
def execPolarSc (s : State L P) : Host.Outcome (State L P) Fault Refusal := .next (finish s (polarRule s))

end Sys2Proof.Machine
end

