-- ==== Sys2Proof/Machine/Gf28.lean ====
section
/-! DEFINITION. GF(2^8) arithmetic and its two commands (41_gf28.md R170 to R179). -/

namespace Sys2Proof.Machine

variable {L : Type} [DecidableEq L] [Inhabited L] {P : LlrParam L}

/-- Row `r` of the EXP table as 41_gf28.md prints it: EXP[16·r] is the leftmost byte. The last byte of
row 15 is EXP[0xFF] = EXP[0]. -/
def expRows : List Nat :=
  [0x01020408102040801D3A74E8CD871326, 0x4C982D5AB475EAC98F03060C183060C0,
   0x9D274E9C254A94356AD4B577EEC19F23, 0x468C050A142850A05DBA69D2B96FDEA1,
   0x5FBE61C2992F5EBC65CA890F1E3C78F0, 0xFDE7D3BB6BD6B17FFEE1DFA35BB671E2,
   0xD9AF4386112244880D1A3468D0BD67CE, 0x811F3E7CF8EDC7933B76ECC5973366CC,
   0x85172E5CB86DDAA94F9E214284152A54, 0xA84D9A2952A455AA49923972E4D5B773,
   0xE6D1BF63C6913F7EFCE5D7B37BF6F1FF, 0xE3DBAB4B963162C495376EDCA557AE41,
   0x82193264C88D070E1C3870E0DDA753A6, 0x51A259B279F2F9EFC39B2B56AC458A09,
   0x122448903D7AF4F5F7F3FBEBCB8B0B16, 0x2C58B07DFAE9CF831B366CD8AD478E01]

/-- Row `r` of the LOG table as 41_gf28.md prints it: LOG[16·r] is the leftmost byte. The leftmost byte
of row 0 is LOG[0], which `gfLog` never reads (log entry 18). -/
def logRows : List Nat :=
  [0x0000011902321AC603DF33EE1B68C74B, 0x0464E00E348DEF811CC169F8C8084C71,
   0x058A652FE1240F2135938EDAF0128245, 0x1DB5C27D6A27F9B9C99A09784DE472A6,
   0x06BF8B6266DD30FDE29825B310912288, 0x36D094CE8F96DBBDF1D2135C83384640,
   0x1E42B6A3C3487E6E6B3A2854FA85BA3D, 0xCA5E9B9F0A15792B4ED4E5AC73F3A757,
   0x0770C0F78C80630D674ADEED31C5FE18, 0xE3A5997726B8B47C114492D92320892E,
   0x373FD15B95BCCFCD908797B2DCFCBE61, 0xF256D3AB142A5D9E843C3953476D41A2,
   0x1F2D43D8B77BA476C41749EC7F0C6FF6, 0x6CA13B52299D55AAFB6086B1BBCC3E5A,
   0xCB595FB09CA9A0510BF516EB7A752CD7, 0x4FAED5E9E6E7ADE874D6F4EAA85058AF]

/-- Byte `i` of a table of sixteen-byte rows, leftmost byte first. -/
def tableByte (rows : List Nat) (i : Nat) : Nat :=
  (rows.getD (i / 16) 0 >>> (8 * (15 - i % 16))) % 256

/-- The antilog table EXP[0..511]: the second half repeats the first (R171). -/
def gfExp (i : Nat) : Byte := BitVec.ofNat 8 (tableByte expRows (i % 255))

/-- The log table LOG[0..255] (R172); LOG[0] is a free value (I14). -/
def gfLog (a : Byte) : Nat := if a = 0#8 then Config.logZero else tableByte logRows a.toNat

/-- `gfmul(a, b)` (R173). -/
def gfmul (a b : Byte) : Byte :=
  if a = 0#8 ∨ b = 0#8 then 0#8 else gfExp ((gfLog a + gfLog b) % 255)

/-- `gfinv(a)` for a ≠ 0 (R174): EXP[255 − LOG[a]]. At 0 it has no value, and no rule asks for one. -/
def gfinv (a : Byte) : Byte := gfExp (255 - gfLog a)

/-- One step of the table construction of R171: integer doubling, reduced by 0x11D when ≥ 256. -/
def gfDouble (x : Nat) : Nat := if 2 * x ≥ 256 then (2 * x) ^^^ 0x11D else 2 * x

/-- EXP[i] for i < 255 as R171 builds it: i doublings from 1. -/
def expBuilt : Nat → Nat
  | 0 => 1
  | i + 1 => gfDouble (expBuilt i)

/-- The rule of GF.MUL (R175). -/
def gfMulRule (s : State L P) : Except ErrCode (State L P) := .ok { s with gfR := gfmul s.gfA s.gfB }

/-- The rule of GF.INV: ZERO_OPERAND for 0 (R176, R364). -/
def gfInvRule (s : State L P) : Except ErrCode (State L P) :=
  if s.gfA = 0#8 then .error .zeroOperand else .ok { s with gfR := gfinv s.gfA }

/-- `GF.MUL` (R175). -/
def execGfMul (s : State L P) : Host.Outcome (State L P) Fault Refusal := .next (finish s (gfMulRule s))

/-- `GF.INV` (R176). -/
def execGfInv (s : State L P) : Host.Outcome (State L P) Fault Refusal := .next (finish s (gfInvRule s))

end Sys2Proof.Machine
end

