-- ==== Sys2Proof/Machine/ReedSolomon.lean ====
section
/-! DEFINITION. Reed–Solomon over GF(2^8): RS.ENC, RS.SYND, RS.BM and RS.CHIEN (43_reed_solomon.md R230
to R251). -/

namespace Sys2Proof.Machine

variable {L : Type} [DecidableEq L] [Inhabited L] {P : LlrParam L}

/-! ### Polynomials as lists of coefficients -/

/-- Elementwise ⊕, the shorter list padded with zeros at its end (R245's pad). -/
def polyXor : List Byte → List Byte → List Byte
  | [], q => q
  | p, [] => p
  | a :: p, b :: q => (a ^^^ b) :: polyXor p q

/-- A polynomial times a field element. -/
def polyScale (c : Byte) (p : List Byte) : List Byte := p.map fun a => gfmul c a

/-- The product of two polynomials, ⊕ for addition (R232). -/
def polyMul : List Byte → List Byte → List Byte
  | [], _ => []
  | a :: p, q => polyXor (polyScale a q) (0#8 :: polyMul p q)

/-- Horner's rule, the list highest degree first: y ← y·x ⊕ c (R240). -/
def horner (x : Byte) (cs : List Byte) : Byte := cs.foldl (fun y c => gfmul y x ^^^ c) 0#8

/-- The largest k with p[k] ≠ 0, 0 when there is none (R245's strip; R246: Λ[0] = 1, so there is one). -/
def polyDegree : List Byte → Nat
  | [] => 0
  | _ :: p => if p.all (fun c => c == 0#8) then 0 else polyDegree p + 1

/-! ### Input checks (R231) -/

/-- K = RS_K. -/
def rsK (s : State L P) : Nat := s.rsK.toNat

/-- nsym = RS_NSYM. -/
def rsNsym (s : State L P) : Nat := s.rsNsym.toNat

/-- errs = RS_ERRS. -/
def rsErrs (s : State L P) : Nat := s.rsErrs.toNat

/-- The word length N = K + nsym (R230). -/
def rsLength (s : State L P) : Nat := rsK s + rsNsym s

/-- The checks of RS.ENC and RS.SYND (R231). -/
def rsWordOk (s : State L P) : Bool :=
  decide (rsLength s ≤ 255) && decide (rsNsym s ≤ s.params.nsymMax)

/-- The check of RS.BM (R231). -/
def rsBmOk (s : State L P) : Bool := decide (rsNsym s ≤ s.params.nsymMax)

/-- The checks of RS.CHIEN (R231). -/
def rsChienOk (s : State L P) : Bool := rsWordOk s && decide (rsErrs s ≤ s.params.nsymMax)

/-! ### Encoder -/

/-- The generator polynomial ∏ (x ⊕ α^i) for i < nsym, highest degree first (R232). -/
def rsGenerator : Nat → List Byte
  | 0 => [0x01#8]
  | i + 1 => polyMul (rsGenerator i) [0x01#8, gfExp i]

/-- One step of the long division of R233: the leading symbol `coef` leaves, and the scaled tail of g is
XORed into the next nsym symbols. -/
def rsDivideStep (g : List Byte) (coef : Byte) (rest : List Byte) : List Byte :=
  if coef ≠ 0#8 then polyXor rest (g.tail.map fun b => gfmul b coef) else rest

/-- `k` steps of the long division; the remainder is what is left (R233). -/
def rsDivide (g : List Byte) : Nat → List Byte → List Byte
  | 0, buf => buf
  | _ + 1, [] => []
  | k + 1, coef :: rest => rsDivide g k (rsDivideStep g coef rest)

/-- The nsym parity symbols of a message (R233). -/
def rsParity (nsym : Nat) (msg : List Byte) : List Byte :=
  rsDivide (rsGenerator nsym) msg.length (msg ++ List.replicate nsym 0#8)

/-- The rule of RS.ENC: parity into RS_BUF[K..N) (R233). -/
def rsEncRule (s : State L P) : Except ErrCode (State L P) :=
  if rsWordOk s then
    let parity := rsParity (rsNsym s) (cellList s.mem.rsBuf 0 (rsK s))
    .ok (s.withMem { s.mem with rsBuf := cellSetFrom s.mem.rsBuf (rsK s) parity })
  else .error .input

/-! ### Syndromes -/

/-- S_i = r(α^i) for i < nsym (R240). -/
def rsSyndromes (nsym : Nat) (word : List Byte) : List Byte :=
  (List.range nsym).map fun i => horner (gfExp i) word

/-- The rule of RS.SYND: RS_SYN[0..nsym) and SYNZ (R240). -/
def rsSyndRule (s : State L P) : Except ErrCode (State L P) :=
  if rsWordOk s then
    let syn := rsSyndromes (rsNsym s) (cellList s.mem.rsBuf 0 (rsLength s))
    .ok
      { s.withMem { s.mem with rsSyn := cellSetFrom s.mem.rsSyn 0 syn } with
        rsSynz := syn.all fun y => y == 0#8 }
  else .error .input

/-! ### Berlekamp–Massey -/

/-- The loop's two polynomials, ascending: the locator Λ and the "old" candidate (R245). -/
structure BmState where
  lam : List Byte
  old : List Byte
  deriving DecidableEq, Repr

/-- The discrepancy S[i] ⊕ Σ Λ[j]·S[i − j] for 1 ≤ j < len Λ (R245). By R246 j ≤ i, so the natural
subtraction is exact. -/
def bmDiscrepancy (syn : List Byte) (i : Nat) (lam : List Byte) : Byte :=
  (List.range (lam.length - 1)).foldl
    (fun d k => d ^^^ gfmul (lam.getD (k + 1) 0#8) (syn.getD (i - (k + 1)) 0#8)) (syn.getD i 0#8)

/-- Iteration `i` of the loop of R245. "Longer" compares list lengths. -/
def bmStep (syn : List Byte) (st : BmState) (i : Nat) : BmState :=
  let d := bmDiscrepancy syn i st.lam
  let b := 0#8 :: st.old
  if d = 0#8 then { lam := st.lam, old := b }
  else
    let swapped : BmState :=
      if b.length > st.lam.length then
        { lam := polyScale d b, old := polyScale (gfinv d) st.lam }
      else { lam := st.lam, old := b }
    { lam := polyXor swapped.lam (polyScale d swapped.old), old := swapped.old }

/-- Λ after `n` iterations (R245). -/
def bmLoop (syn : List Byte) (n : Nat) : BmState :=
  (List.range n).foldl (bmStep syn) { lam := [0x01#8], old := [0x01#8] }

/-- RS_LAMBDA[0..nsym]: the coefficients up to errs, then zeros (R245). -/
def bmOutput (lam : List Byte) (errs nsym : Nat) : List Byte :=
  (List.range (nsym + 1)).map fun j => if j ≤ errs then lam.getD j 0#8 else 0#8

/-- The rule of RS.BM (R245; TOO_MANY_ERRORS: R366). -/
def rsBmRule (s : State L P) : Except ErrCode (State L P) :=
  if rsBmOk s then
    let nsym := rsNsym s
    let lam := (bmLoop (cellList s.mem.rsSyn 0 nsym) nsym).lam
    let errs := polyDegree lam
    if 2 * errs > nsym then .error .tooManyErrors
    else
      .ok
        { s.withMem
            { s.mem with rsLambda := cellSetFrom s.mem.rsLambda 0 (bmOutput lam errs nsym) } with
          rsErrs := BitVec.ofNat 8 errs }
  else .error .input

/-! ### Chien search -/

/-- X_p⁻¹ = α^(−(N−1−p)) (R230, R250). -/
def chienPoint (n p : Nat) : Byte := gfExp ((255 - (n - 1 - p)) % 255)

/-- Λ(x) for the ascending coefficients Λ_0 .. Λ_errs (R250). -/
def chienValue (lam : List Byte) (x : Byte) : Byte := horner x lam.reverse

/-- The positions p < N with Λ(X_p⁻¹) = 0, ascending (R250). -/
def chienRoots (lam : List Byte) (n : Nat) : List Nat :=
  (List.range n).filter fun p => chienValue lam (chienPoint n p) == 0#8

/-- The rule of RS.CHIEN (R250; LOCATOR_MISMATCH: R367). -/
def rsChienRule (s : State L P) : Except ErrCode (State L P) :=
  if rsChienOk s then
    let pos := chienRoots (cellList s.mem.rsLambda 0 (rsErrs s + 1)) (rsLength s)
    if pos.length ≠ rsErrs s then .error .locatorMismatch
    else
      .ok
        { s.withMem
            { s.mem with rsPos := cellSetFrom s.mem.rsPos 0 (pos.map (BitVec.ofNat 8)) } with
          rsNpos := BitVec.ofNat 8 pos.length }
  else .error .input

/-! ### The four commands -/

/-- `RS.ENC` (R233). -/
def execRsEnc (s : State L P) : Host.Outcome (State L P) Fault Refusal := .next (finish s (rsEncRule s))

/-- `RS.SYND` (R240). -/
def execRsSynd (s : State L P) : Host.Outcome (State L P) Fault Refusal := .next (finish s (rsSyndRule s))

/-- `RS.BM` (R245). -/
def execRsBm (s : State L P) : Host.Outcome (State L P) Fault Refusal := .next (finish s (rsBmRule s))

/-- `RS.CHIEN` (R250). -/
def execRsChien (s : State L P) : Host.Outcome (State L P) Fault Refusal := .next (finish s (rsChienRule s))

end Sys2Proof.Machine
end

