-- ==== Sys2Proof/Machine/Dispatch.lean ====
section
/-! DEFINITION. The meaning of each command word: one arm per constructor of Instr (40_control.md R142). -/

namespace Sys2Proof.Machine

def exec (i : Instr) (s : State) : Host.Outcome State Fault Refusal :=
  match i with
  | .nop => Sys2Proof.Machine.execNop s
  | .hamEnc => Sys2Proof.Machine.execHamEnc s
  | .hamEncX => Sys2Proof.Machine.execHamEncX s
  | .hamDec => Sys2Proof.Machine.execHamDec s
  | .hamDecX => Sys2Proof.Machine.execHamDecX s
  | .gfMul => Sys2Proof.Machine.execGfMul s
  | .gfInv => Sys2Proof.Machine.execGfInv s
  | .rsEnc => Sys2Proof.Machine.execRsEnc s
  | .rsSynd => Sys2Proof.Machine.execRsSynd s
  | .rsBm => Sys2Proof.Machine.execRsBm s
  | .rsChien => Sys2Proof.Machine.execRsChien s
  | .ldpcBp => Sys2Proof.Machine.execLdpcBp s
  | .ldpcBpC => Sys2Proof.Machine.execLdpcBpC s
  | .polarSc => Sys2Proof.Machine.execPolarSc s

end Sys2Proof.Machine
end

