-- ==== Sys2Proof/Machine/EveryCore.lean ====
section
/-! DEFINITION. The machine on every number type: `Llr` and `LLR_ARITH` are arguments of the model (00_scope.md
R7), so completion and step are written for any of them. `exec` and `step` are this machine on the reference
instantiation (R13). -/

namespace Sys2Proof.Machine

variable {L : Type} [DecidableEq L] [Inhabited L] {P : LlrParam L}

/-- The meaning of each command word on any number type (40_control.md R142); on the reference instantiation
it is `exec`. -/
def execOn (i : Instr) (s : State L P) : Host.Outcome (State L P) Fault Refusal :=
  match i with
  | .nop => execNop s
  | .hamEnc => execHamEnc s
  | .hamEncX => execHamEncX s
  | .hamDec => execHamDec s
  | .hamDecX => execHamDecX s
  | .gfMul => execGfMul s
  | .gfInv => execGfInv s
  | .rsEnc => execRsEnc s
  | .rsSynd => execRsSynd s
  | .rsBm => execRsBm s
  | .rsChien => execRsChien s
  | .ldpcBp => execLdpcBp s
  | .ldpcBpC => execLdpcBpC s
  | .polarSc => execPolarSc s

/-- The completion of the pending command: CMD is decoded, an ILLEGAL word completes with ILLEGAL_CMD, any
other runs its rule (R142, R143). -/
def completion (s : State L P) : Host.Outcome (State L P) Fault Refusal :=
  match decode s.cmd with
  | .ok i => execOn i s
  | .error _ => .next (illegalCompletion s)

/-- The Engine's turn: the completion when BUSY = 1; it is idle otherwise (R142, R380). -/
def engineTurn (s : State L P) : Host.Outcome (State L P) Fault Refusal :=
  if s.status.busy then completion s else .next s

/-- One event of the total order of 20_memory.md R85: a Host transaction, the Engine's turn, or the hardware
reset (70_reset_and_hazards.md R400). With no event left the turn is the Engine's, so every pending command
completes (R147, R410; log entry 6). -/
def stepOn (s : State L P) : Host.Outcome (State L P) Fault Refusal :=
  match s.events with
  | [] => engineTurn s
  | .host t :: es => .next (hostTxn t { s with events := es })
  | .engine :: es => engineTurn { s with events := es }
  | .rst drawn :: es => .next (hardReset drawn { s with events := es })

end Sys2Proof.Machine
end

