-- ==== Sys2Proof/Machine/Step.lean ====
section
/-! DEFINITION. One step of the machine behind the host's interface, and the placing of a command. -/

namespace Sys2Proof.Machine

/-- One step: the next event of the order (20_memory.md R85), on the reference instantiation. -/
def step (s : State) : Host.Outcome State Fault Refusal := stepOn s

/-- The state in which the table word's command has just been launched and the next event is the Engine's
turn, so that the next step decodes and runs it (R141, R142; log entry 13). -/
def State.withFetchWord (s : State) (nbits w : Nat) : State :=
  { launch (tableWord nbits w) s with events := .engine :: s.events }

end Sys2Proof.Machine
end

