-- ==== Sys2Proof/Machine/HostProgram.lean ====
section
/-! DEFINITION. The Host's program forms (30_encoding.md R117) and pseudo-instructions (R118): what the
Host does from a state, each transaction one step, with the place of the completion in the order of
20_memory.md R85 given by a number of polls (log entry 17). -/

namespace Sys2Proof.Machine

variable {L : Type} [DecidableEq L] [Inhabited L] {P : LlrParam L}

/-! ### One transaction (R117) -/

/-- `WR <location>, v` (R117). -/
def wr (l : Location) (v : PortValue L) : Event L := .host (.write l.addr v)

/-- `RD <location>` (R117); the answer stands in `rdata`. -/
def rd (l : Location) : Event L := .host (.read l.addr)

/-- `CMD <mnemonic>`: `WR CMD, <word>` (R117). -/
def cmdEvent (i : Instr) : Event L := wr .cmd (.word (encode i))

/-- The state after one more event, before every event already in the order. -/
def perform (e : Event L) (s : State L P) : State L P :=
  match stepOn { s with events := e :: s.events } with
  | .next t => t
  | .fault f => nomatch f
  | .refused _ => s

/-- The word the last `RD` answered. -/
def answer (s : State L P) : Word :=
  match s.rdata with
  | some v => v.toWord P
  | none => 0

/-! ### Pseudo-instructions (R118) -/

/-- `WAIT`: read STATUS until BUSY = 0. The completion comes after at most `polls` reads that found
BUSY = 1; with BUSY = 0 the first read ends the loop. -/
def wait : Nat → State L P → State L P
  | 0, s => perform (rd .status) (perform .engine s)
  | n + 1, s =>
    let t := perform (rd .status) s
    if (answer t).getLsbD 0 then wait n t else t

/-- `RUN <mnemonic>`: `CMD`, `WAIT`, and a read of STATUS. While an earlier command is pending its CMD
write is dropped like any other, and WAIT waits for that command. -/
def run (i : Instr) (polls : Nat) (s : State L P) : State L P :=
  perform (rd .status) (wait polls (perform (cmdEvent i) s))

/-- The result of RUN: s[7:4] of the status word read. -/
def runResult (s : State L P) : BitVec 4 := (answer s).extractLsb' 4 4

/-- `HAM.ROUNDTRIP` for data d and error pattern e: the word written to HAM_RX is the one read from
HAM_CW, with e added. -/
def hamRoundtrip (d e : Word) (pollsEnc pollsDec : Nat) (s : State L P) : State L P :=
  let t := perform (rd .hamCw) (run .hamEnc pollsEnc (perform (wr .hamDin (.word d)) s))
  run .hamDec pollsDec (perform (wr .hamRx (.word (answer t ^^^ e))) t)

/-- `LDPC.STEP`: one more iteration. -/
def ldpcStep (polls : Nat) (s : State L P) : State L P :=
  run .ldpcBpC polls (perform (wr .ldpcMaxit (.word 1)) s)

end Sys2Proof.Machine
end

