-- ==== Sys2Proof/Machine/Reference.lean ====
section
/-! DEFINITION. The host-side reference functions: rules of the spec that no command reaches (00_scope.md
R5), kept so that the source's round-trip properties can be stated: `gfdiv` (41_gf28.md R180), Forney and
the decode sequence (43_reed_solomon.md R265, R266), the polar generator, encoder and ranking (45_polar.md
R340 to R342). -/

namespace Sys2Proof.Machine

/-- `gfdiv(a, b)` (R180); `none` is the failure DivisionByZero. -/
def gfdiv (a b : Byte) : Option Byte :=
  if b = 0#8 then none
  else if a = 0#8 then some 0#8
  else some (gfExp ((gfLog a + 255 - gfLog b) % 255))

/-! ### Reed–Solomon: Forney and the decode sequence -/

/-- The error evaluator Ω: the low nsym coefficients of S(x)·Λ(x) (R265). -/
def forneyOmega (syn lam : List Byte) (nsym : Nat) : List Byte :=
  (List.range nsym).map fun k => (polyMul syn lam).getD k 0#8

/-- The locators X_i = α^(N−1−p) of the error positions (R9, R265). -/
def forneyLocators (n : Nat) (pos : List Nat) : List Byte :=
  pos.map fun p => gfExp (((n : Int) - 1 - p) % 255).toNat

/-- The product over j ≠ i of 1 ⊕ X_i⁻¹·X_j (R265). -/
def forneyDenominator (xs : List Byte) (i : Nat) : Byte :=
  let xi := gfinv (xs.getD i 0#8)
  ((List.range xs.length).filter fun j => j != i).foldl
    (fun den j => gfmul den (1#8 ^^^ gfmul xi (xs.getD j 0#8))) 1#8

/-- The magnitude at error position number `i`; `none` where the denominator is 0 and the position is
skipped (R265, R267). -/
def forneyMagnitude (om xs : List Byte) (i : Nat) : Option Byte :=
  gfdiv (chienValue om (gfinv (xs.getD i 0#8))) (forneyDenominator xs i)

/-- `forney(r, S, Λ, pos, nsym)`: the corrected word and the magnitudes (R265). -/
def forney (r syn lam : List Byte) (pos : List Nat) (nsym : Nat) : List Byte × List (Option Byte) :=
  let om := forneyOmega syn lam nsym
  let xs := forneyLocators r.length pos
  let mags := (List.range pos.length).map fun i => forneyMagnitude om xs i
  let out := (List.zip pos mags).foldl
    (fun o pm => match pm.2 with
      | none => o
      | some m => o.set pm.1 (o.getD pm.1 0#8 ^^^ m)) r
  (out, mags)

/-- The result states of the decode sequence (R266). -/
inductive RsResult where
  | validNoErrors (message : List Byte)
  | corrected (positions : List Nat) (magnitudes : List (Option Byte)) (message : List Byte)
  | tooManyErrors
  | locatorMismatch
  deriving DecidableEq, Repr

/-- `RS.DECODE` (R118) with the result of R266, and the state it leaves. It stops at SYNZ = 1, at
TOO_MANY_ERRORS and at LOCATOR_MISMATCH and nowhere else: after any other code it goes on with the values
the registers hold. The numbers place the three completions (`wait`). The reads of the last line change no
state of the core (20_memory.md R92) and are not performed one by one. -/
def rsDecode {L : Type} [DecidableEq L] [Inhabited L] {P : LlrParam L}
    (pollsSynd pollsBm pollsChien : Nat) (s : State L P) : State L P × RsResult :=
  let t := perform (rd .rsSstat) (run .rsSynd pollsSynd s)
  if (answer t).getLsbD 0 then (t, .validNoErrors (cellList t.mem.rsBuf 0 (rsK t)))
  else
    let u := run .rsBm pollsBm t
    if runResult u = ErrCode.tooManyErrors.code then (u, .tooManyErrors)
    else
      let v := run .rsChien pollsChien u
      if runResult v = ErrCode.locatorMismatch.code then (v, .locatorMismatch)
      else
        let pos := (cellList v.mem.rsPos 0 v.rsNpos.toNat).map BitVec.toNat
        let f := forney (cellList v.mem.rsBuf 0 (rsLength v)) (cellList v.mem.rsSyn 0 (rsNsym v))
          (cellList v.mem.rsLambda 0 (rsErrs v + 1)) pos (rsNsym v)
        (v, .corrected pos f.2 (f.1.take (rsK v)))

/-! ### Polar: generator, encoder, ranking -/

/-- The generator matrix G_N, N = 2^n: n Kronecker products with F = [[1,0],[1,1]] (R340). -/
def polarGenerator : Nat → List (List Bool)
  | 0 => [[true]]
  | n + 1 =>
    let g := polarGenerator n
    g.map (fun row => row ++ List.replicate row.length false) ++ g.map (fun row => row ++ row)

/-- The codeword u·G_N mod 2 (R341). -/
def polarTransform (n : Nat) (u : List Bool) : List Bool :=
  (List.range (2 ^ n)).map fun j =>
    (List.zipWith (fun b row => b && row.getD j false) u (polarGenerator n)).foldl (· ^^ ·) false

/-- The input vector with message bit k at the k-th information position, 0 elsewhere (R341). -/
def polarPlace (n : Nat) (info : List Nat) (msg : List Bool) : List Bool :=
  (List.range (2 ^ n)).map fun j => ((List.zip info msg).lookup j).getD false

/-- The polar encoder (R341). -/
def polarEncode (n : Nat) (info : List Nat) (msg : List Bool) : List Bool :=
  polarTransform n (polarPlace n info msg)

/-- The Bhattacharyya parameters z of the 2^n channels at erasure probability ε (R342). The rule gives
ε and z no number type: they are exact rational numbers (DESIGN CHOICE, log entry 19). -/
def bhattacharyya (eps : Rat) : Nat → List Rat
  | 0 => [eps]
  | n + 1 => (bhattacharyya eps n).flatMap fun v => [min (2 * v - v * v) 1, v * v]

/-- Whether channel i comes before channel j: smaller z, ties to the lower index (R342). -/
def channelBefore (z : List Rat) (i j : Nat) : Bool :=
  decide (z.getD i 0 < z.getD j 0) || (decide (z.getD i 0 = z.getD j 0) && decide (i ≤ j))

/-- All channels, most reliable first (R342). -/
def channelOrder (eps : Rat) (n : Nat) : List Nat :=
  let z := bhattacharyya eps n
  (List.range (2 ^ n)).insertionSort fun i j => channelBefore z i j = true

/-- The information channels for K, ascending (R342). -/
def rankedInfo (eps : Rat) (n k : Nat) : List Nat :=
  ((channelOrder eps n).take k).insertionSort fun i j => i ≤ j

/-- The frozen set for K, as the bit array POLAR_FROZEN takes (R342). -/
def rankedFrozen (eps : Rat) (n k : Nat) : List Bool :=
  (List.range (2 ^ n)).map fun j => !(rankedInfo eps n k).contains j

end Sys2Proof.Machine
end

