-- ==== Sys2Proof/Safety.lean ====
section
/-! DEFINITION. What counts as a safe run: every step answers a next state, and every state meets the
invariant below. -/

namespace Sys2Proof.Machine

variable {L : Type} [DecidableEq L] [Inhabited L] {P : LlrParam L}

/-- The status flags while a command is pending: DONE = 0 and ERR = 0 (40_control.md R141, R144). -/
def Status.pendingOk (st : Status) : Bool := !st.busy || (!st.done && st.err == .ok)

/-- HAM_DSTAT as HAM.DEC leaves it: OOR = 0 (42_hamming.md R206), ERRV = 1 exactly when SYN ≠ 0, ERRPOS = 0
when ERRV = 0 (10_state.md R43). -/
def HamDstat.ok (d : HamDstat) : Bool :=
  !d.oor && d.errv == (d.syn != 0#3) && (d.errv || d.errpos == 0#3)

/-- The invariant every step keeps: legal parameters (00_scope.md R7), the arrays in canonical form with
their reserved elements and bits 0, the status flags and HAM_DSTAT as above, RS_NPOS ≤ NSYM_MAX
(43_reed_solomon.md R231, R250) and POLAR_KINFO ≤ 2^POLAR_LOGN_MAX (45_polar.md R327). -/
def State.inv (s : State L P) : Bool :=
  s.params.legal && s.mem.wf s.params && s.status.pendingOk && s.hamDstat.ok &&
    decide (s.rsNpos.toNat ≤ s.params.nsymMax) && decide (s.polarKinfo.toNat ≤ polarMax s.params)

/-- A step from `s` answers a next state. -/
def stepsSafely (s : State L P) : Prop := ∃ t, stepOn s = .next t

/-- A machine with the core's interface on the number type `L` with the operations `P`. -/
structure CoreMachine (L : Type) (P : LlrParam L) where
  exec : Instr → State L P → Host.Outcome (State L P) Fault Refusal
  step : State L P → Host.Outcome (State L P) Fault Refusal
  reset : State L P

/-- It, as the host's interface has a machine. -/
def CoreMachine.core {L : Type} {P : LlrParam L} (m : CoreMachine L P) : Host.Core :=
  { State := State L P, Fault := Fault, Refusal := Refusal, step := m.step, reset := m.reset }

/-- The machine on `L` and `P` with sizes `p`. -/
def machineOn (L : Type) [DecidableEq L] [Inhabited L] (P : LlrParam L) (p : Params) : CoreMachine L P :=
  { exec := execOn, step := stepOn, reset := State.initial p }

/-- The machine behind the host's interface. -/
def hostMachine : CoreMachine Llr LlrParam.exact := { exec := exec, step := step, reset := State.reset }

/-- A property of the machine for every `Llr` and `LLR_ARITH` (00_scope.md R7), and of the machine behind the
host's interface, which is the one on the reference instantiation. -/
def onEveryCore
    (p : ∀ (L : Type) [DecidableEq L] [Inhabited L] (P : LlrParam L), CoreMachine L P → Prop) : Prop :=
  (∀ (L : Type) [DecidableEq L] [Inhabited L] (P : LlrParam L) (sizes : Params),
      p L P (machineOn L P sizes)) ∧
    p Llr LlrParam.exact hostMachine

end Sys2Proof.Machine
end

