-- ==== Sys2Proof/Certificates/Slice0/Obligations.lean ====
section
/-! DEFINITION. The statements for the provers, file by file of the spec. The functions of namespace
`Spec` say what a rule says without the model's own functions. A statement of `onEveryCore` is made of the
machine `m` for every `Llr` and `LLR_ARITH` (00_scope.md R7), and of the machine behind the host's interface,
whose `m.exec` is `exec` and whose `m.step` is `step`. -/

namespace Sys2Proof.Spec

open Sys2Proof.Machine

variable {L : Type} [DecidableEq L] [Inhabited L] {P : LlrParam L}

/-- STATUS after a completion with a code: BUSY 0, DONE 1, HAZ as it was (40_control.md R142). -/
def completed (c : ErrCode) (s : State L P) : Status :=
  { busy := false, done := true, haz := s.status.haz, err := c }

/-- The illegal words of 30_encoding.md R114. -/
def illegalWord (w : Word) : Prop :=
  w.extractLsb' 9 23 ≠ 0#23 ∨ 0x0B ≤ (w.extractLsb' 0 8).toNat ∨
    (w.getLsbD 8 = true ∧
      (w.extractLsb' 0 8).toNat ∈ [0x00, 0x03, 0x04, 0x05, 0x06, 0x07, 0x08, 0x0A])

/-- The bits of a location's word that are listed fields; the others are reserved (10_state.md R33 to R76;
packed words: 20_memory.md R83, R84). -/
def fieldMask (p : Params) : Location → Word
  | .id | .cmd | .ldpcIters => 0xFFFFFFFF
  | .param0 => 0x000F00FF
  | .param1 => 0x01FF01FF
  | .ctrl | .rsSstat | .ldpcStat => 0x1
  | .status => 0xF7
  | .hamDin | .polarLogn => 0xF
  | .hamCw | .hamRx | .hamCorr | .gfA | .gfB | .gfR | .rsK | .rsNsym | .rsErrs | .rsNpos => 0xFF
  | .rsBuf _ | .rsSyn _ | .rsLambda _ | .rsPos _ => 0xFF
  | .hamDstat => 0xFFF
  | .ldpcM | .ldpcN => 0x1FF
  | .ldpcMaxit => 0xFFFF
  | .polarKinfo => 0x7FF
  | .ldpcRx k | .ldpcHd k | .ldpcH _ k => BitVec.ofNat 32 (2 ^ min 32 (p.ldpcNMax - 32 * k) - 1)
  | .ldpcSyn k => BitVec.ofNat 32 (2 ^ min 32 (p.ldpcMMax - 32 * k) - 1)
  | .polarFrozen k | .polarRx k | .polarUhat k | .polarXhat k | .polarMsg k =>
    BitVec.ofNat 32 (2 ^ min 32 (2 ^ p.polarLognMax - 32 * k) - 1)
  | .reserved | .ldpcLc | .ldpcDamp | .ldpcBelief _ | .ldpcC2v _ _ | .ldpcV2c _ _ => 0

/-- A flag as a number. -/
def bit (b : Bool) : Nat := if b then 1 else 0

/-- The number of each error code (60_exceptions.md R361). -/
def codeNumber : ErrCode → Nat
  | .ok => 0
  | .illegalCmd => 1
  | .input => 2
  | .zeroOperand => 3
  | .tooManyErrors => 4
  | .locatorMismatch => 5

/-- Word k of a bit array of which the first n bits are valid: index j at bit j mod 32 of word ⌊j/32⌋
(00_scope.md R10, 20_memory.md R90), the other bits 0. -/
def packedWord (n : Nat) (arr : Nat → Bool) (k : Nat) (w : Word) : Prop :=
  ∀ b, b < 32 → w.getLsbD b = (decide (32 * k + b < n) && arr (32 * k + b))

/-- What a read of each location answers: its fields at their bits (10_state.md R36 to R76). ID and PARAM
are left to `IdentificationIsConstant`. -/
def reads (s : State L P) (l : Location) (v : PortValue L) : Prop :=
  let num := fun n => v = .word (BitVec.ofNat 32 n)
  let packed := fun n arr k => ∃ w, v = .word w ∧ packedWord n arr k w
  let cols := s.params.ldpcNMax
  let block := 2 ^ s.params.polarLognMax
  match l with
  | .id | .param0 | .param1 => True
  | .reserved => num 0
  | .ctrl => num (bit s.irqEn)
  | .status => num (bit s.status.busy + 2 * bit s.status.done + 4 * bit s.status.haz +
      16 * codeNumber s.status.err)
  | .cmd => v = .word s.cmd
  | .hamDin => num s.hamDin.toNat
  | .hamCw => num s.hamCw.toNat
  | .hamRx => num s.hamRx.toNat
  | .hamCorr => num s.hamCorr.toNat
  | .hamDstat => num (s.hamDstat.syn.toNat + 8 * bit s.hamDstat.errv + 16 * s.hamDstat.errpos.toNat +
      128 * bit s.hamDstat.oor + 256 * s.hamDstat.msg.toNat)
  | .gfA => num s.gfA.toNat
  | .gfB => num s.gfB.toNat
  | .gfR => num s.gfR.toNat
  | .rsK => num s.rsK.toNat
  | .rsNsym => num s.rsNsym.toNat
  | .rsErrs => num s.rsErrs.toNat
  | .rsNpos => num s.rsNpos.toNat
  | .rsSstat => num (bit s.rsSynz)
  | .ldpcM => num s.ldpcM.toNat
  | .ldpcN => num s.ldpcN.toNat
  | .ldpcMaxit => num s.ldpcMaxit.toNat
  | .ldpcLc => v = .llr s.ldpcLc
  | .ldpcDamp => v = .llr s.ldpcDamp
  | .ldpcIters => v = .word s.ldpcIters
  | .ldpcStat => num (bit s.ldpcConv)
  | .polarLogn => num s.polarLogn.toNat
  | .polarKinfo => num s.polarKinfo.toNat
  | .rsBuf i => num (cellGet s.mem.rsBuf i).toNat
  | .rsSyn i => num (cellGet s.mem.rsSyn i).toNat
  | .rsLambda j => num (cellGet s.mem.rsLambda j).toNat
  | .rsPos k => num (cellGet s.mem.rsPos k).toNat
  | .ldpcRx k => packed cols s.mem.ldpcRx.getLsbD k
  | .ldpcHd k => packed cols s.mem.ldpcHd.getLsbD k
  | .ldpcSyn k => packed s.params.ldpcMMax s.mem.ldpcSyn.getLsbD k
  | .ldpcH i k => packed cols (cellGet s.mem.ldpcH i).getLsbD k
  | .ldpcBelief j => v = .llr (cellGet s.mem.ldpcBelief j)
  | .ldpcC2v i j => v = .llr (cellGet s.mem.ldpcC2v (256 * i + j))
  | .ldpcV2c i j => v = .llr (cellGet s.mem.ldpcV2c (256 * i + j))
  | .polarFrozen k => packed block s.mem.polarFrozen.getLsbD k
  | .polarRx k => packed block s.mem.polarRx.getLsbD k
  | .polarUhat k => packed block s.mem.polarUhat.getLsbD k
  | .polarXhat k => packed block s.mem.polarXhat.getLsbD k
  | .polarMsg k => packed block s.mem.polarMsg.getLsbD k

/-- The write set of each command (the table of 40_control.md R144). -/
def writes : Instr → Location → Prop
  | .nop, _ => False
  | .hamEnc, l | .hamEncX, l => l = .hamCw
  | .hamDec, l | .hamDecX, l => l = .hamCorr ∨ l = .hamDstat
  | .gfMul, l | .gfInv, l => l = .gfR
  | .rsEnc, l => ∃ i, l = .rsBuf i
  | .rsSynd, l => (∃ i, l = .rsSyn i) ∨ l = .rsSstat
  | .rsBm, l => (∃ j, l = .rsLambda j) ∨ l = .rsErrs
  | .rsChien, l => (∃ k, l = .rsPos k) ∨ l = .rsNpos
  | .ldpcBp, l | .ldpcBpC, l =>
    (∃ k, l = .ldpcHd k) ∨ (∃ k, l = .ldpcSyn k) ∨ (∃ j, l = .ldpcBelief j) ∨
      (∃ i j, l = .ldpcC2v i j) ∨ (∃ i j, l = .ldpcV2c i j) ∨ l = .ldpcIters ∨ l = .ldpcStat
  | .polarSc, l =>
    (∃ k, l = .polarUhat k) ∨ (∃ k, l = .polarXhat k) ∨ (∃ k, l = .polarMsg k) ∨ l = .polarKinfo

/-- The write set of a command word: that of its command, none for an ILLEGAL word (R144). -/
def wordWrites (w : Word) (l : Location) : Prop := ∃ i, decode w = .ok i ∧ writes i l

/-- The scalar register offsets, written out from 20_memory.md R82. -/
def scalars : List (Addr × Location) :=
  [(0x000, .id), (0x004, .param0), (0x008, .param1), (0x010, .ctrl), (0x014, .status), (0x018, .cmd),
   (0x040, .hamDin), (0x044, .hamCw), (0x048, .hamRx), (0x04C, .hamCorr), (0x050, .hamDstat),
   (0x060, .gfA), (0x064, .gfB), (0x068, .gfR), (0x080, .rsK), (0x084, .rsNsym), (0x088, .rsErrs),
   (0x08C, .rsNpos), (0x090, .rsSstat), (0x0C0, .ldpcM), (0x0C4, .ldpcN), (0x0C8, .ldpcMaxit),
   (0x0CC, .ldpcLc), (0x0D0, .ldpcDamp), (0x0D4, .ldpcIters), (0x0D8, .ldpcStat), (0x100, .polarLogn),
   (0x104, .polarKinfo)]

/-- The operand locations of access `RW` (10_state.md R39 to R76, CTRL, STATUS and CMD apart). -/
def rw : Location → Prop
  | .hamDin | .hamRx | .gfA | .gfB | .rsK | .rsNsym | .rsErrs => True
  | .ldpcM | .ldpcN | .ldpcMaxit | .ldpcLc | .ldpcDamp | .polarLogn => True
  | .rsBuf _ | .rsSyn _ | .rsLambda _ | .ldpcRx _ | .ldpcH _ _ | .polarFrozen _ | .polarRx _ => True
  | _ => False

/-- The addresses of no window and above the scalar registers, each range from its first to before its
last address (R83). -/
def gaps : List (Nat × Nat) :=
  [(0x02020, 0x02100), (0x02120, 0x02200), (0x02220, 0x02400), (0x02800, 0x04000), (0x04080, 0x04100),
   (0x04180, 0x04200), (0x04280, 0x04300), (0x04380, 0x04400), (0x04480, 0x10000), (0x12000, 0x20000),
   (0xA0000, 0x100000)]

/-- A window's address and what it reaches: the element where it is valid, else reserved (R83, R84). -/
def windowAt (p : Params) (offset : Nat) (valid : Prop) (l : Location) : Prop :=
  (valid → locate p (BitVec.ofNat 20 offset) = l) ∧
    (¬ valid → locate p (BitVec.ofNat 20 offset) = .reserved)

/-- What each register reads as after a reset (70_reset_and_hazards.md R401), ID and PARAM apart, on a core
with the number type `P`. -/
def resetReads (P : LlrParam L) : List (Location × PortValue L) :=
  [(.ctrl, .word 0), (.status, .word 0), (.cmd, .word 0), (.hamDin, .word 0), (.hamCw, .word 0),
   (.hamRx, .word 0), (.hamCorr, .word 0), (.hamDstat, .word 0), (.gfA, .word 0), (.gfB, .word 0),
   (.gfR, .word 0), (.rsK, .word 0), (.rsNsym, .word 0), (.rsErrs, .word 0), (.rsNpos, .word 0),
   (.rsSstat, .word 0), (.ldpcM, .word 0), (.ldpcN, .word 0), (.ldpcMaxit, .word 0),
   (.ldpcIters, .word 0), (.ldpcStat, .word 0), (.ldpcLc, .llr P.arith.zero),
   (.ldpcDamp, .llr P.threeQuarters),
   (.polarLogn, .word 0), (.polarKinfo, .word 0)]

/-- One multiplication by x modulo 0x11D. -/
def xtimes (a : Byte) : Byte := if a.getLsbD 7 then (a <<< 1) ^^^ 0x1D#8 else a <<< 1

/-- The product of two polynomials over GF(2) reduced modulo 0x11D, bit by bit of the second factor
(41_gf28.md R177). -/
def product (a b : Byte) : Byte :=
  (List.range 8).foldl (fun acc k => if b.getLsbD k then acc ^^^ (xtimes^[k] a) else acc) 0#8

/-- α^e for a natural exponent: e multiplications of 1 by x (00_scope.md R9, 41_gf28.md R171). -/
def alphaPow (e : Nat) : Byte := xtimes^[e % 255] 1#8

/-- The exclusive OR of f 0 .. f (n−1). -/
def xorSum (n : Nat) (f : Nat → Byte) : Byte := (List.range n).foldl (fun acc p => acc ^^^ f p) 0#8

/-- The exclusive OR of bits b 0 .. b (n−1). -/
def parity (n : Nat) (b : Nat → Bool) : Bool := (List.range n).foldl (fun acc p => acc ^^ b p) false

/-- r(α^i) for the word r of length n, symbol p the coefficient of x^(n−1−p) (43_reed_solomon.md R230,
R240). -/
def wordAt (r : Nat → Byte) (n i : Nat) : Byte :=
  xorSum n fun p => product (r p) (alphaPow (i * (n - 1 - p)))

/-- Λ(X_p⁻¹) for the locator coefficients Λ_0 .. Λ_errs (R250): X_p⁻¹ = α^(−(n−1−p)). -/
def locatorAt (lam : Nat → Byte) (errs n p : Nat) : Byte :=
  xorSum (errs + 1) fun j => product (lam j) (alphaPow (j * (255 - (n - 1 - p))))

/-- RS_BUF[p]. -/
def buf (s : State L P) (p : Nat) : Byte := cellGet s.mem.rsBuf p

/-- The input checks of RS.ENC and RS.SYND (R231). -/
def wordLegal (s : State L P) : Prop :=
  s.rsK.toNat + s.rsNsym.toNat ≤ 255 ∧ s.rsNsym.toNat ≤ s.params.nsymMax

/-- The input checks of RS.CHIEN (R231). -/
def chienLegal (s : State L P) : Prop := wordLegal s ∧ s.rsErrs.toNat ≤ s.params.nsymMax

/-- H[i][j] (44_ldpc.md R280). -/
def edge (s : State L P) (i j : Nat) : Bool := (cellGet s.mem.ldpcH i).getLsbD j

/-- |E(i)|, the number of edges of check row i (R280). -/
def rowWeight (s : State L P) (i : Nat) : Nat := ((List.range s.ldpcN.toNat).filter fun j => edge s i j).length

/-- The input checks of LDPC.BP (R282), 0 < d < 1 in the core's own arithmetic. -/
def ldpcLegal (s : State L P) : Prop :=
  1 ≤ s.ldpcM.toNat ∧ s.ldpcM.toNat ≤ s.params.ldpcMMax ∧ 1 ≤ s.ldpcN.toNat ∧
    s.ldpcN.toNat ≤ s.params.ldpcNMax ∧ 1 ≤ s.ldpcMaxit.toNat ∧
    P.arith.lt P.arith.zero s.ldpcDamp = true ∧
    P.arith.lt s.ldpcDamp P.one = true ∧
    ∀ i, i < s.ldpcM.toNat → rowWeight s i ≠ 1

/-- What the commands do from the state `t` right after a reset (70_reset_and_hazards.md R405): LDPC.BP fails
with INPUT as it stands and runs once legal M, N and MAXIT are set, no check row of weight 1 (R282); RS.ENC and
RS.SYND succeed on the empty word and write no array element; POLAR.SC decodes one bit. -/
def firstCommands (m : CoreMachine L P) (t : State L P) : Prop :=
  m.exec .ldpcBp t = .next { t with status := completed .input t } ∧
    (∀ (rows cols : BitVec 9) (maxit : BitVec 16),
      let r : State L P := { t with ldpcM := rows, ldpcN := cols, ldpcMaxit := maxit }
      1 ≤ rows.toNat → rows.toNat ≤ t.params.ldpcMMax → 1 ≤ cols.toNat → cols.toNat ≤ t.params.ldpcNMax →
        1 ≤ maxit.toNat → (∀ i, i < rows.toNat → rowWeight r i ≠ 1) →
          ∃ u, m.exec .ldpcBp r = .next u ∧ u.status = completed .ok t) ∧
    m.exec .rsEnc t = .next { t with status := completed .ok t } ∧
    m.exec .rsSynd t = .next { t with rsSynz := true, status := completed .ok t } ∧
    ∃ u, m.exec .polarSc t = .next u ∧ u.status = completed .ok t ∧
      u.mem.polarUhat.getLsbD 0 = (!t.mem.polarFrozen.getLsbD 0 && t.mem.polarRx.getLsbD 0) ∧
      ∀ j, 1 ≤ j → u.mem.polarUhat.getLsbD j = false

/-- ch_j (R281). -/
def channel (s : State L P) (j : Nat) : L :=
  if s.mem.ldpcRx.getLsbD j then P.arith.neg s.ldpcLc else s.ldpcLc

/-- LDPC_C2V[i][j]. -/
def c2v (s : State L P) (i j : Nat) : L := cellGet s.mem.ldpcC2v (256 * i + j)

/-- LDPC_V2C[i][j]. -/
def v2c (s : State L P) (i j : Nat) : L := cellGet s.mem.ldpcV2c (256 * i + j)

/-- LDPC_BELIEF[j]. -/
def belief (s : State L P) (j : Nat) : L := cellGet s.mem.ldpcBelief j

/-- s · (mag · d) of R284 for the other messages of a check, in the order they stand, their minimum taken from
the left (log entry 20). -/
def minSum (A : LlrArith L) (d : L) (others : List L) : L :=
  let mag := match others.map A.abs with
    | [] => A.zero
    | m :: ms => ms.foldl A.min m
  if (others.filter fun m => A.lt m A.zero).length % 2 = 1 then A.neg (A.mul mag d) else A.mul mag d

/-- The locations LDPC.BP may write, with everything else as in s (R290, 40_control.md R144). -/
def ldpcFrame (s t : State L P) : Prop :=
  t = { s with
    mem := { s.mem with
      ldpcHd := t.mem.ldpcHd, ldpcSyn := t.mem.ldpcSyn, ldpcBelief := t.mem.ldpcBelief
      ldpcC2v := t.mem.ldpcC2v, ldpcV2c := t.mem.ldpcV2c }
    ldpcIters := t.ldpcIters, ldpcConv := t.ldpcConv, status := completed .ok s }

/-- G_N[i][j] for i, j < N: the set bits of j are set in i (45_polar.md R340, closed form). -/
def polarEntry (i j : Nat) : Bool := decide (j &&& i = j)

/-- Bit j of u·G_N mod 2 (45_polar.md R341). -/
def polarCode (n : Nat) (u : Nat → Bool) (j : Nat) : Bool := parity (2 ^ n) fun i => u i && polarEntry i j

/-- f(a, b) = sgn(a)·sgn(b)·min(|a|, |b|) (R323). -/
def polarF (a b : Int) : Int :=
  if a = 0 ∨ b = 0 then 0 else if (a < 0) = (b < 0) then min |a| |b| else -min |a| |b|

/-- g(a, b, u) = b + (1 − 2u)·a (R324). -/
def polarG (a b : Int) (u : Bool) : Int := b + (1 - 2 * (bit u : Int)) * a

/-- The recursion sc(Lv, off) of R325 on 2^n LLRs, as functions of the position in the block: the decided
bits, and the encoded partial sums. -/
def sc (frozen : Nat → Bool) : Nat → (Nat → Int) → Nat → (Nat → Bool) × (Nat → Bool)
  | 0, lv, off =>
    let u := !frozen off && decide (lv 0 < 0)
    (fun _ => u, fun _ => u)
  | n + 1, lv, off =>
    let h := 2 ^ n
    let up := sc frozen n (fun i => polarF (lv i) (lv (i + h))) off
    let lo := sc frozen n (fun i => polarG (lv i) (lv (i + h)) (up.2 i)) (off + h)
    (fun i => if i < h then up.1 i else lo.1 (i - h),
      fun i => if i < h then (up.2 i ^^ lo.2 i) else lo.2 (i - h))

/-- What 42_hamming.md R203 to R206 make of the received word in `t`, with e = 0 for Hamming(7,4) and 1 for
Hamming(8,4): `r` is HAM_RX with the bits outside the word cleared. -/
def hamDecoded (e : Nat) (r : Byte) (t : State L P) : Prop :=
  let w := fun k => r.getLsbD (k + e)
  let d := t.hamDstat
  d.syn.getLsbD 0 = (w 0 ^^ w 2 ^^ w 4 ^^ w 6) ∧
    d.syn.getLsbD 1 = (w 1 ^^ w 2 ^^ w 5 ^^ w 6) ∧
    d.syn.getLsbD 2 = (w 3 ^^ w 4 ^^ w 5 ^^ w 6) ∧
    t.hamCorr = (if d.syn = 0#3 then r else r ^^^ (1#8 <<< (d.syn.toNat - 1 + e))) ∧
    d.errv = decide (d.syn ≠ 0#3) ∧
    d.errpos.toNat = (if d.syn = 0#3 then 0 else d.syn.toNat - 1 + e) ∧
    d.oor = false ∧
    d.msg.getLsbD 0 = t.hamCorr.getLsbD (2 + e) ∧ d.msg.getLsbD 1 = t.hamCorr.getLsbD (4 + e) ∧
    d.msg.getLsbD 2 = t.hamCorr.getLsbD (5 + e) ∧ d.msg.getLsbD 3 = t.hamCorr.getLsbD (6 + e)

/-- The state a command leaves. -/
def after (m : CoreMachine L P) (i : Instr) (s : State L P) : State L P :=
  match m.exec i s with
  | .next t => t
  | _ => s

/-- The states after HAM.ENC or HAM.ENC.X of data d, and after HAM.DEC or HAM.DEC.X of its codeword with the
bits of `err` flipped. -/
def hamTrip (m : CoreMachine L P) (enc dec : Instr) (d : BitVec 4) (err : Byte) (s : State L P) :
    State L P × State L P :=
  let c := after m enc { s with hamDin := d }
  (c, after m dec { c with hamRx := c.hamCw ^^^ err })

end Sys2Proof.Spec

open Sys2Proof Sys2Proof.Machine

/-! ### Encoding (30_encoding.md) -/

/-- The words of R116 decode to the commands they stand for. -/
def Obligations.TabledWordsDecode : Prop :=
  decode 0x00000000 = .ok .nop ∧ decode 0x00000001 = .ok .hamEnc ∧ decode 0x00000101 = .ok .hamEncX ∧
    decode 0x00000002 = .ok .hamDec ∧ decode 0x00000102 = .ok .hamDecX ∧
    decode 0x00000003 = .ok .gfMul ∧ decode 0x00000004 = .ok .gfInv ∧ decode 0x00000005 = .ok .rsEnc ∧
    decode 0x00000006 = .ok .rsSynd ∧ decode 0x00000007 = .ok .rsBm ∧
    decode 0x00000008 = .ok .rsChien ∧ decode 0x00000009 = .ok .ldpcBp ∧
    decode 0x00000109 = .ok .ldpcBpC ∧ decode 0x0000000A = .ok .polarSc

/-- Decoding inverts encoding on all 2^32 words: a word decodes to a command exactly when it is that
command's word (R113, R116). -/
def Obligations.DecodeInvertsEncodeOnEveryWord : Prop :=
  ∀ (w : Word) (i : Instr), decode w = .ok i ↔ w = encode i

/-- R114: exactly the listed words are illegal, and the completion of each writes ILLEGAL_CMD to STATUS
and nothing else (R362). -/
def Obligations.IllegalWordsCompleteWithIllegalCmd : Prop :=
  (∀ w : Word, Spec.illegalWord w ↔ ∀ i, decode w ≠ .ok i) ∧
    ∀ (L : Type) [DecidableEq L] [Inhabited L] (P : LlrParam L) (s : State L P), Spec.illegalWord s.cmd →
      completion s = .next { s with status := Spec.completed .illegalCmd s }

/-! ### Steps, launch, completion (40_control.md) -/

/-- A step runs the decoded command: with a command pending whose word decodes to i, the Engine's turn is
exec of i (R142). The turn comes when the order of events says so, or when it is empty (log entry 6). A
word placed by `withFetchWord` is the one the next step runs, from any state, as a launch of it would have
left it (R141; log entry 13). -/
def Obligations.StepRunsTheDecodedCommand : Prop :=
  (onEveryCore fun L _ _ P m =>
    ∀ (s : State L P) (i : Instr), s.status.busy = true → decode s.cmd = .ok i →
      (s.events = [] → m.step s = m.exec i s) ∧
        ∀ es, s.events = .engine :: es → m.step s = m.exec i { s with events := es }) ∧
    ∀ (s : State) (w : Nat) (i : Instr), w < 2 ^ 32 → decode (BitVec.ofNat 32 w) = .ok i →
      decodeTableWord 32 w = some i ∧
        step (s.withFetchWord 32 w) = exec i (launch (BitVec.ofNat 32 w) s)

/-- Every step: a Host transaction, the reset input, the completion of the pending command, and the idle
Engine (R85, R142, R380, R400; the order of events is the model's own, log entry 6). -/
def Obligations.StepTakesTheNextEvent : Prop :=
  onEveryCore fun L _ _ P m =>
    ∀ (s : State L P) (es : List (Event L)),
      (∀ a, s.events = .host (.read a) :: es → m.step s = .next (regRead a { s with events := es })) ∧
        (∀ a v, s.events = .host (.write a v) :: es →
          m.step s = .next (regWrite a v { s with events := es })) ∧
        (∀ d, s.events = .rst d :: es → m.step s = .next (hardReset d { s with events := es })) ∧
        (s.events = .engine :: es → m.step s =
          if s.status.busy then completion { s with events := es } else .next { s with events := es }) ∧
        (s.events = [] → m.step s = if s.status.busy then completion s else .next s)

/-- Every command completes, in every state, with STATUS as R142 says, and no step faults or is refused
(60_exceptions.md R360). -/
def Obligations.EveryCommandCompletes : Prop :=
  onEveryCore fun L _ _ P m =>
    (∀ (i : Instr) (s : State L P), ∃ t c, m.exec i s = .next t ∧ t.status = Spec.completed c s) ∧
      ∀ s : State L P, ∃ t, m.step s = .next t

/-- A launched command completes whatever the Host does next, unless the reset input discards it
(R147, R148). -/
def Obligations.LaunchedCommandCompletes : Prop :=
  onEveryCore fun L _ _ P m =>
    ∀ s : State L P, s.status.busy = true → (∀ d, Event.rst d ∉ s.events) →
      ∃ (k : Nat) (t : State L P), 1 ≤ k ∧ k ≤ s.events.length + 1 ∧
        Host.Core.run m.core k s = .next t ∧
        t.status.busy = false ∧ t.status.done = true ∧ t.cmd = s.cmd

/-- A command's operands are those at its launch: whatever transactions the Host performs while it is
pending, its completion leaves what it would have left at once, but for IRQ_EN, HAZ and the reads the
Host got (20_memory.md R97). That the completion comes after the last transaction is the model's own order
(log entry 6), and so are the fields `rdata` (log entry 8) and `draws` (log entry 7). -/
def Obligations.HostCannotDisturbAPendingCommand : Prop :=
  onEveryCore fun L _ _ P m =>
    ∀ (s : State L P) (txns : List (HostTxn L)), s.status.busy = true → s.events = txns.map .host →
      ∃ t u : State L P, Host.Core.run m.core (txns.length + 1) s = .next t ∧
        m.step { s with events := [] } = .next u ∧
        t = { u with
          irqEn := t.irqEn, status := { u.status with haz := t.status.haz }
          rdata := t.rdata, draws := t.draws }

/-- The launch of R141, and the dropped CMD write of 70_reset_and_hazards.md R408. The word launched by a
transaction that carries an `Llr` value is the model's choice (log entry 4). -/
def Obligations.CmdWriteLaunchesOrIsAHazard : Prop :=
  ∀ (L : Type) [DecidableEq L] [Inhabited L] (P : LlrParam L) (s : State L P) (a : Addr) (v : PortValue L),
    locate s.params a = .cmd →
    (s.status.busy = false →
      regWrite a v s = { s with
        cmd := v.toWord P
        status := { busy := true, done := false, haz := s.status.haz, err := .ok } }) ∧
      (s.status.busy = true → regWrite a v s = { s with status := { s.status with haz := true } })

/-- A completion leaves every location outside the write set of R144 as it was, and the Host's side of the
state too; an ILLEGAL word has no write set. -/
def Obligations.CompletionWritesOnlyTheWriteSet : Prop :=
  onEveryCore fun L _ _ P m =>
    ∀ s t : State L P,
      (∀ i, m.exec i s = .next t → ∀ l, l ≠ .status → ¬ Spec.writes i l →
        readLocation t l = readLocation s l) ∧
        (completion s = .next t →
          ∀ l, l ≠ .status → ¬ Spec.wordWrites s.cmd l → readLocation t l = readLocation s l) ∧
        (((∃ i, m.exec i s = .next t) ∨ completion s = .next t) →
          t.params = s.params ∧ t.irqEn = s.irqEn ∧ t.cmd = s.cmd ∧ t.status.haz = s.status.haz ∧
            t.events = s.events ∧ t.rdata = s.rdata ∧ t.draws = s.draws)

/-- NOP writes STATUS only (R145). -/
def Obligations.NopOnlyCompletes : Prop :=
  onEveryCore fun L _ _ P m =>
    ∀ s : State L P, m.exec .nop s = .next { s with status := Spec.completed .ok s }

/-- Running a command again on its own results changes nothing more, for every command but LDPC.BP.C,
whose inputs its own outputs are (60_exceptions.md R368). -/
def Obligations.RepeatedCommandGivesTheSameState : Prop :=
  onEveryCore fun L _ _ P m =>
    ∀ (i : Instr) (s t : State L P), s.inv = true → i ≠ .ldpcBpC → m.exec i s = .next t →
      m.exec i t = .next t

/-! ### Registers and the host port (10_state.md, 20_memory.md) -/

/-- The scalar register map of R82. -/
def Obligations.ScalarRegisterMap : Prop :=
  ∀ p : Params,
    (∀ e ∈ Spec.scalars, locate p e.1 = e.2) ∧
      ∀ a : Addr, a.toNat < 0x01000 → a.toNat % 4 = 0 → a ∉ Spec.scalars.map Prod.fst →
        locate p a = .reserved

/-- The array windows of R83, each element at its address (R93), invalid ones and the rest of the address
space reserved. -/
def Obligations.ArrayWindowMap : Prop :=
  ∀ p : Params, p.legal = true →
    (∀ i, i < 256 → Spec.windowAt p (0x01000 + 4 * i) (i ≤ 254) (.rsBuf i)) ∧
      (∀ i, i < 256 → Spec.windowAt p (0x01400 + 4 * i) (i < p.nsymMax) (.rsSyn i)) ∧
      (∀ j, j < 256 → Spec.windowAt p (0x01800 + 4 * j) (j ≤ p.nsymMax) (.rsLambda j)) ∧
      (∀ k, k < 256 → Spec.windowAt p (0x01C00 + 4 * k) (k ≤ 254) (.rsPos k)) ∧
      (∀ k, k < 8 → Spec.windowAt p (0x02000 + 4 * k) (32 * k < p.ldpcNMax) (.ldpcRx k)) ∧
      (∀ k, k < 8 → Spec.windowAt p (0x02100 + 4 * k) (32 * k < p.ldpcNMax) (.ldpcHd k)) ∧
      (∀ k, k < 8 → Spec.windowAt p (0x02200 + 4 * k) (32 * k < p.ldpcMMax) (.ldpcSyn k)) ∧
      (∀ j, j < 256 → Spec.windowAt p (0x02400 + 4 * j) (j < p.ldpcNMax) (.ldpcBelief j)) ∧
      (∀ k, k < 32 → Spec.windowAt p (0x04000 + 4 * k) (32 * k < 2 ^ p.polarLognMax) (.polarFrozen k)) ∧
      (∀ k, k < 32 → Spec.windowAt p (0x04100 + 4 * k) (32 * k < 2 ^ p.polarLognMax) (.polarRx k)) ∧
      (∀ k, k < 32 → Spec.windowAt p (0x04200 + 4 * k) (32 * k < 2 ^ p.polarLognMax) (.polarUhat k)) ∧
      (∀ k, k < 32 → Spec.windowAt p (0x04300 + 4 * k) (32 * k < 2 ^ p.polarLognMax) (.polarXhat k)) ∧
      (∀ k, k < 32 → Spec.windowAt p (0x04400 + 4 * k) (32 * k < 2 ^ p.polarLognMax) (.polarMsg k)) ∧
      (∀ i k, i < 256 → k < 8 →
        Spec.windowAt p (0x10000 + 32 * i + 4 * k) (i < p.ldpcMMax ∧ 32 * k < p.ldpcNMax) (.ldpcH i k)) ∧
      (∀ i j, i < 256 → j < 256 →
        Spec.windowAt p (0x20000 + 4 * (256 * i + j)) (i < p.ldpcMMax ∧ j < p.ldpcNMax) (.ldpcC2v i j)) ∧
      (∀ i j, i < 256 → j < 256 →
        Spec.windowAt p (0x60000 + 4 * (256 * i + j)) (i < p.ldpcMMax ∧ j < p.ldpcNMax) (.ldpcV2c i j)) ∧
      ∀ g ∈ Spec.gaps, ∀ a : Addr, g.1 ≤ a.toNat → a.toNat < g.2 → locate p a = .reserved

/-- A reserved address reads 0 and ignores writes (R84). -/
def Obligations.ReservedAddressesReadZeroAndIgnoreWrites : Prop :=
  ∀ (L : Type) [DecidableEq L] [Inhabited L] (P : LlrParam L) (s : State L P) (a : Addr) (v : PortValue L),
    locate s.params a = .reserved →
    regRead a s = { s with rdata := some (.word 0) } ∧ regWrite a v s = s

/-- Address bits [1:0] are ignored by reads and writes (R88). -/
def Obligations.LowAddressBitsAreIgnored : Prop :=
  ∀ (L : Type) [DecidableEq L] [Inhabited L] (P : LlrParam L) (s : State L P) (a : Addr) (v : PortValue L),
    regRead a s = regRead (a &&& 0xFFFFC#20) s ∧ regWrite a v s = regWrite (a &&& 0xFFFFC#20) v s

/-- What every location reads as, in every state: its fields at their bits, a bit array's index j at bit
j mod 32 of word ⌊j/32⌋ (00_scope.md R10, 20_memory.md R86, R90; the register rules R36 to R76), and 0 in
every bit outside the listed fields (R84). -/
def Obligations.EveryLocationReadsItsFields : Prop :=
  ∀ (L : Type) [DecidableEq L] [Inhabited L] (P : LlrParam L) (s : State L P) (l : Location),
    Spec.reads s l (readLocation s l) ∧
    ∀ w, readLocation s l = .word w → w &&& ~~~Spec.fieldMask s.params l = 0#32

/-- The three cases of RegRead, and that a read changes no state of the core (R86, R92): the free value of
log entry 7 for a location in the write set R144 gives the pending command, whatever the value is. -/
def Obligations.ReadsAnswerAndChangeNothing : Prop :=
  ∀ (L : Type) [DecidableEq L] [Inhabited L] (P : LlrParam L) (s : State L P) (a : Addr),
    ((s.status.busy = false ∨ ¬ Spec.wordWrites s.cmd (locate s.params a)) →
      regRead a s = { s with rdata := some (readLocation s (locate s.params a)) }) ∧
      (s.status.busy = true → Spec.wordWrites s.cmd (locate s.params a) →
        regRead a s = { s with
          rdata := some (if (locate s.params a).isLlr then .llr (Config.freeLlr L s.draws)
            else .word (Config.freeWord s.draws))
          draws := s.draws + 1 })

/-- A write to an operand location stores its field bits where the commands read them, and changes no other
location (R8, R10, R87; an `Llr` cell takes its value unchanged, R89). What a 32-bit word written to an `Llr`
cell, or an `Llr` value written to a word register, stores is the model's choice (log entry 4). -/
def Obligations.OperandWritesStoreTheirFieldBits : Prop :=
  ∀ (L : Type) [DecidableEq L] [Inhabited L] (P : LlrParam L) (s : State L P) (v : PortValue L)
    (l : Location), s.inv = true → Spec.rw l →
    l.present s.params = true →
      readLocation (writeOperand s v l) l =
          (if l.isLlr then .llr (v.toLlr P) else .word (v.toWord P &&& Spec.fieldMask s.params l)) ∧
        Spec.reads (writeOperand s v l) l
          (if l.isLlr then .llr (v.toLlr P) else .word (v.toWord P &&& Spec.fieldMask s.params l)) ∧
        ∀ l', l' ≠ l → readLocation (writeOperand s v l) l' = readLocation s l'

/-- An operand write is stored while the core is idle (R87) and dropped, setting HAZ, while a command is
pending, like a CMD write (70_reset_and_hazards.md R406); a read-only or reserved location ignores a write
in every state, without HAZ. What a value of the other kind stores is log entry 4. -/
def Obligations.OperandWritesAreStoredOrDroppedWithHaz : Prop :=
  ∀ (L : Type) [DecidableEq L] [Inhabited L] (P : LlrParam L) (s : State L P) (a : Addr) (v : PortValue L),
    (s.status.busy = true → (Spec.rw (locate s.params a) ∨ locate s.params a = .cmd) →
      regWrite a v s = { s with status := { s.status with haz := true } }) ∧
      (s.status.busy = false → Spec.rw (locate s.params a) →
        regWrite a v s = writeOperand s v (locate s.params a)) ∧
      (¬ Spec.rw (locate s.params a) → locate s.params a ∉ [.ctrl, .status, .cmd] →
        regWrite a v s = s)

/-- STATUS and CTRL. STATUS: the word it reads as, and the W1C write, in every state (R37). CTRL: the word
it reads as, SRST always 0, and the write with bit 1 = 0, which stores bit 0 in IRQ_EN and changes nothing
else, idle or busy (R36, R87; with bit 1 = 1: `SoftResetWhileBusyIsAHazard` and
`HardResetDrawsArraysSoftResetKeepsThem`). The word an `Llr` value stands for is log entry 4. -/
def Obligations.StatusAndCtrlReadTheirFieldsAndTakeTheirWrites : Prop :=
  ∀ (L : Type) [DecidableEq L] [Inhabited L] (P : LlrParam L) (s : State L P) (a : Addr) (v : PortValue L),
    (locate s.params a = .status →
      (∃ w, readLocation s .status = .word w ∧ w.getLsbD 0 = s.status.busy ∧
        w.getLsbD 1 = s.status.done ∧ w.getLsbD 2 = s.status.haz ∧ w.getLsbD 3 = false ∧
        w.extractLsb' 4 4 = s.status.err.code ∧ w.extractLsb' 8 24 = 0#24) ∧
        regWrite a v s = { s with
          status := { s.status with
            done := s.status.done && !(v.toWord P).getLsbD 1
            haz := s.status.haz && !(v.toWord P).getLsbD 2 } }) ∧
      (locate s.params a = .ctrl →
        (∃ w, readLocation s .ctrl = .word w ∧ w.getLsbD 0 = s.irqEn ∧ w.extractLsb' 1 31 = 0#31) ∧
          ((v.toWord P).getLsbD 1 = false → regWrite a v s = { s with irqEn := (v.toWord P).getLsbD 0 }))

/-- ID reads its constant and PARAM0 and PARAM1 the parameters, in the fields of R34 and R35; no step
changes what they read (R33 to R35). -/
def Obligations.IdentificationIsConstant : Prop :=
  onEveryCore fun L _ _ P m =>
    (∀ s : State L P, s.params.legal = true → readLocation s .id = .word 0x46454331 ∧
      (∃ w, readLocation s .param0 = .word w ∧ (w.extractLsb' 0 8).toNat = s.params.nsymMax ∧
        (w.extractLsb' 16 4).toNat = s.params.polarLognMax) ∧
      ∃ w, readLocation s .param1 = .word w ∧ (w.extractLsb' 0 9).toNat = s.params.ldpcMMax ∧
        (w.extractLsb' 16 9).toNat = s.params.ldpcNMax) ∧
      ∀ s t : State L P, m.step s = .next t → ∀ l ∈ [Location.id, .param0, .param1],
        readLocation t l = readLocation s l

/-! ### GF(2^8) (41_gf28.md) -/

/-- The tables are the ones R171 and R172 build. -/
def Obligations.TablesAreTheConstructedOnes : Prop :=
  (∀ i, i < 255 → gfExp i = Spec.xtimes^[i] 1#8) ∧ (∀ i, 255 ≤ i → i < 512 → gfExp i = gfExp (i - 255)) ∧
    (∀ i, i < 255 → gfLog (gfExp i) = i) ∧ (∀ a : Byte, a ≠ 0#8 → gfLog a < 255) ∧
    ∀ i j, i < 255 → j < 255 → gfExp i ≠ 0#8 ∧ (gfExp i = gfExp j → i = j)

/-- gfmul is polynomial multiplication modulo 0x11D, a commutative, associative operation with identity 1
and absorbing element 0 that distributes over ⊕ (R177). -/
def Obligations.GfmulIsPolynomialMultiplication : Prop :=
  (∀ a b : Byte, gfmul a b = Spec.product a b) ∧ (∀ a b : Byte, gfmul a b = gfmul b a) ∧
    (∀ a b c : Byte, gfmul (gfmul a b) c = gfmul a (gfmul b c)) ∧
    (∀ a b c : Byte, gfmul a (b ^^^ c) = gfmul a b ^^^ gfmul a c) ∧
    ∀ a : Byte, gfmul a 1#8 = a ∧ gfmul a 0#8 = 0#8

/-- gfinv inverts (R178), and the host-side division undoes multiplication and fails on 0 (R180). -/
def Obligations.GfinvAndGfdivUndoMultiplication : Prop :=
  (∀ a : Byte, a ≠ 0#8 → gfmul a (gfinv a) = 1#8 ∧ gfinv (gfinv a) = a) ∧
    ∀ a b : Byte, gfdiv a 0#8 = none ∧ (b ≠ 0#8 → gfdiv (gfmul a b) b = some a ∧ gfdiv 0#8 b = some 0#8 ∧
      (a ≠ 0#8 → gfdiv a b = some (gfExp ((gfLog a + 255 - gfLog b) % 255))))

/-- GF.MUL writes the product to GF_R and nothing else (R175). -/
def Obligations.GfMulWritesTheProduct : Prop :=
  onEveryCore fun L _ _ P m =>
    ∀ s : State L P,
      m.exec .gfMul s =
        .next { s with gfR := Spec.product s.gfA s.gfB, status := Spec.completed .ok s }

/-- GF.INV raises ZERO_OPERAND on 0 with GF_R unchanged, and otherwise writes the inverse to GF_R and
nothing else (R176). -/
def Obligations.GfInvWritesTheInverseOrRaises : Prop :=
  onEveryCore fun L _ _ P m =>
    ∀ s : State L P,
      (s.gfA = 0#8 → m.exec .gfInv s = .next { s with status := Spec.completed .zeroOperand s }) ∧
        (s.gfA ≠ 0#8 → ∃ r, Spec.product s.gfA r = 1#8 ∧
          m.exec .gfInv s = .next { s with gfR := r, status := Spec.completed .ok s })

/-! ### Hamming (42_hamming.md) -/

/-- HAM.ENC and HAM.ENC.X write the codeword of R201 in the layout of R200, and nothing else (R202). -/
def Obligations.HamEncWritesTheCodeword : Prop :=
  onEveryCore fun L _ _ P m =>
    ∀ s : State L P,
      let d := fun k => s.hamDin.getLsbD k
      let p1 := d 0 ^^ d 1 ^^ d 3
      let p2 := d 0 ^^ d 2 ^^ d 3
      let p4 := d 1 ^^ d 2 ^^ d 3
      let p0 := p1 ^^ p2 ^^ d 0 ^^ p4 ^^ d 1 ^^ d 2 ^^ d 3
      let word := fun (l : List Bool) (c : Byte) => ∀ k, k < 8 → c.getLsbD k = l.getD k false
      (∃ c, m.exec .hamEnc s = .next { s with hamCw := c, status := Spec.completed .ok s } ∧
        word [p1, p2, d 0, p4, d 1, d 2, d 3] c) ∧
        ∃ c, m.exec .hamEncX s = .next { s with hamCw := c, status := Spec.completed .ok s } ∧
          word [p0, p1, p2, d 0, p4, d 1, d 2, d 3] c

/-- HAM.DEC and HAM.DEC.X write HAM_CORR and HAM_DSTAT as R203 to R206 say, and nothing else (R204). -/
def Obligations.HamDecCorrectsAtTheSyndrome : Prop :=
  onEveryCore fun L _ _ P m =>
    ∀ s : State L P,
      (∃ t, m.exec .hamDec s = .next t ∧
        t = { s with hamCorr := t.hamCorr, hamDstat := t.hamDstat, status := Spec.completed .ok s } ∧
        Spec.hamDecoded 0 (s.hamRx &&& 0x7F#8) t) ∧
        ∃ t, m.exec .hamDecX s = .next t ∧
          t = { s with hamCorr := t.hamCorr, hamDstat := t.hamDstat, status := Spec.completed .ok s } ∧
          Spec.hamDecoded 1 s.hamRx t

/-- R207, items 1 to 5: the round trip; every single error of the 7-bit word and of positions 1 to 7 of the
8-bit word is corrected; a p0 flip keeps the message and not the word; every double error shows. -/
def Obligations.HammingCorrectionCapability : Prop :=
  onEveryCore fun L _ _ P m =>
    ∀ (s : State L P) (d : BitVec 4),
      let r := fun err => Spec.hamTrip m .hamEnc .hamDec d err s
      let x := fun err => Spec.hamTrip m .hamEncX .hamDecX d err s
      let corrected := fun (cu : State L P × State L P) (syn pos : Nat) =>
        cu.2.hamDstat.syn.toNat = syn ∧ cu.2.hamDstat.errv = true ∧ cu.2.hamDstat.errpos.toNat = pos ∧
          cu.2.hamCorr = cu.1.hamCw ∧ cu.2.hamDstat.msg = d
      let clean := fun (cu : State L P × State L P) (w : Byte) =>
        cu.2.hamDstat.syn = 0#3 ∧ cu.2.hamDstat.errv = false ∧ cu.2.hamCorr = w ∧ cu.2.hamDstat.msg = d
      clean (r 0#8) (r 0#8).1.hamCw ∧ clean (x 0#8) (x 0#8).1.hamCw ∧
        (∀ k, k < 7 → corrected (r (1#8 <<< k)) (k + 1) k) ∧
        (∀ k, 1 ≤ k → k < 8 → corrected (x (1#8 <<< k)) k k) ∧
        clean (x 1#8) ((x 1#8).1.hamCw ^^^ 1#8) ∧
        (∀ k l, k < l → l < 7 → (r ((1#8 <<< k) ^^^ (1#8 <<< l))).2.hamDstat.syn ≠ 0#3) ∧
        ∀ k l, k < l → l < 8 → (x ((1#8 <<< k) ^^^ (1#8 <<< l))).2.hamDstat.syn ≠ 0#3

/-! ### Reed–Solomon (43_reed_solomon.md) -/

/-- The input checks of R231: each failure completes with INPUT and no other write, nothing else does. -/
def Obligations.RsInputChecks : Prop :=
  onEveryCore fun L _ _ P m =>
    ∀ s : State L P,
      let refuses := fun (i : Instr) (legal : Prop) =>
        (¬ legal → m.exec i s = .next { s with status := Spec.completed .input s }) ∧
          (legal → ∀ t, m.exec i s = .next t → t.status.err ≠ .input)
      refuses .rsEnc (Spec.wordLegal s) ∧ refuses .rsSynd (Spec.wordLegal s) ∧
        refuses .rsBm (s.rsNsym.toNat ≤ s.params.nsymMax) ∧ refuses .rsChien (Spec.chienLegal s)

/-- RS.ENC writes RS_BUF[K..N) only, and the word it makes is a multiple of the generator: it vanishes at
α^i for every i < nsym (R233, R234). -/
def Obligations.RsEncMakesACodeword : Prop :=
  onEveryCore fun L _ _ P m =>
    ∀ s : State L P, s.inv = true → Spec.wordLegal s →
      let k := s.rsK.toNat
      let n := s.rsK.toNat + s.rsNsym.toNat
      ∃ t, m.exec .rsEnc s = .next t ∧
        t = { s with mem := { s.mem with rsBuf := t.mem.rsBuf }, status := Spec.completed .ok s } ∧
        (∀ p, p < k ∨ n ≤ p → Spec.buf t p = Spec.buf s p) ∧
        ∀ i, i < s.rsNsym.toNat → Spec.wordAt (Spec.buf t) n i = 0#8

/-- RS.SYND writes S_i = r(α^i) to RS_SYN[0..nsym) and SYNZ, nothing else (R240). -/
def Obligations.RsSyndEvaluatesTheWord : Prop :=
  onEveryCore fun L _ _ P m =>
    ∀ s : State L P, s.inv = true → Spec.wordLegal s →
      let n := s.rsK.toNat + s.rsNsym.toNat
      let syn := Spec.wordAt (Spec.buf s) n
      ∃ t, m.exec .rsSynd s = .next t ∧
        t = { s with
          mem := { s.mem with rsSyn := t.mem.rsSyn }, rsSynz := t.rsSynz, status := Spec.completed .ok s } ∧
        (∀ i, i < s.rsNsym.toNat → cellGet t.mem.rsSyn i = syn i) ∧
        (∀ i, s.rsNsym.toNat ≤ i → cellGet t.mem.rsSyn i = cellGet s.mem.rsSyn i) ∧
        (t.rsSynz = true ↔ ∀ i, i < s.rsNsym.toNat → syn i = 0#8)

/-- The loop invariant of R246 and the law of Λ's length (R245): at the start of iteration i, Λ has at most
i + 1 coefficients and Λ[0] = 1; with discrepancy 0 the iteration leaves Λ alone, and otherwise Λ has after
it the larger of its old length and i + 3 less that length. -/
def Obligations.BerlekampMasseyLoopInvariant : Prop :=
  ∀ (syn : List Byte) (i : Nat),
    let lam := (bmLoop syn i).lam
    let next := (bmLoop syn (i + 1)).lam
    let d := Spec.xorSum lam.length fun j => gfmul (lam.getD j 0#8) (syn.getD (i - j) 0#8)
    lam.length ≤ i + 1 ∧ lam.getD 0 0#8 = 1#8 ∧ (d = 0#8 → next = lam) ∧
      (d ≠ 0#8 → next.length = max lam.length (i + 3 - lam.length))

/-- The locator Berlekamp–Massey builds generates the syndromes: every later syndrome satisfies its linear
recurrence (what the discrepancy of R245 measures). -/
def Obligations.BerlekampMasseyGeneratesTheSyndromes : Prop :=
  ∀ (syn : List Byte) (n k : Nat),
    let lam := (bmLoop syn n).lam
    lam.length ≤ k + 1 → k < n →
      (Spec.xorSum lam.length fun j => gfmul (lam.getD j 0#8) (syn.getD (k - j) 0#8)) = 0#8

/-- RS.BM: with errs the degree of Λ, TOO_MANY_ERRORS and nothing written when 2·errs > nsym, else
RS_LAMBDA[0..nsym] (0 above errs) and RS_ERRS, nothing else (R245, R366). -/
def Obligations.RsBmWritesTheLocatorOrRaises : Prop :=
  onEveryCore fun L _ _ P m =>
    ∀ s : State L P, s.inv = true → s.rsNsym.toNat ≤ s.params.nsymMax →
      let nsym := s.rsNsym.toNat
      let lam := (bmLoop (cellList s.mem.rsSyn 0 nsym) nsym).lam
      ∃ errs : Nat, lam.getD errs 0#8 ≠ 0#8 ∧ (∀ k, errs < k → lam.getD k 0#8 = 0#8) ∧
        (2 * errs > nsym → m.exec .rsBm s = .next { s with status := Spec.completed .tooManyErrors s }) ∧
        (2 * errs ≤ nsym → ∃ t, m.exec .rsBm s = .next t ∧
          t = { s with
            mem := { s.mem with rsLambda := t.mem.rsLambda }, rsErrs := BitVec.ofNat 8 errs
            status := Spec.completed .ok s } ∧
          (∀ j, j ≤ nsym → cellGet t.mem.rsLambda j = if j ≤ errs then lam.getD j 0#8 else 0#8) ∧
          ∀ j, nsym < j → cellGet t.mem.rsLambda j = cellGet s.mem.rsLambda j)

/-- RS.CHIEN: the roots of Λ among the positions, ascending, to RS_POS and their count to RS_NPOS, nothing
else; LOCATOR_MISMATCH and nothing written when the count is not RS_ERRS (R250, R251, R367). -/
def Obligations.RsChienFindsTheRootsOrRaises : Prop :=
  onEveryCore fun L _ _ P m =>
    ∀ s : State L P, s.inv = true → Spec.chienLegal s →
      let n := s.rsK.toNat + s.rsNsym.toNat
      let lam := fun j => cellGet s.mem.rsLambda j
      let pos := (List.range n).filter fun p => Spec.locatorAt lam s.rsErrs.toNat n p == 0#8
      (pos.length ≠ s.rsErrs.toNat →
        m.exec .rsChien s = .next { s with status := Spec.completed .locatorMismatch s }) ∧
        (pos.length = s.rsErrs.toNat → ∃ t, m.exec .rsChien s = .next t ∧
          t = { s with
            mem := { s.mem with rsPos := t.mem.rsPos }, rsNpos := s.rsErrs
            status := Spec.completed .ok s } ∧
          (∀ k, k < pos.length → (cellGet t.mem.rsPos k).toNat = pos.getD k 0) ∧
          ∀ k, pos.length ≤ k → cellGet t.mem.rsPos k = cellGet s.mem.rsPos k)

/-- The decode sequence on an idle core, whatever the place of the completions: a codeword gives
valid-no-errors with its message, and a codeword altered at one position p by e, with nsym ≥ 2, gives
position p, magnitude e and the message (R266; R268 for no and one error). -/
def Obligations.RsDecodeCorrectsUpToOneError : Prop :=
  ∀ (L : Type) [DecidableEq L] [Inhabited L] (P : LlrParam L) (s : State L P) (p : Nat) (e : Byte)
    (polls₁ polls₂ polls₃ : Nat), s.inv = true →
    s.status.busy = false → Spec.wordLegal s →
    let k := s.rsK.toNat
    let nsym := s.rsNsym.toNat
    let code := fun q => if q = p then Spec.buf s q ^^^ e else Spec.buf s q
    ((∀ i, i < nsym → Spec.wordAt (Spec.buf s) (k + nsym) i = 0#8) →
      (rsDecode polls₁ polls₂ polls₃ s).2 = .validNoErrors ((List.range k).map (Spec.buf s))) ∧
      (2 ≤ nsym → p < k + nsym → e ≠ 0#8 →
        (∀ i, i < nsym → Spec.wordAt code (k + nsym) i = 0#8) →
          (rsDecode polls₁ polls₂ polls₃ s).2 = .corrected [p] [some e] ((List.range k).map code))

/-! ### LDPC (44_ldpc.md) -/

/-- The input checks of R282, for both commands: each failure completes with INPUT and no other write,
nothing else does. That the 1 of the check d < 1 is a constant beside the operations of R12 is log entry 3. -/
def Obligations.LdpcInputChecks : Prop :=
  onEveryCore fun L _ _ P m =>
    ∀ (s : State L P) (i : Instr), i = .ldpcBp ∨ i = .ldpcBpC →
      (¬ Spec.ldpcLegal s → m.exec i s = .next { s with status := Spec.completed .input s }) ∧
        (Spec.ldpcLegal s → ∃ t, m.exec i s = .next t ∧ t.status = Spec.completed .ok s)

/-- What LDPC.BP and LDPC.BP.C leave, for every `Llr` and `LLR_ARITH`: the relations of R285 to R288 between
the outputs of the last iteration, zeros at non-edges and beyond M and N, and the frame of R290. That a belief
sum starts from the channel LLR is log entry 10, the width an output bit array is written to log entry 11. -/
def Obligations.LdpcOutputsSatisfyTheIterationRules : Prop :=
  onEveryCore fun L _ _ P m =>
    ∀ (s : State L P) (i : Instr), i = .ldpcBp ∨ i = .ldpcBpC → s.inv = true → Spec.ldpcLegal s →
      let rows := s.ldpcM.toNat
      let n := s.ldpcN.toNat
      let A := P.arith
      ∃ t, m.exec i s = .next t ∧ Spec.ldpcFrame s t ∧
        (∀ j, j < n → Spec.belief t j = ((List.range rows).filter fun r => Spec.edge s r j).foldl
          (fun acc r => A.add acc (Spec.c2v t r j)) (Spec.channel s j)) ∧
        (∀ r j, r < rows → j < n → Spec.v2c t r j =
          if Spec.edge s r j then A.sub (Spec.belief t j) (Spec.c2v t r j) else A.zero) ∧
        (∀ r j, r < rows → j < n → Spec.edge s r j = false → Spec.c2v t r j = A.zero) ∧
        (∀ j, t.mem.ldpcHd.getLsbD j = (decide (j < n) && A.lt (Spec.belief t j) A.zero)) ∧
        (∀ r, t.mem.ldpcSyn.getLsbD r =
          (decide (r < rows) && Spec.parity n fun j => Spec.edge s r j && t.mem.ldpcHd.getLsbD j)) ∧
        t.ldpcConv = decide (t.mem.ldpcSyn = 0#256) ∧
        (∀ j, n ≤ j → Spec.belief t j = Spec.belief s j) ∧
        ∀ r j, j < 256 → (rows ≤ r ∨ n ≤ j) →
          Spec.c2v t r j = Spec.c2v s r j ∧ Spec.v2c t r j = Spec.v2c s r j

/-- The count: at least one and at most MAXIT iterations, all MAXIT of them when the word does not converge,
which is no error (R288, R289, R291). -/
def Obligations.LdpcCountsItsIterations : Prop :=
  onEveryCore fun L _ _ P m =>
    ∀ (s : State L P) (i : Instr), i = .ldpcBp ∨ i = .ldpcBpC → Spec.ldpcLegal s →
      ∃ (t : State L P) (k : Nat), m.exec i s = .next t ∧ t.status.err = .ok ∧
        1 ≤ k ∧ k ≤ s.ldpcMaxit.toNat ∧ (t.ldpcConv = false → k = s.ldpcMaxit.toNat) ∧
        t.ldpcIters = (if i = .ldpcBp then 0#32 else s.ldpcIters) + BitVec.ofNat 32 k

/-- The check-to-variable message of R284, seen through one iteration of LDPC.BP.C from stored messages: for
every `LLR_ARITH` it is s·(mag·d) of the other messages of its check; in the reference arithmetic its magnitude
is the damped least magnitude of those messages, its sign the product of their signs. That the binary min of
00_scope.md R12 is folded from the left is the model's choice, log entry 20. -/
def Obligations.LdpcCheckMessageIsDampedMinSum : Prop :=
  (onEveryCore fun L _ _ P m =>
    ∀ s : State L P, s.inv = true → Spec.ldpcLegal s → s.ldpcMaxit = 1#16 →
      ∃ t, m.exec .ldpcBpC s = .next t ∧
        ∀ r j, r < s.ldpcM.toNat → j < s.ldpcN.toNat → Spec.edge s r j = true →
          let others := (List.range s.ldpcN.toNat).filter fun k => Spec.edge s r k && k != j
          Spec.c2v t r j = Spec.minSum P.arith s.ldpcDamp (others.map (Spec.v2c s r))) ∧
    ∀ s : State, s.inv = true → Spec.ldpcLegal s → s.ldpcMaxit = 1#16 →
      ∃ t, exec .ldpcBpC s = .next t ∧
        ∀ r j, r < s.ldpcM.toNat → j < s.ldpcN.toNat → Spec.edge s r j = true →
          let others := (List.range s.ldpcN.toNat).filter fun k => Spec.edge s r k && k != j
          (∀ k ∈ others, |Spec.c2v t r j| ≤ |Spec.v2c s r k| * s.ldpcDamp) ∧
            (∃ k ∈ others, |Spec.c2v t r j| = |Spec.v2c s r k| * s.ldpcDamp) ∧
            (Spec.c2v t r j ≠ 0 → (Spec.c2v t r j < 0 ↔
              ((others.filter fun k => decide (Spec.v2c s r k < 0)).length % 2 = 1)))

/-- LDPC.BP starts from the channel, whatever is stored (R283): from any legal state it leaves what LDPC.BP.C
leaves from that state with the count 0 and the channel LLR in LDPC_V2C on every edge, any values at the
non-edges below M and N. -/
def Obligations.LdpcStartsFromTheChannel : Prop :=
  onEveryCore fun L _ _ P m =>
    ∀ s s' : State L P, s.inv = true → s'.inv = true → Spec.ldpcLegal s →
      s' = { s with ldpcIters := 0#32, mem := { s.mem with ldpcV2c := s'.mem.ldpcV2c } } →
      (∀ r j, r < s.ldpcM.toNat → j < s.ldpcN.toNat → Spec.edge s r j = true →
        Spec.v2c s' r j = Spec.channel s j) →
      (∀ r j, j < 256 → s.ldpcM.toNat ≤ r ∨ s.ldpcN.toNat ≤ j → Spec.v2c s' r j = Spec.v2c s r j) →
      m.exec .ldpcBp s = m.exec .ldpcBpC s'

/-- The continue property of R292 and the early stop of R288, for every `LLR_ARITH` and for both commands: after
a iterations that do not converge, b more with LDPC.BP.C leave the state of one command with a + b; a command
that converges within a iterations leaves the same state with every larger cap (R289). -/
def Obligations.LdpcContinueAddsIterations : Prop :=
  onEveryCore fun L _ _ P m =>
    ∀ (s t : State L P) (i : Instr) (a : BitVec 16), i = .ldpcBp ∨ i = .ldpcBpC → s.inv = true →
      Spec.ldpcLegal ({ s with ldpcMaxit := a } : State L P) →
      m.exec i { s with ldpcMaxit := a } = .next t →
      (t.ldpcConv = false → ∀ (b : BitVec 16) (u : State L P), 1 ≤ b.toNat → a.toNat + b.toNat < 2 ^ 16 →
        m.exec .ldpcBpC { t with ldpcMaxit := b } = .next u →
          m.exec i { s with ldpcMaxit := a + b } = .next { u with ldpcMaxit := a + b }) ∧
        (t.ldpcConv = true → ∀ b : BitVec 16, a.toNat ≤ b.toNat →
          m.exec i { s with ldpcMaxit := b } = .next { t with ldpcMaxit := b })

/-- Scale invariance (R293) in the reference arithmetic (00_scope.md R13, log entry 2): scaling Lc by c > 0
scales every belief and message and leaves the decisions, the syndrome, the flag and the count alone. -/
def Obligations.LdpcDecisionsDoNotDependOnScale : Prop :=
  ∀ (s : State) (c : Rat), s.inv = true → Spec.ldpcLegal s → 0 < c →
    ∃ t u, exec .ldpcBp s = .next t ∧ exec .ldpcBp { s with ldpcLc := c * s.ldpcLc } = .next u ∧
      u.mem.ldpcHd = t.mem.ldpcHd ∧ u.mem.ldpcSyn = t.mem.ldpcSyn ∧ u.ldpcConv = t.ldpcConv ∧
      u.ldpcIters = t.ldpcIters ∧ u.status = t.status ∧
      ∀ r j, r < s.ldpcM.toNat → j < s.ldpcN.toNat →
        Spec.belief u j = c * Spec.belief t j ∧ Spec.c2v u r j = c * Spec.c2v t r j ∧
          Spec.v2c u r j = c * Spec.v2c t r j

/-- The all-zero word is a fixed point, found in one iteration (R294), in the reference arithmetic
(00_scope.md R13, log entry 2). -/
def Obligations.LdpcAllZeroWordConvergesAtOnce : Prop :=
  ∀ s : State, Spec.ldpcLegal s → 0 ≤ s.ldpcLc →
    (∀ j, j < s.ldpcN.toNat → s.mem.ldpcRx.getLsbD j = false) →
    ∃ t, exec .ldpcBp s = .next t ∧ t.status = Spec.completed .ok s ∧ t.ldpcIters = 1#32 ∧
      t.ldpcConv = true ∧ t.mem.ldpcHd = 0#256 ∧ t.mem.ldpcSyn = 0#256

/-! ### Polar (45_polar.md) -/

/-- The input check of R321. -/
def Obligations.PolarInputCheck : Prop :=
  onEveryCore fun L _ _ P m =>
    ∀ s : State L P,
      (s.params.polarLognMax < s.polarLogn.toNat →
        m.exec .polarSc s = .next { s with status := Spec.completed .input s }) ∧
        (s.polarLogn.toNat ≤ s.params.polarLognMax →
          ∃ t, m.exec .polarSc s = .next t ∧ t.status = Spec.completed .ok s)

/-- What POLAR.SC leaves (R327, R328): û is 0 at frozen positions, x̂ is the encoding of û, the message is
û read at the information positions in ascending order, K their number; bits beyond are 0 and nothing
else changes. -/
def Obligations.PolarOutputsAreConsistent : Prop :=
  onEveryCore fun L _ _ P m =>
    ∀ s : State L P, s.inv = true → s.polarLogn.toNat ≤ s.params.polarLognMax →
      let n := s.polarLogn.toNat
      let info := (List.range (2 ^ n)).filter fun j => !s.mem.polarFrozen.getLsbD j
      ∃ t, m.exec .polarSc s = .next t ∧
        t = { s with
          mem := { s.mem with
            polarUhat := t.mem.polarUhat, polarXhat := t.mem.polarXhat, polarMsg := t.mem.polarMsg }
          polarKinfo := t.polarKinfo, status := Spec.completed .ok s } ∧
        (∀ j, s.mem.polarFrozen.getLsbD j = true → t.mem.polarUhat.getLsbD j = false) ∧
        (∀ j, 2 ^ n ≤ j → t.mem.polarUhat.getLsbD j = false) ∧
        (∀ j, t.mem.polarXhat.getLsbD j =
          (decide (j < 2 ^ n) && Spec.polarCode n (fun i => t.mem.polarUhat.getLsbD i) j)) ∧
        (∀ k, t.mem.polarMsg.getLsbD k =
          (decide (k < info.length) && t.mem.polarUhat.getLsbD (info.getD k 0))) ∧
        t.polarKinfo.toNat = info.length

/-- The decisions of SC decoding, ties deciding 0 (R322 to R325): at every block length those of the
recursion, and at N = 1 and N = 2 written out. -/
def Obligations.PolarDecisionsFollowTheRecursion : Prop :=
  onEveryCore fun L _ _ P m =>
    ∀ s : State L P, s.inv = true →
      let fz := fun j => s.mem.polarFrozen.getLsbD j
      let rx := fun j => s.mem.polarRx.getLsbD j
      let n := s.polarLogn.toNat
      (n ≤ s.params.polarLognMax →
        ∃ t, m.exec .polarSc s = .next t ∧
          let d := Spec.sc fz n (fun j => if rx j then -1 else 1) 0
          ∀ j, j < 2 ^ n → t.mem.polarUhat.getLsbD j = d.1 j ∧ t.mem.polarXhat.getLsbD j = d.2 j) ∧
      (s.polarLogn = 0#4 →
        ∃ t, m.exec .polarSc s = .next t ∧ t.mem.polarUhat.getLsbD 0 = (!fz 0 && rx 0)) ∧
        (s.polarLogn = 1#4 → 1 ≤ s.params.polarLognMax →
          ∃ t, m.exec .polarSc s = .next t ∧
            t.mem.polarUhat.getLsbD 0 = (!fz 0 && (rx 0 ^^ rx 1)) ∧
            t.mem.polarUhat.getLsbD 1 =
              (!fz 1 && (if t.mem.polarUhat.getLsbD 0 then !rx 0 && rx 1 else rx 0 && rx 1)))

/-- The round trip of R343: a codeword u·G_N with u 0 at the frozen positions decodes to u. -/
def Obligations.PolarDecodesCleanCodewords : Prop :=
  onEveryCore fun L _ _ P m =>
    ∀ (s : State L P) (u : Nat → Bool), s.inv = true → s.polarLogn.toNat ≤ s.params.polarLognMax →
      let n := s.polarLogn.toNat
      (∀ j, j < 2 ^ n → s.mem.polarFrozen.getLsbD j = true → u j = false) →
      (∀ j, j < 2 ^ n → s.mem.polarRx.getLsbD j = Spec.polarCode n u j) →
      ∃ t, m.exec .polarSc s = .next t ∧
        ∀ j, j < 2 ^ n → t.mem.polarUhat.getLsbD j = u j ∧
          t.mem.polarXhat.getLsbD j = s.mem.polarRx.getLsbD j

/-! ### Errors, interrupt, hazards (60_exceptions.md) -/

/-- An error completion writes STATUS and nothing else, for every command and every illegal word (R365). -/
def Obligations.ErrorCompletionWritesStatusOnly : Prop :=
  onEveryCore fun L _ _ P m =>
    ∀ s t : State L P, ((∃ i, m.exec i s = .next t) ∨ completion s = .next t) → t.status.err ≠ .ok →
      t = { s with status := Spec.completed t.status.err s }

/-- Which command raises which code, and the number of each (R361). -/
def Obligations.EachCodeComesFromItsCommands : Prop :=
  onEveryCore fun L _ _ P m =>
    (ErrCode.ok.code = 0#4 ∧ ErrCode.illegalCmd.code = 1#4 ∧ ErrCode.input.code = 2#4 ∧
      ErrCode.zeroOperand.code = 3#4 ∧ ErrCode.tooManyErrors.code = 4#4 ∧
      ErrCode.locatorMismatch.code = 5#4) ∧
    ∀ (i : Instr) (s t : State L P), m.exec i s = .next t →
      t.status.err ≠ .illegalCmd ∧
        (t.status.err = .input → i ∈ [.rsEnc, .rsSynd, .rsBm, .rsChien, .ldpcBp, .ldpcBpC, .polarSc]) ∧
        (t.status.err = .zeroOperand ↔ i = .gfInv ∧ s.gfA = 0#8) ∧
        (t.status.err = .tooManyErrors → i = .rsBm) ∧ (t.status.err = .locatorMismatch → i = .rsChien) ∧
        t.status.err.code.toNat ≤ 5

/-- The interrupt line (R371, R372): a completion raises it exactly when IRQ_EN = 1; it falls on a W1C of
DONE, on IRQ_EN ← 0, on a launch and on a reset; raising IRQ_EN while DONE = 1 raises it.
The word an `Llr` value stands for is log entry 4. -/
def Obligations.InterruptRisesAndFalls : Prop :=
  onEveryCore fun L _ _ P m =>
    ∀ (s : State L P) (a : Addr) (v : PortValue L),
      (irq s = (s.status.done && s.irqEn)) ∧
        (∀ t, ((∃ i, m.exec i s = .next t) ∨ completion s = .next t) → irq t = s.irqEn) ∧
        (locate s.params a = .status → (v.toWord P).getLsbD 1 = true → irq (regWrite a v s) = false) ∧
        (locate s.params a = .ctrl → (v.toWord P).getLsbD 0 = false → irq (regWrite a v s) = false) ∧
        (locate s.params a = .cmd → s.status.busy = false → irq (regWrite a v s) = false) ∧
        irq (softReset s) = false ∧ (∀ d, irq (hardReset d s) = false) ∧
        (locate s.params a = .ctrl → s.status.done = true → (v.toWord P).getLsbD 0 = true →
          (v.toWord P).getLsbD 1 = false → irq (regWrite a v s) = true)

/-- HAZ is set by the three busy-window violations of R370 and by nothing else; once set it falls only by a
1 written to it or by a reset. Which event a step takes is log entry 6, the word an `Llr` value stands for
log entry 4. -/
def Obligations.OnlyBusyWindowViolationsSetHaz : Prop :=
  onEveryCore fun L _ _ P m =>
    ∀ s t : State L P, m.step s = .next t →
      (s.status.haz = false →
        (t.status.haz = true ↔ s.status.busy = true ∧ ∃ a v es, s.events = .host (.write a v) :: es ∧
          (locate s.params a = .cmd ∨ (locate s.params a = .ctrl ∧ (v.toWord P).getLsbD 1 = true) ∨
            Spec.rw (locate s.params a)))) ∧
        (s.status.haz = true →
          (t.status.haz = false ↔ (∃ d es, s.events = .rst d :: es) ∨
            ∃ a v es, s.events = .host (.write a v) :: es ∧
              ((locate s.params a = .status ∧ (v.toWord P).getLsbD 2 = true) ∨
                (locate s.params a = .ctrl ∧ (v.toWord P).getLsbD 1 = true ∧ s.status.busy = false))))

/-- BUSY rises by a launch and falls by a completion or the reset input, and by nothing else; DONE rises by
a completion alone and falls by exactly a 1 written to it, a launch and the two resets (10_state.md R37, R79).
Which event a step takes is log entry 6, the word an `Llr` value stands for log entry 4. -/
def Obligations.WhatMovesBusyAndDone : Prop :=
  onEveryCore fun L _ _ P m =>
    ∀ s t : State L P, m.step s = .next t →
      (s.status.busy = false → t.status.busy = true →
        ∃ a v es, s.events = .host (.write a v) :: es ∧ locate s.params a = .cmd ∧ t.cmd = v.toWord P) ∧
        (s.status.busy = true → t.status.busy = false →
          (s.events = [] ∨ ∃ es, s.events = .engine :: es) ∧ t.status.done = true ∨
            ∃ d es, s.events = .rst d :: es) ∧
        (s.status.done = false → t.status.done = true →
          s.status.busy = true ∧ (s.events = [] ∨ ∃ es, s.events = .engine :: es)) ∧
        (s.status.done = true →
          (t.status.done = false ↔ (∃ d es, s.events = .rst d :: es) ∨
            ∃ a v es, s.events = .host (.write a v) :: es ∧
              ((locate s.params a = .status ∧ (v.toWord P).getLsbD 1 = true) ∨
                (locate s.params a = .cmd ∧ s.status.busy = false) ∨
                (locate s.params a = .ctrl ∧ (v.toWord P).getLsbD 1 = true ∧ s.status.busy = false))))

/-! ### Reset (70_reset_and_hazards.md) -/

/-- The reset values of R401, after the hardware reset, after the soft reset and in `State.reset`, and what the
commands do from there (R405). The parameter values of `State.reset` are the model's choice (log entries 1 and
2), so only their constancy is stated; LDPC_LC and LDPC_DAMP hold the values 0 and 3/4 of the core's own number
type (log entry 3). -/
def Obligations.ResetLeavesTheTabledValues : Prop :=
  (onEveryCore fun L _ _ P m =>
    ((∀ e ∈ Spec.resetReads P, readLocation m.reset e.1 = e.2) ∧ Spec.firstCommands m m.reset) ∧
      ∀ (s : State L P) (d : Memory L), ∀ t ∈ [softReset s, hardReset d s],
        (∀ e ∈ Spec.resetReads P, readLocation t e.1 = e.2) ∧ Spec.firstCommands m t ∧
          readLocation t .id = .word 0x46454331 ∧
          t.params = s.params ∧ t.status.busy = false ∧ irq t = false) ∧
    readLocation State.reset .ldpcLc = .llr 0 ∧ readLocation State.reset .ldpcDamp = .llr (3 / 4)

/-- R402: after the hardware reset the arrays hold any contents whatever, after a soft reset they hold what
they held; a command pending at the hardware reset is discarded (R400). The event that carries the contents
is log entry 5, the word an `Llr` value stands for log entry 4. -/
def Obligations.HardResetDrawsArraysSoftResetKeepsThem : Prop :=
  onEveryCore fun L _ _ P m =>
    (∀ (s : State L P) (d : Memory L) (es : List (Event L)), s.events = .rst d :: es → d.wf s.params = true →
      ∃ t, m.step s = .next t ∧ t.mem = d ∧ t.events = es ∧
        t.status = { busy := false, done := false, haz := false, err := .ok }) ∧
      ∀ (s : State L P) (a : Addr) (v : PortValue L), locate s.params a = .ctrl → s.status.busy = false →
        (v.toWord P).getLsbD 1 = true → (regWrite a v s).mem = s.mem ∧ regWrite a v s = softReset s

/-- SRST while a command is pending is ignored and sets HAZ; IRQ_EN is still written (R403). The word an
`Llr` value stands for is log entry 4. -/
def Obligations.SoftResetWhileBusyIsAHazard : Prop :=
  ∀ (L : Type) [DecidableEq L] [Inhabited L] (P : LlrParam L) (s : State L P) (a : Addr) (v : PortValue L),
    locate s.params a = .ctrl → s.status.busy = true →
    (v.toWord P).getLsbD 1 = true →
      regWrite a v s = { s with
        irqEn := (v.toWord P).getLsbD 0, status := { s.status with haz := true } }

/-! ### The invariant -/

/-- The invariant holds right after reset, on every core with legal sizes. -/
def Obligations.ResetMeetsTheInvariant : Prop :=
  State.reset.inv = true ∧
    onEveryCore fun _ _ _ _ m => m.reset.params.legal = true → m.reset.inv = true

/-- Every step keeps the invariant: legal parameters, arrays in canonical form with reserved elements and
bits 0, DONE = 0 and ERR = 0 while BUSY = 1, OOR = 0 and HAM_DSTAT consistent, RS_NPOS and POLAR_KINFO in
range. -/
def Obligations.StepKeepsTheInvariant : Prop :=
  onEveryCore fun L _ _ P m =>
    ∀ s t : State L P, s.inv = true → m.step s = .next t → t.inv = true
end

