-- ==== Sys2Proof/Laws/Bits.lean ====
section
/-! SUPPORT. Packed bits: what each bit of a packed word or a bit array is. -/

namespace Sys2Proof.Machine

/-- Bit `i` of a packed list is its element `i`. -/
@[simp] theorem getLsbD_packBits (w : Nat) (l : List Bool) (i : Nat) :
    (packBits w l).getLsbD i = (decide (i < w) && l.getD i false) := by
  induction l generalizing i with
  | nil => simp [packBits]
  | cons b t ih =>
    rw [packBits, BitVec.getLsbD_or, BitVec.getLsbD_shiftLeft, ih]
    cases i with
    | zero => cases b <;> cases w <;> simp
    | succ i =>
      by_cases hi : i + 1 < w
      · have : i < w := by omega
        cases b <;> simp [hi, this]
      · cases b <;> simp [hi]

@[simp] theorem length_bitList {w : Nat} (v : BitVec w) (n : Nat) : (bitList v n).length = n := by
  simp [bitList]

/-- Element `j` of a bit array's list is bit `j`. -/
theorem getD_bitList {w : Nat} (v : BitVec w) (n j : Nat) (hj : j < n) :
    (bitList v n).getD j false = v.getLsbD j := by
  simp [bitList, hj]

/-- Bit `i` of the number 2^n − 1 in `w` bits. -/
theorem getLsbD_ones (w n i : Nat) :
    (BitVec.ofNat w (2 ^ n - 1)).getLsbD i = (decide (i < w) && decide (i < n)) := by
  rw [BitVec.getLsbD_ofNat, Nat.testBit_two_pow_sub_one]

/-- Bit `i` of a bit array cut at `n`. -/
@[simp] theorem getLsbD_keepBits {w : Nat} (v : BitVec w) (n i : Nat) :
    (keepBits v n).getLsbD i = (v.getLsbD i && decide (i < n)) := by
  rw [keepBits, BitVec.getLsbD_and, getLsbD_ones]
  by_cases hi : i < w
  · simp [hi]
  · simp [BitVec.getLsbD_of_ge v i (by omega)]

/-- Cutting twice is cutting once. -/
@[simp] theorem keepBits_keepBits {w : Nat} (v : BitVec w) (n : Nat) :
    keepBits (keepBits v n) n = keepBits v n := by
  apply BitVec.eq_of_getLsbD_eq
  intro i _
  simp

/-- A bit array has its reserved bits 0 exactly when every bit from `n` on is 0. -/
theorem keepBits_eq_self_iff {w : Nat} (v : BitVec w) (n : Nat) :
    v = keepBits v n ↔ ∀ i, n ≤ i → v.getLsbD i = false := by
  constructor
  · intro h i hi
    rw [h]
    simp [show ¬ i < n by omega]
  · intro h
    apply BitVec.eq_of_getLsbD_eq
    intro i _
    by_cases hi : i < n
    · simp [hi]
    · simp [h i (by omega)]

/-- A packed list no longer than `n` has its bits from `n` on 0. -/
theorem packBits_keepBits (w : Nat) (l : List Bool) (n : Nat) (h : l.length ≤ n) :
    packBits w l = keepBits (packBits w l) n := by
  rw [keepBits_eq_self_iff]
  intro i hi
  simp [List.getD_eq_getElem?_getD, List.getElem?_eq_none (by omega : l.length ≤ i)]

/-- Bit `b` of the mask of the low bits. -/
@[simp] theorem getLsbD_lowMask (n b : Nat) :
    (lowMask n).getLsbD b = (decide (b < 32) && decide (b < n)) := by
  rw [lowMask, getLsbD_ones]
  by_cases h1 : b < 32 <;> by_cases h2 : b < n <;> simp [h1, h2]

/-- Bit `b` of word `k` of a bit array: bit 32·k + b where that is valid, 0 elsewhere (R10, R84). -/
@[simp] theorem getLsbD_bitWord {w : Nat} (v : BitVec w) (n k b : Nat) :
    (bitWord v n k).getLsbD b =
      (decide (b < 32) && v.getLsbD (32 * k + b) && decide (32 * k + b < n)) := by
  rw [bitWord, BitVec.getLsbD_and, getLsbD_lowMask, BitVec.getLsbD_setWidth, BitVec.getLsbD_ushiftRight]
  by_cases hb : b < 32
  · by_cases h : 32 * k + b < n
    · simp [hb, h, show b < n - 32 * k by omega]
    · simp [hb, h, show ¬ b < n - 32 * k by omega]
  · simp [hb]

/-- Bit `j` of a bit array after a write of word `k`: the written bit where it is a valid bit of that
word, the old bit elsewhere (R84, R87). -/
@[simp] theorem getLsbD_setBitWord {w : Nat} (v : BitVec w) (n k : Nat) (x : Word) (j : Nat) :
    (setBitWord v n k x).getLsbD j =
      if j < w ∧ 32 * k ≤ j ∧ j < 32 * k + 32 ∧ j < n then x.getLsbD (j - 32 * k) else v.getLsbD j := by
  by_cases hw : j < w
  · simp only [setBitWord, BitVec.getLsbD_or, BitVec.getLsbD_and, BitVec.getLsbD_not,
      BitVec.getLsbD_shiftLeft, BitVec.getLsbD_setWidth, getLsbD_lowMask]
    have h' : j - 32 * k < w := by omega
    by_cases h1 : 32 * k ≤ j
    · by_cases h2 : j < 32 * k + 32
      · by_cases h3 : j < n
        · simp [hw, h', h1, h2, h3, show ¬ j < 32 * k by omega, show j - 32 * k < 32 by omega,
            show j - 32 * k < n - 32 * k by omega]
        · simp [hw, h', h1, h2, h3, show ¬ j < 32 * k by omega, show j - 32 * k < 32 by omega,
            show ¬ j - 32 * k < n - 32 * k by omega]
      · simp [hw, h', h1, h2, show ¬ j < 32 * k by omega, show ¬ j - 32 * k < 32 by omega]
    · simp [hw, h', h1, show j < 32 * k by omega]
  · simp [hw, BitVec.getLsbD_of_ge _ j (by omega : w ≤ j)]

/-- Writing a packed word keeps the reserved bits 0. -/
theorem setBitWord_keepBits {w : Nat} (v : BitVec w) (n k : Nat) (x : Word) (h : v = keepBits v n) :
    setBitWord v n k x = keepBits (setBitWord v n k x) n := by
  rw [keepBits_eq_self_iff] at h ⊢
  intro i hi
  simp [h i hi, show ¬ i < n by omega]

end Sys2Proof.Machine
end

