-- ==== Sys2Proof/Laws/Cells.lean ====
section
/-! SUPPORT. The arrays of cells: read over write, frame, the canonical form and its uniqueness. -/

namespace Sys2Proof.Machine

@[simp] theorem unlisted_bitVec (w : Nat) : unlisted (BitVec w) = 0#w := rfl

@[simp] theorem unlisted_llr : unlisted Llr = 0 := rfl

variable {α : Type} [Inhabited α]

@[simp] theorem cellGet_nil (i : Nat) : cellGet ([] : Cells α) i = unlisted α := rfl

theorem cellGet_cons (k : Nat) (v : α) (t : Cells α) (i : Nat) :
    cellGet ((k, v) :: t) i = if k = i then v else cellGet t i := rfl

/-- An index below every listed index is unlisted. -/
theorem cellGet_of_all_lt (c : Cells α) (i : Nat) (h : ∀ e ∈ c, i < e.1) :
    cellGet c i = unlisted α := by
  induction c with
  | nil => rfl
  | cons e t ih =>
    obtain ⟨k, v⟩ := e
    have hk : i < k := h (k, v) (by simp)
    rw [cellGet_cons, if_neg (by omega)]
    exact ih fun e he => h e (by simp [he])

@[simp] theorem length_cellList (c : Cells α) (base n : Nat) : (cellList c base n).length = n := by
  simp [cellList]

/-- Element `k` of a list read from an array. -/
theorem getD_cellList (c : Cells α) (base n k : Nat) (d : α) (hk : k < n) :
    (cellList c base n).getD k d = cellGet c (base + k) := by
  simp [cellList, hk]

variable [DecidableEq α]

theorem cellsWf_cons (valid : Nat → Bool) (k : Nat) (v : α) (t : Cells α) :
    cellsWf valid ((k, v) :: t) = true ↔
      valid k = true ∧ v ≠ unlisted α ∧ (∀ e ∈ t, k < e.1) ∧ cellsWf valid t = true := by
  simp [cellsWf, and_assoc]

/-- Writing one element leaves every other element alone. -/
@[simp] theorem cellGet_cellSet_of_ne (c : Cells α) {i j : Nat} (v : α) (h : j ≠ i) :
    cellGet (cellSet c i v) j = cellGet c j := by
  induction c with
  | nil => unfold cellSet; split <;> simp [cellGet_cons, Ne.symm h]
  | cons e t ih =>
    obtain ⟨k, w⟩ := e
    unfold cellSet
    split
    · split <;> simp [cellGet_cons, Ne.symm h]
    · split
      · subst_vars; split <;> simp [cellGet_cons, Ne.symm h]
      · simp [cellGet_cons, ih]

/-- In a canonical array, reading the element just written gives the value written. -/
theorem cellGet_cellSet_self (valid : Nat → Bool) (c : Cells α) (i : Nat) (v : α)
    (hc : cellsWf valid c = true) : cellGet (cellSet c i v) i = v := by
  induction c with
  | nil => unfold cellSet; split <;> simp_all [cellGet_cons]
  | cons e t ih =>
    obtain ⟨k, w⟩ := e
    obtain ⟨-, -, hlt, ht⟩ := (cellsWf_cons valid k w t).mp hc
    unfold cellSet
    split
    · rename_i hik
      split
      · subst_vars
        exact cellGet_of_all_lt _ _ fun e he => by
          rcases List.mem_cons.mp he with rfl | he
          · exact hik
          · exact Nat.lt_trans hik (hlt e he)
      · simp [cellGet_cons]
    · split
      · subst_vars
        split
        · subst_vars; exact cellGet_of_all_lt _ _ hlt
        · simp [cellGet_cons]
      · rename_i hne
        rw [cellGet_cons, if_neg (Ne.symm hne)]
        exact ih ht

/-- Read over write in a canonical array. -/
theorem cellGet_cellSet (valid : Nat → Bool) (c : Cells α) (i j : Nat) (v : α)
    (hc : cellsWf valid c = true) :
    cellGet (cellSet c i v) j = if j = i then v else cellGet c j := by
  by_cases h : j = i
  · subst h; simpa using cellGet_cellSet_self valid c j v hc
  · simp [h]

/-- Every index of an array after a write was there before or is the one written. -/
theorem mem_cellSet_index (c : Cells α) (i : Nat) (v : α) :
    ∀ e ∈ cellSet c i v, e.1 = i ∨ ∃ w, (e.1, w) ∈ c := by
  induction c with
  | nil => unfold cellSet; split <;> simp
  | cons e t ih =>
    obtain ⟨k, w⟩ := e
    unfold cellSet
    intro e he
    split at he
    · split at he
      · exact .inr ⟨e.2, he⟩
      · rcases List.mem_cons.mp he with rfl | he
        · exact .inl rfl
        · exact .inr ⟨e.2, he⟩
    · split at he
      · split at he
        · exact .inr ⟨e.2, by simp [he]⟩
        · rcases List.mem_cons.mp he with rfl | he
          · exact .inl rfl
          · exact .inr ⟨e.2, by simp [he]⟩
      · rcases List.mem_cons.mp he with rfl | he
        · exact .inr ⟨w, by simp⟩
        · rcases ih e he with h | ⟨w', h⟩
          · exact .inl h
          · exact .inr ⟨w', by simp [h]⟩

/-- Writing a valid element keeps the canonical form. -/
theorem cellSet_wf (valid : Nat → Bool) (c : Cells α) (i : Nat) (v : α) (hi : valid i = true)
    (hc : cellsWf valid c = true) : cellsWf valid (cellSet c i v) = true := by
  induction c with
  | nil => unfold cellSet; split <;> simp_all [cellsWf]
  | cons e t ih =>
    obtain ⟨k, w⟩ := e
    obtain ⟨hk, hw, hlt, ht⟩ := (cellsWf_cons valid k w t).mp hc
    unfold cellSet
    split
    · rename_i hik
      split
      · exact hc
      · rename_i hv
        refine (cellsWf_cons _ _ _ _).mpr ⟨hi, hv, fun e he => ?_, hc⟩
        rcases List.mem_cons.mp he with rfl | he
        · exact hik
        · exact Nat.lt_trans hik (hlt e he)
    · split
      · subst_vars
        split
        · exact ht
        · rename_i hv
          exact (cellsWf_cons _ _ _ _).mpr ⟨hi, hv, hlt, ht⟩
      · refine (cellsWf_cons _ _ _ _).mpr ⟨hk, hw, fun e he => ?_, ih ht⟩
        rcases mem_cellSet_index t i v e he with h | ⟨w', h⟩
        · omega
        · exact hlt (e.1, w') h

/-- Two canonical arrays with the same elements are the same data. -/
theorem cells_ext (valid : Nat → Bool) (c d : Cells α) (hc : cellsWf valid c = true)
    (hd : cellsWf valid d = true) (h : ∀ i, cellGet c i = cellGet d i) : c = d := by
  induction c generalizing d with
  | nil =>
    cases d with
    | nil => rfl
    | cons e t =>
      obtain ⟨k, w⟩ := e
      obtain ⟨-, hw, -, -⟩ := (cellsWf_cons valid k w t).mp hd
      have := h k
      simp [cellGet_cons] at this
      exact absurd this.symm hw
  | cons e t ih =>
    obtain ⟨k, v⟩ := e
    obtain ⟨-, hv, hlt, ht⟩ := (cellsWf_cons valid k v t).mp hc
    cases d with
    | nil =>
      have := h k
      simp [cellGet_cons] at this
      exact absurd this hv
    | cons e' t' =>
      obtain ⟨k', v'⟩ := e'
      obtain ⟨-, hv', hlt', ht'⟩ := (cellsWf_cons valid k' v' t').mp hd
      have hkk : k = k' := by
        rcases Nat.lt_trichotomy k k' with hlt1 | heq | hgt
        · have := h k
          rw [cellGet_cons, if_pos rfl, cellGet_of_all_lt ((k', v') :: t') k fun e he => by
            rcases List.mem_cons.mp he with rfl | he
            · exact hlt1
            · exact Nat.lt_trans hlt1 (hlt' e he)] at this
          exact absurd this hv
        · exact heq
        · have := h k'
          rw [cellGet_cons k' v', if_pos rfl, cellGet_of_all_lt ((k, v) :: t) k' fun e he => by
            rcases List.mem_cons.mp he with rfl | he
            · exact hgt
            · exact Nat.lt_trans hgt (hlt e he)] at this
          exact absurd this.symm hv'
      subst hkk
      have hvv : v = v' := by simpa [cellGet_cons] using h k
      subst hvv
      congr 1
      refine ih t' ht ht' fun i => ?_
      by_cases hi : i = k
      · subst hi
        rw [cellGet_of_all_lt t i hlt, cellGet_of_all_lt t' i hlt']
      · simpa [cellGet_cons, Ne.symm hi] using h i

/-! ### Writing a list of elements -/

/-- Elements outside the written range are left alone. -/
theorem cellGet_cellSetFrom_of_outside (c : Cells α) (base : Nat) (vs : List α) (j : Nat)
    (h : j < base ∨ base + vs.length ≤ j) : cellGet (cellSetFrom c base vs) j = cellGet c j := by
  induction vs generalizing c base with
  | nil => rfl
  | cons v vs ih =>
    simp only [List.length_cons] at h
    rw [cellSetFrom, ih _ _ (by omega), cellGet_cellSet_of_ne _ _ (by omega)]

/-- Writing valid elements keeps the canonical form. -/
theorem cellSetFrom_wf (valid : Nat → Bool) (c : Cells α) (base : Nat) (vs : List α)
    (hv : ∀ k, k < vs.length → valid (base + k) = true) (hc : cellsWf valid c = true) :
    cellsWf valid (cellSetFrom c base vs) = true := by
  induction vs generalizing c base with
  | nil => exact hc
  | cons v vs ih =>
    refine ih _ _ (fun k hk => ?_) (cellSet_wf valid c base v (by simpa using hv 0 (by simp)) hc)
    have := hv (k + 1) (by simpa using hk)
    rwa [show base + 1 + k = base + (k + 1) by omega]

/-- In a canonical array, the written range reads as the values written. -/
theorem cellGet_cellSetFrom (valid : Nat → Bool) (c : Cells α) (base : Nat) (vs : List α) (k : Nat)
    (d : α) (hk : k < vs.length) (hv : ∀ k, k < vs.length → valid (base + k) = true)
    (hc : cellsWf valid c = true) : cellGet (cellSetFrom c base vs) (base + k) = vs.getD k d := by
  induction vs generalizing c base k with
  | nil => simp at hk
  | cons v vs ih =>
    have h0 : valid base = true := by simpa using hv 0 (by simp)
    cases k with
    | zero =>
      change cellGet (cellSetFrom (cellSet c base v) (base + 1) vs) base = v
      rw [cellGet_cellSetFrom_of_outside _ _ _ _ (by omega), cellGet_cellSet_self valid c base v hc]
    | succ k =>
      rw [cellSetFrom, show base + (k + 1) = base + 1 + k by omega,
        ih (cellSet c base v) (base + 1) k (by simpa using hk) ?_ (cellSet_wf valid c base v h0 hc)]
      · rfl
      · intro m hm
        have := hv (m + 1) (by simpa using hm)
        rwa [show base + 1 + m = base + (m + 1) by omega]

/-- A drawn list is brought into canonical form. -/
theorem cellsOf_wf (valid : Nat → Bool) (l : List (Nat × α)) : cellsWf valid (cellsOf valid l) = true := by
  suffices h : ∀ c : Cells α, cellsWf valid c = true →
      cellsWf valid (l.foldl (fun c e => if valid e.1 then cellSet c e.1 e.2 else c) c) = true from
    h [] rfl
  induction l with
  | nil => exact fun c hc => hc
  | cons e t ih =>
    intro c hc
    refine ih _ ?_
    dsimp only
    split
    · exact cellSet_wf valid c e.1 e.2 ‹_› hc
    · exact hc

/-- Rows of messages keep the canonical form where every element of every row is valid. -/
theorem setRows_wf (valid : Nat → Bool) (c : Cells Llr) (i : Nat) (rows : List (List Llr))
    (hv : ∀ m, m < rows.length → ∀ k, k < (rows.getD m []).length → valid (256 * (i + m) + k) = true)
    (hc : cellsWf valid c = true) : cellsWf valid (setRows c i rows) = true := by
  induction rows generalizing c i with
  | nil => exact hc
  | cons row rows ih =>
    refine ih _ _ (fun m hm k hk => ?_) (cellSetFrom_wf valid c _ row (fun k hk => ?_) hc)
    · have := hv (m + 1) (by simpa using hm) k (by simpa using hk)
      rwa [show i + 1 + m = i + (m + 1) by omega]
    · simpa using hv 0 (by simp) k (by simpa using hk)

end Sys2Proof.Machine
end

