-- ==== Sys2Proof/Laws/State.lean ====
section
/-! SUPPORT. What each named update of State leaves in each field: one lemma per field per update, true by
definition, so that no later proof unfolds an update. -/

namespace Sys2Proof.Machine

variable {L : Type} {P : LlrParam L}

/-! ### `complete`: the completion (R142) -/

@[simp] theorem complete_params (c : ErrCode) (s : State L P) : (complete c s).params = s.params := rfl
@[simp] theorem complete_irqEn (c : ErrCode) (s : State L P) : (complete c s).irqEn = s.irqEn := rfl
@[simp] theorem complete_status (c : ErrCode) (s : State L P) :
    (complete c s).status = { s.status with busy := false, done := true, err := c } := rfl
@[simp] theorem complete_cmd (c : ErrCode) (s : State L P) : (complete c s).cmd = s.cmd := rfl
@[simp] theorem complete_hamDin (c : ErrCode) (s : State L P) : (complete c s).hamDin = s.hamDin := rfl
@[simp] theorem complete_hamCw (c : ErrCode) (s : State L P) : (complete c s).hamCw = s.hamCw := rfl
@[simp] theorem complete_hamRx (c : ErrCode) (s : State L P) : (complete c s).hamRx = s.hamRx := rfl
@[simp] theorem complete_hamCorr (c : ErrCode) (s : State L P) : (complete c s).hamCorr = s.hamCorr := rfl
@[simp] theorem complete_hamDstat (c : ErrCode) (s : State L P) : (complete c s).hamDstat = s.hamDstat := rfl
@[simp] theorem complete_gfA (c : ErrCode) (s : State L P) : (complete c s).gfA = s.gfA := rfl
@[simp] theorem complete_gfB (c : ErrCode) (s : State L P) : (complete c s).gfB = s.gfB := rfl
@[simp] theorem complete_gfR (c : ErrCode) (s : State L P) : (complete c s).gfR = s.gfR := rfl
@[simp] theorem complete_rsK (c : ErrCode) (s : State L P) : (complete c s).rsK = s.rsK := rfl
@[simp] theorem complete_rsNsym (c : ErrCode) (s : State L P) : (complete c s).rsNsym = s.rsNsym := rfl
@[simp] theorem complete_rsErrs (c : ErrCode) (s : State L P) : (complete c s).rsErrs = s.rsErrs := rfl
@[simp] theorem complete_rsNpos (c : ErrCode) (s : State L P) : (complete c s).rsNpos = s.rsNpos := rfl
@[simp] theorem complete_rsSynz (c : ErrCode) (s : State L P) : (complete c s).rsSynz = s.rsSynz := rfl
@[simp] theorem complete_ldpcM (c : ErrCode) (s : State L P) : (complete c s).ldpcM = s.ldpcM := rfl
@[simp] theorem complete_ldpcN (c : ErrCode) (s : State L P) : (complete c s).ldpcN = s.ldpcN := rfl
@[simp] theorem complete_ldpcMaxit (c : ErrCode) (s : State L P) : (complete c s).ldpcMaxit = s.ldpcMaxit := rfl
@[simp] theorem complete_ldpcLc (c : ErrCode) (s : State L P) : (complete c s).ldpcLc = s.ldpcLc := rfl
@[simp] theorem complete_ldpcDamp (c : ErrCode) (s : State L P) : (complete c s).ldpcDamp = s.ldpcDamp := rfl
@[simp] theorem complete_ldpcIters (c : ErrCode) (s : State L P) : (complete c s).ldpcIters = s.ldpcIters := rfl
@[simp] theorem complete_ldpcConv (c : ErrCode) (s : State L P) : (complete c s).ldpcConv = s.ldpcConv := rfl
@[simp] theorem complete_polarLogn (c : ErrCode) (s : State L P) : (complete c s).polarLogn = s.polarLogn := rfl
@[simp] theorem complete_polarKinfo (c : ErrCode) (s : State L P) :
    (complete c s).polarKinfo = s.polarKinfo := rfl
@[simp] theorem complete_mem (c : ErrCode) (s : State L P) : (complete c s).mem = s.mem := rfl
@[simp] theorem complete_events (c : ErrCode) (s : State L P) : (complete c s).events = s.events := rfl
@[simp] theorem complete_rdata (c : ErrCode) (s : State L P) : (complete c s).rdata = s.rdata := rfl
@[simp] theorem complete_draws (c : ErrCode) (s : State L P) : (complete c s).draws = s.draws := rfl

/-! ### `launch`: the launch (R141) -/

@[simp] theorem launch_params (w : Word) (s : State L P) : (launch w s).params = s.params := rfl
@[simp] theorem launch_irqEn (w : Word) (s : State L P) : (launch w s).irqEn = s.irqEn := rfl
@[simp] theorem launch_status (w : Word) (s : State L P) :
    (launch w s).status = { s.status with busy := true, done := false, err := .ok } := rfl
@[simp] theorem launch_cmd (w : Word) (s : State L P) : (launch w s).cmd = w := rfl
@[simp] theorem launch_hamDin (w : Word) (s : State L P) : (launch w s).hamDin = s.hamDin := rfl
@[simp] theorem launch_hamCw (w : Word) (s : State L P) : (launch w s).hamCw = s.hamCw := rfl
@[simp] theorem launch_hamRx (w : Word) (s : State L P) : (launch w s).hamRx = s.hamRx := rfl
@[simp] theorem launch_hamCorr (w : Word) (s : State L P) : (launch w s).hamCorr = s.hamCorr := rfl
@[simp] theorem launch_hamDstat (w : Word) (s : State L P) : (launch w s).hamDstat = s.hamDstat := rfl
@[simp] theorem launch_gfA (w : Word) (s : State L P) : (launch w s).gfA = s.gfA := rfl
@[simp] theorem launch_gfB (w : Word) (s : State L P) : (launch w s).gfB = s.gfB := rfl
@[simp] theorem launch_gfR (w : Word) (s : State L P) : (launch w s).gfR = s.gfR := rfl
@[simp] theorem launch_rsK (w : Word) (s : State L P) : (launch w s).rsK = s.rsK := rfl
@[simp] theorem launch_rsNsym (w : Word) (s : State L P) : (launch w s).rsNsym = s.rsNsym := rfl
@[simp] theorem launch_rsErrs (w : Word) (s : State L P) : (launch w s).rsErrs = s.rsErrs := rfl
@[simp] theorem launch_rsNpos (w : Word) (s : State L P) : (launch w s).rsNpos = s.rsNpos := rfl
@[simp] theorem launch_rsSynz (w : Word) (s : State L P) : (launch w s).rsSynz = s.rsSynz := rfl
@[simp] theorem launch_ldpcM (w : Word) (s : State L P) : (launch w s).ldpcM = s.ldpcM := rfl
@[simp] theorem launch_ldpcN (w : Word) (s : State L P) : (launch w s).ldpcN = s.ldpcN := rfl
@[simp] theorem launch_ldpcMaxit (w : Word) (s : State L P) : (launch w s).ldpcMaxit = s.ldpcMaxit := rfl
@[simp] theorem launch_ldpcLc (w : Word) (s : State L P) : (launch w s).ldpcLc = s.ldpcLc := rfl
@[simp] theorem launch_ldpcDamp (w : Word) (s : State L P) : (launch w s).ldpcDamp = s.ldpcDamp := rfl
@[simp] theorem launch_ldpcIters (w : Word) (s : State L P) : (launch w s).ldpcIters = s.ldpcIters := rfl
@[simp] theorem launch_ldpcConv (w : Word) (s : State L P) : (launch w s).ldpcConv = s.ldpcConv := rfl
@[simp] theorem launch_polarLogn (w : Word) (s : State L P) : (launch w s).polarLogn = s.polarLogn := rfl
@[simp] theorem launch_polarKinfo (w : Word) (s : State L P) : (launch w s).polarKinfo = s.polarKinfo := rfl
@[simp] theorem launch_mem (w : Word) (s : State L P) : (launch w s).mem = s.mem := rfl
@[simp] theorem launch_events (w : Word) (s : State L P) : (launch w s).events = s.events := rfl
@[simp] theorem launch_rdata (w : Word) (s : State L P) : (launch w s).rdata = s.rdata := rfl
@[simp] theorem launch_draws (w : Word) (s : State L P) : (launch w s).draws = s.draws := rfl

/-! ### `withMem`: other arrays -/

@[simp] theorem withMem_params (m : Memory L) (s : State L P) : (s.withMem m).params = s.params := rfl
@[simp] theorem withMem_irqEn (m : Memory L) (s : State L P) : (s.withMem m).irqEn = s.irqEn := rfl
@[simp] theorem withMem_status (m : Memory L) (s : State L P) : (s.withMem m).status = s.status := rfl
@[simp] theorem withMem_cmd (m : Memory L) (s : State L P) : (s.withMem m).cmd = s.cmd := rfl
@[simp] theorem withMem_hamDin (m : Memory L) (s : State L P) : (s.withMem m).hamDin = s.hamDin := rfl
@[simp] theorem withMem_hamCw (m : Memory L) (s : State L P) : (s.withMem m).hamCw = s.hamCw := rfl
@[simp] theorem withMem_hamRx (m : Memory L) (s : State L P) : (s.withMem m).hamRx = s.hamRx := rfl
@[simp] theorem withMem_hamCorr (m : Memory L) (s : State L P) : (s.withMem m).hamCorr = s.hamCorr := rfl
@[simp] theorem withMem_hamDstat (m : Memory L) (s : State L P) : (s.withMem m).hamDstat = s.hamDstat := rfl
@[simp] theorem withMem_gfA (m : Memory L) (s : State L P) : (s.withMem m).gfA = s.gfA := rfl
@[simp] theorem withMem_gfB (m : Memory L) (s : State L P) : (s.withMem m).gfB = s.gfB := rfl
@[simp] theorem withMem_gfR (m : Memory L) (s : State L P) : (s.withMem m).gfR = s.gfR := rfl
@[simp] theorem withMem_rsK (m : Memory L) (s : State L P) : (s.withMem m).rsK = s.rsK := rfl
@[simp] theorem withMem_rsNsym (m : Memory L) (s : State L P) : (s.withMem m).rsNsym = s.rsNsym := rfl
@[simp] theorem withMem_rsErrs (m : Memory L) (s : State L P) : (s.withMem m).rsErrs = s.rsErrs := rfl
@[simp] theorem withMem_rsNpos (m : Memory L) (s : State L P) : (s.withMem m).rsNpos = s.rsNpos := rfl
@[simp] theorem withMem_rsSynz (m : Memory L) (s : State L P) : (s.withMem m).rsSynz = s.rsSynz := rfl
@[simp] theorem withMem_ldpcM (m : Memory L) (s : State L P) : (s.withMem m).ldpcM = s.ldpcM := rfl
@[simp] theorem withMem_ldpcN (m : Memory L) (s : State L P) : (s.withMem m).ldpcN = s.ldpcN := rfl
@[simp] theorem withMem_ldpcMaxit (m : Memory L) (s : State L P) : (s.withMem m).ldpcMaxit = s.ldpcMaxit := rfl
@[simp] theorem withMem_ldpcLc (m : Memory L) (s : State L P) : (s.withMem m).ldpcLc = s.ldpcLc := rfl
@[simp] theorem withMem_ldpcDamp (m : Memory L) (s : State L P) : (s.withMem m).ldpcDamp = s.ldpcDamp := rfl
@[simp] theorem withMem_ldpcIters (m : Memory L) (s : State L P) : (s.withMem m).ldpcIters = s.ldpcIters := rfl
@[simp] theorem withMem_ldpcConv (m : Memory L) (s : State L P) : (s.withMem m).ldpcConv = s.ldpcConv := rfl
@[simp] theorem withMem_polarLogn (m : Memory L) (s : State L P) : (s.withMem m).polarLogn = s.polarLogn := rfl
@[simp] theorem withMem_polarKinfo (m : Memory L) (s : State L P) : (s.withMem m).polarKinfo = s.polarKinfo := rfl
@[simp] theorem withMem_mem (m : Memory L) (s : State L P) : (s.withMem m).mem = m := rfl
@[simp] theorem withMem_events (m : Memory L) (s : State L P) : (s.withMem m).events = s.events := rfl
@[simp] theorem withMem_rdata (m : Memory L) (s : State L P) : (s.withMem m).rdata = s.rdata := rfl
@[simp] theorem withMem_draws (m : Memory L) (s : State L P) : (s.withMem m).draws = s.draws := rfl

/-! ### `setHaz`: HAZ ← 1 (R370) -/

@[simp] theorem setHaz_params (s : State L P) : (setHaz s).params = s.params := rfl
@[simp] theorem setHaz_irqEn (s : State L P) : (setHaz s).irqEn = s.irqEn := rfl
@[simp] theorem setHaz_status (s : State L P) : (setHaz s).status = { s.status with haz := true } := rfl
@[simp] theorem setHaz_cmd (s : State L P) : (setHaz s).cmd = s.cmd := rfl
@[simp] theorem setHaz_hamDin (s : State L P) : (setHaz s).hamDin = s.hamDin := rfl
@[simp] theorem setHaz_hamCw (s : State L P) : (setHaz s).hamCw = s.hamCw := rfl
@[simp] theorem setHaz_hamRx (s : State L P) : (setHaz s).hamRx = s.hamRx := rfl
@[simp] theorem setHaz_hamCorr (s : State L P) : (setHaz s).hamCorr = s.hamCorr := rfl
@[simp] theorem setHaz_hamDstat (s : State L P) : (setHaz s).hamDstat = s.hamDstat := rfl
@[simp] theorem setHaz_gfA (s : State L P) : (setHaz s).gfA = s.gfA := rfl
@[simp] theorem setHaz_gfB (s : State L P) : (setHaz s).gfB = s.gfB := rfl
@[simp] theorem setHaz_gfR (s : State L P) : (setHaz s).gfR = s.gfR := rfl
@[simp] theorem setHaz_rsK (s : State L P) : (setHaz s).rsK = s.rsK := rfl
@[simp] theorem setHaz_rsNsym (s : State L P) : (setHaz s).rsNsym = s.rsNsym := rfl
@[simp] theorem setHaz_rsErrs (s : State L P) : (setHaz s).rsErrs = s.rsErrs := rfl
@[simp] theorem setHaz_rsNpos (s : State L P) : (setHaz s).rsNpos = s.rsNpos := rfl
@[simp] theorem setHaz_rsSynz (s : State L P) : (setHaz s).rsSynz = s.rsSynz := rfl
@[simp] theorem setHaz_ldpcM (s : State L P) : (setHaz s).ldpcM = s.ldpcM := rfl
@[simp] theorem setHaz_ldpcN (s : State L P) : (setHaz s).ldpcN = s.ldpcN := rfl
@[simp] theorem setHaz_ldpcMaxit (s : State L P) : (setHaz s).ldpcMaxit = s.ldpcMaxit := rfl
@[simp] theorem setHaz_ldpcLc (s : State L P) : (setHaz s).ldpcLc = s.ldpcLc := rfl
@[simp] theorem setHaz_ldpcDamp (s : State L P) : (setHaz s).ldpcDamp = s.ldpcDamp := rfl
@[simp] theorem setHaz_ldpcIters (s : State L P) : (setHaz s).ldpcIters = s.ldpcIters := rfl
@[simp] theorem setHaz_ldpcConv (s : State L P) : (setHaz s).ldpcConv = s.ldpcConv := rfl
@[simp] theorem setHaz_polarLogn (s : State L P) : (setHaz s).polarLogn = s.polarLogn := rfl
@[simp] theorem setHaz_polarKinfo (s : State L P) : (setHaz s).polarKinfo = s.polarKinfo := rfl
@[simp] theorem setHaz_mem (s : State L P) : (setHaz s).mem = s.mem := rfl
@[simp] theorem setHaz_events (s : State L P) : (setHaz s).events = s.events := rfl
@[simp] theorem setHaz_rdata (s : State L P) : (setHaz s).rdata = s.rdata := rfl
@[simp] theorem setHaz_draws (s : State L P) : (setHaz s).draws = s.draws := rfl

/-! ### `clearStatus`: the write to STATUS (R37) -/

@[simp] theorem clearStatus_params (w : Word) (s : State L P) : (clearStatus w s).params = s.params := rfl
@[simp] theorem clearStatus_irqEn (w : Word) (s : State L P) : (clearStatus w s).irqEn = s.irqEn := rfl
@[simp] theorem clearStatus_status (w : Word) (s : State L P) :
    (clearStatus w s).status = { s.status with
      done := s.status.done && !w.getLsbD 1, haz := s.status.haz && !w.getLsbD 2 } := rfl
@[simp] theorem clearStatus_cmd (w : Word) (s : State L P) : (clearStatus w s).cmd = s.cmd := rfl
@[simp] theorem clearStatus_hamDin (w : Word) (s : State L P) : (clearStatus w s).hamDin = s.hamDin := rfl
@[simp] theorem clearStatus_hamCw (w : Word) (s : State L P) : (clearStatus w s).hamCw = s.hamCw := rfl
@[simp] theorem clearStatus_hamRx (w : Word) (s : State L P) : (clearStatus w s).hamRx = s.hamRx := rfl
@[simp] theorem clearStatus_hamCorr (w : Word) (s : State L P) : (clearStatus w s).hamCorr = s.hamCorr := rfl
@[simp] theorem clearStatus_hamDstat (w : Word) (s : State L P) : (clearStatus w s).hamDstat = s.hamDstat := rfl
@[simp] theorem clearStatus_gfA (w : Word) (s : State L P) : (clearStatus w s).gfA = s.gfA := rfl
@[simp] theorem clearStatus_gfB (w : Word) (s : State L P) : (clearStatus w s).gfB = s.gfB := rfl
@[simp] theorem clearStatus_gfR (w : Word) (s : State L P) : (clearStatus w s).gfR = s.gfR := rfl
@[simp] theorem clearStatus_rsK (w : Word) (s : State L P) : (clearStatus w s).rsK = s.rsK := rfl
@[simp] theorem clearStatus_rsNsym (w : Word) (s : State L P) : (clearStatus w s).rsNsym = s.rsNsym := rfl
@[simp] theorem clearStatus_rsErrs (w : Word) (s : State L P) : (clearStatus w s).rsErrs = s.rsErrs := rfl
@[simp] theorem clearStatus_rsNpos (w : Word) (s : State L P) : (clearStatus w s).rsNpos = s.rsNpos := rfl
@[simp] theorem clearStatus_rsSynz (w : Word) (s : State L P) : (clearStatus w s).rsSynz = s.rsSynz := rfl
@[simp] theorem clearStatus_ldpcM (w : Word) (s : State L P) : (clearStatus w s).ldpcM = s.ldpcM := rfl
@[simp] theorem clearStatus_ldpcN (w : Word) (s : State L P) : (clearStatus w s).ldpcN = s.ldpcN := rfl
@[simp] theorem clearStatus_ldpcMaxit (w : Word) (s : State L P) :
    (clearStatus w s).ldpcMaxit = s.ldpcMaxit := rfl
@[simp] theorem clearStatus_ldpcLc (w : Word) (s : State L P) : (clearStatus w s).ldpcLc = s.ldpcLc := rfl
@[simp] theorem clearStatus_ldpcDamp (w : Word) (s : State L P) : (clearStatus w s).ldpcDamp = s.ldpcDamp := rfl
@[simp] theorem clearStatus_ldpcIters (w : Word) (s : State L P) :
    (clearStatus w s).ldpcIters = s.ldpcIters := rfl
@[simp] theorem clearStatus_ldpcConv (w : Word) (s : State L P) : (clearStatus w s).ldpcConv = s.ldpcConv := rfl
@[simp] theorem clearStatus_polarLogn (w : Word) (s : State L P) :
    (clearStatus w s).polarLogn = s.polarLogn := rfl
@[simp] theorem clearStatus_polarKinfo (w : Word) (s : State L P) :
    (clearStatus w s).polarKinfo = s.polarKinfo := rfl
@[simp] theorem clearStatus_mem (w : Word) (s : State L P) : (clearStatus w s).mem = s.mem := rfl
@[simp] theorem clearStatus_events (w : Word) (s : State L P) : (clearStatus w s).events = s.events := rfl
@[simp] theorem clearStatus_rdata (w : Word) (s : State L P) : (clearStatus w s).rdata = s.rdata := rfl
@[simp] theorem clearStatus_draws (w : Word) (s : State L P) : (clearStatus w s).draws = s.draws := rfl

/-! ### `resetRegisters`: the register reset (R401) -/

@[simp] theorem resetRegisters_params (s : State L P) : (resetRegisters s).params = s.params := rfl
@[simp] theorem resetRegisters_irqEn (s : State L P) : (resetRegisters s).irqEn = false := rfl
@[simp] theorem resetRegisters_status (s : State L P) :
    (resetRegisters s).status = { busy := false, done := false, haz := false, err := .ok } := rfl
@[simp] theorem resetRegisters_cmd (s : State L P) : (resetRegisters s).cmd = 0#32 := rfl
@[simp] theorem resetRegisters_hamDin (s : State L P) : (resetRegisters s).hamDin = 0#4 := rfl
@[simp] theorem resetRegisters_hamCw (s : State L P) : (resetRegisters s).hamCw = 0#8 := rfl
@[simp] theorem resetRegisters_hamRx (s : State L P) : (resetRegisters s).hamRx = 0#8 := rfl
@[simp] theorem resetRegisters_hamCorr (s : State L P) : (resetRegisters s).hamCorr = 0#8 := rfl
@[simp] theorem resetRegisters_hamDstat (s : State L P) :
    (resetRegisters s).hamDstat = { syn := 0#3, errv := false, errpos := 0#3, oor := false, msg := 0#4 } := rfl
@[simp] theorem resetRegisters_gfA (s : State L P) : (resetRegisters s).gfA = 0#8 := rfl
@[simp] theorem resetRegisters_gfB (s : State L P) : (resetRegisters s).gfB = 0#8 := rfl
@[simp] theorem resetRegisters_gfR (s : State L P) : (resetRegisters s).gfR = 0#8 := rfl
@[simp] theorem resetRegisters_rsK (s : State L P) : (resetRegisters s).rsK = 0#8 := rfl
@[simp] theorem resetRegisters_rsNsym (s : State L P) : (resetRegisters s).rsNsym = 0#8 := rfl
@[simp] theorem resetRegisters_rsErrs (s : State L P) : (resetRegisters s).rsErrs = 0#8 := rfl
@[simp] theorem resetRegisters_rsNpos (s : State L P) : (resetRegisters s).rsNpos = 0#8 := rfl
@[simp] theorem resetRegisters_rsSynz (s : State L P) : (resetRegisters s).rsSynz = false := rfl
@[simp] theorem resetRegisters_ldpcM (s : State L P) : (resetRegisters s).ldpcM = 0#9 := rfl
@[simp] theorem resetRegisters_ldpcN (s : State L P) : (resetRegisters s).ldpcN = 0#9 := rfl
@[simp] theorem resetRegisters_ldpcMaxit (s : State L P) : (resetRegisters s).ldpcMaxit = 0#16 := rfl
@[simp] theorem resetRegisters_ldpcLc (s : State L P) :
    (resetRegisters s).ldpcLc = P.arith.zero := rfl
@[simp] theorem resetRegisters_ldpcDamp (s : State L P) :
    (resetRegisters s).ldpcDamp = P.threeQuarters := rfl
@[simp] theorem resetRegisters_ldpcIters (s : State L P) : (resetRegisters s).ldpcIters = 0#32 := rfl
@[simp] theorem resetRegisters_ldpcConv (s : State L P) : (resetRegisters s).ldpcConv = false := rfl
@[simp] theorem resetRegisters_polarLogn (s : State L P) : (resetRegisters s).polarLogn = 0#4 := rfl
@[simp] theorem resetRegisters_polarKinfo (s : State L P) : (resetRegisters s).polarKinfo = 0#11 := rfl
@[simp] theorem resetRegisters_mem (s : State L P) :
    (resetRegisters s).mem = s.mem := rfl
@[simp] theorem resetRegisters_events (s : State L P) :
    (resetRegisters s).events = s.events := rfl
@[simp] theorem resetRegisters_rdata (s : State L P) :
    (resetRegisters s).rdata = s.rdata := rfl
@[simp] theorem resetRegisters_draws (s : State L P) :
    (resetRegisters s).draws = s.draws := rfl

/-! ### The names that stand for these updates -/

@[simp] theorem raise_eq_complete (c : ErrCode) (s : State L P) : raise c s = complete c s := rfl

@[simp] theorem succeed_eq_complete (s : State L P) : succeed s = complete .ok s := rfl

@[simp] theorem softReset_eq_resetRegisters (s : State L P) : softReset s = resetRegisters s := rfl

@[simp] theorem hardReset_eq_withMem [DecidableEq L] [Inhabited L] (d : Memory L) (s : State L P) :
    hardReset d s = (resetRegisters s).withMem (d.conform s.params) := rfl

end Sys2Proof.Machine
end

