-- ==== Sys2Proof/Laws/Exec.lean ====
section
/-! SUPPORT. What a completion can do: every meaning is `finish` of its command's rule, and `finish`
either applies the rule's writes or writes STATUS alone. -/

namespace Sys2Proof.Machine

variable {L : Type} {P : LlrParam L}

/-- A completion applies the rule's writes with code 0, or raises the rule's code with none of them. -/
theorem finish_cases (s t : State L P) (r : Except ErrCode (State L P)) (h : finish s r = t) :
    (∃ s', r = .ok s' ∧ t = complete .ok s') ∨ (∃ c, r = .error c ∧ t = complete c s) := by
  cases r with
  | ok s' => exact .inl ⟨s', rfl, h.symm⟩
  | error c => exact .inr ⟨c, rfl, h.symm⟩

variable [DecidableEq L] [Inhabited L]

/-- The rule of each command (files 41 to 45 of the spec), before `finish`. -/
def commandRule : Instr → State L P → Except ErrCode (State L P)
  | .nop => nopRule
  | .hamEnc => hamEncRule false
  | .hamEncX => hamEncRule true
  | .hamDec => hamDecRule false
  | .hamDecX => hamDecRule true
  | .gfMul => gfMulRule
  | .gfInv => gfInvRule
  | .rsEnc => rsEncRule
  | .rsSynd => rsSyndRule
  | .rsBm => rsBmRule
  | .rsChien => rsChienRule
  | .ldpcBp => ldpcRule false
  | .ldpcBpC => ldpcRule true
  | .polarSc => polarRule

/-- `exec` is the machine of every number type, at the reference instantiation. -/
theorem exec_eq_execOn : exec = execOn := by
  funext i s
  cases i <;> rfl

/-- Every meaning is its command's rule, finished (R142). -/
theorem execOn_eq_finish (i : Instr) (s : State L P) : execOn i s = .next (finish s (commandRule i s)) := by
  cases i <;> rfl

/-- What a completion that answers `t` did: one of the two cases of `finish_cases`. -/
theorem execOn_cases (i : Instr) (s t : State L P) (h : execOn i s = .next t) :
    (∃ s', commandRule i s = .ok s' ∧ t = complete .ok s') ∨
      (∃ c, commandRule i s = .error c ∧ t = complete c s) := by
  rw [execOn_eq_finish] at h
  injection h with h
  exact finish_cases s t _ h

/-- The completion of the pending command is always a next state. -/
theorem completion_eq_next (s : State L P) : ∃ t, completion s = .next t := by
  unfold completion
  split
  · exact ⟨_, execOn_eq_finish _ _⟩
  · exact ⟨_, rfl⟩

/-- Which rules can raise a code, and which code under which condition. -/
theorem commandRule_error (i : Instr) (s : State L P) (c : ErrCode) (h : commandRule i s = .error c) :
    (c = .zeroOperand ∧ i = .gfInv ∧ s.gfA = 0#8) ∨
    (c = .tooManyErrors ∧ i = .rsBm ∧ rsBmOk s = true) ∨
    (c = .locatorMismatch ∧ i = .rsChien ∧ rsChienOk s = true) ∨
    (c = .input ∧
      ((i = .rsEnc ∧ rsWordOk s = false) ∨ (i = .rsSynd ∧ rsWordOk s = false) ∨
        (i = .rsBm ∧ rsBmOk s = false) ∨ (i = .rsChien ∧ rsChienOk s = false) ∨
        (i = .ldpcBp ∧ ldpcOk s = false) ∨ (i = .ldpcBpC ∧ ldpcOk s = false) ∨
        (i = .polarSc ∧ ¬ polarLogn s ≤ s.params.polarLognMax))) := by
  cases i <;> simp only [commandRule] at h
  case nop => cases h
  case hamEnc => cases h
  case hamEncX => cases h
  case hamDec => cases h
  case hamDecX => cases h
  case gfMul => cases h
  case gfInv => unfold gfInvRule at h; split at h <;> simp_all
  case rsEnc => unfold rsEncRule at h; split at h <;> simp_all
  case rsSynd => unfold rsSyndRule at h; split at h <;> simp_all
  case rsBm =>
    unfold rsBmRule at h
    split at h
    · dsimp only at h; split at h <;> simp_all
    · simp_all
  case rsChien =>
    unfold rsChienRule at h
    split at h
    · dsimp only at h; split at h <;> simp_all
    · simp_all
  case ldpcBp => unfold ldpcRule at h; split at h <;> simp_all
  case ldpcBpC => unfold ldpcRule at h; split at h <;> simp_all
  case polarSc => unfold polarRule at h; split at h <;> simp_all

end Sys2Proof.Machine
end

