-- ==== Sys2Proof/Laws/Memory.lean ====
section
/-! SUPPORT. The canonical form of the arrays as a whole: what it says, and that drawing contents and
writing an operand keep it. -/

namespace Sys2Proof.Machine

/-- A property of every value of an array holds after writing a value that has it. -/
theorem cellSet_all {α : Type} [Inhabited α] [DecidableEq α] (P : α → Prop) (c : Cells α) (i : Nat) (v : α)
    (hv : P v) (hc : ∀ e ∈ c, P e.2) : ∀ e ∈ cellSet c i v, P e.2 := by
  induction c with
  | nil => unfold cellSet; split <;> simp_all
  | cons e t ih =>
    obtain ⟨k, w⟩ := e
    have hw : P w := hc (k, w) (by simp)
    have ht : ∀ e ∈ t, P e.2 := fun e he => hc e (by simp [he])
    unfold cellSet
    split
    · split
      · exact hc
      · exact List.forall_mem_cons.mpr ⟨hv, hc⟩
    · split
      · split
        · exact ht
        · exact List.forall_mem_cons.mpr ⟨hv, ht⟩
      · exact List.forall_mem_cons.mpr ⟨hw, ih ht⟩

/-- A property of what an unlisted index reads as and of every value of an array holds of every element read. -/
theorem cellGet_all {α : Type} [Inhabited α] (P : α → Prop) (c : Cells α) (i : Nat) (h0 : P (unlisted α))
    (hc : ∀ e ∈ c, P e.2) : P (cellGet c i) := by
  induction c with
  | nil => exact h0
  | cons e t ih =>
    obtain ⟨k, w⟩ := e
    rw [cellGet_cons]
    split
    · exact hc (k, w) (by simp)
    · exact ih fun e he => hc e (by simp [he])

/-- A property of every value drawn holds of every value of the canonical array. -/
theorem cellsOf_all {α : Type} [Inhabited α] [DecidableEq α] (P : α → Prop) (valid : Nat → Bool)
    (l : List (Nat × α)) (h : ∀ e ∈ l, P e.2) : ∀ e ∈ cellsOf valid l, P e.2 := by
  suffices H : ∀ c : Cells α, (∀ e ∈ c, P e.2) →
      ∀ e ∈ l.foldl (fun c e => if valid e.1 then cellSet c e.1 e.2 else c) c, P e.2 from
    H [] (by simp)
  induction l with
  | nil => exact fun c hc => hc
  | cons e t ih =>
    intro c hc
    refine ih (fun e he => h e (by simp [he])) _ ?_
    dsimp only
    split
    · exact cellSet_all P c e.1 e.2 (h e (by simp)) hc
    · exact hc

variable {L : Type} [DecidableEq L] [Inhabited L] {P : LlrParam L}

/-- The canonical form, part by part. -/
theorem memory_wf_iff (p : Params) (m : Memory L) :
    m.wf p = true ↔
      cellsWf validSymbol m.rsBuf = true ∧ cellsWf (validSyn p) m.rsSyn = true ∧
      cellsWf (validLambda p) m.rsLambda = true ∧ cellsWf validSymbol m.rsPos = true ∧
      m.ldpcRx = keepBits m.ldpcRx p.ldpcNMax ∧ m.ldpcHd = keepBits m.ldpcHd p.ldpcNMax ∧
      m.ldpcSyn = keepBits m.ldpcSyn p.ldpcMMax ∧ cellsWf (validBelief p) m.ldpcBelief = true ∧
      cellsWf (validRow p) m.ldpcH = true ∧ (∀ e ∈ m.ldpcH, e.2 = keepBits e.2 p.ldpcNMax) ∧
      cellsWf (validMessage p) m.ldpcC2v = true ∧ cellsWf (validMessage p) m.ldpcV2c = true ∧
      m.polarFrozen = keepBits m.polarFrozen (polarMax p) ∧
      m.polarRx = keepBits m.polarRx (polarMax p) ∧
      m.polarUhat = keepBits m.polarUhat (polarMax p) ∧
      m.polarXhat = keepBits m.polarXhat (polarMax p) ∧
      m.polarMsg = keepBits m.polarMsg (polarMax p) := by
  simp only [Memory.wf, Bool.and_eq_true, beq_iff_eq, List.all_eq_true, and_assoc]

/-- Drawn contents are in canonical form once brought into it (R402). -/
theorem conform_wf (p : Params) (m : Memory L) : (m.conform p).wf p = true := by
  rw [memory_wf_iff]
  refine ⟨cellsOf_wf _ _, cellsOf_wf _ _, cellsOf_wf _ _, cellsOf_wf _ _, ?_, ?_, ?_, cellsOf_wf _ _,
    cellsOf_wf _ _, ?_, cellsOf_wf _ _, cellsOf_wf _ _, ?_, ?_, ?_, ?_, ?_⟩
  case refine_4 =>
    refine cellsOf_all (fun v => v = keepBits v p.ldpcNMax) _ _ fun e he => ?_
    obtain ⟨a, -, rfl⟩ := List.mem_map.mp he
    simp
  all_goals simp [Memory.conform]

/-- Arrays with nothing listed are in canonical form, whatever the parameters. -/
theorem zero_wf (p : Params) : (Memory.zero : Memory L).wf p = true := by
  rw [memory_wf_iff]
  simp [Memory.zero, cellsWf, keepBits]

/-- Writing an operand location that exists keeps the arrays in canonical form. -/
theorem writeOperand_wf (s : State L P) (v : PortValue L) (l : Location) (hl : l.present s.params = true)
    (hm : s.mem.wf s.params = true) : (writeOperand s v l).mem.wf s.params = true := by
  obtain ⟨h1, h2, h3, h4, h5, h6, h7, h8, h9, h10, h11, h12, h13, h14, h15, h16, h17⟩ :=
    (memory_wf_iff _ _).mp hm
  cases l
  case rsBuf i =>
    exact (memory_wf_iff _ _).mpr ⟨cellSet_wf _ _ _ _ hl h1, h2, h3, h4, h5, h6, h7, h8, h9, h10, h11,
      h12, h13, h14, h15, h16, h17⟩
  case rsSyn i =>
    exact (memory_wf_iff _ _).mpr ⟨h1, cellSet_wf _ _ _ _ hl h2, h3, h4, h5, h6, h7, h8, h9, h10, h11,
      h12, h13, h14, h15, h16, h17⟩
  case rsLambda j =>
    exact (memory_wf_iff _ _).mpr ⟨h1, h2, cellSet_wf _ _ _ _ hl h3, h4, h5, h6, h7, h8, h9, h10, h11,
      h12, h13, h14, h15, h16, h17⟩
  case ldpcRx k =>
    exact (memory_wf_iff _ _).mpr ⟨h1, h2, h3, h4, setBitWord_keepBits _ _ _ _ h5, h6, h7, h8, h9, h10,
      h11, h12, h13, h14, h15, h16, h17⟩
  case ldpcH i k =>
    have hi : validRow s.params i = true := by
      simp only [Location.present, Bool.and_eq_true] at hl; exact hl.1
    have hrow := cellGet_all (fun r => r = keepBits r s.params.ldpcNMax) s.mem.ldpcH i
      (by simp [keepBits]) h10
    exact (memory_wf_iff _ _).mpr ⟨h1, h2, h3, h4, h5, h6, h7, h8, cellSet_wf _ _ _ _ hi h9,
      cellSet_all (fun r => r = keepBits r s.params.ldpcNMax) _ _ _
        (setBitWord_keepBits _ _ _ _ hrow) h10,
      h11, h12, h13, h14, h15, h16, h17⟩
  case polarFrozen k =>
    exact (memory_wf_iff _ _).mpr ⟨h1, h2, h3, h4, h5, h6, h7, h8, h9, h10, h11, h12,
      setBitWord_keepBits _ _ _ _ h13, h14, h15, h16, h17⟩
  case polarRx k =>
    exact (memory_wf_iff _ _).mpr ⟨h1, h2, h3, h4, h5, h6, h7, h8, h9, h10, h11, h12, h13,
      setBitWord_keepBits _ _ _ _ h14, h15, h16, h17⟩
  all_goals exact hm

end Sys2Proof.Machine
end

