-- ==== Sys2Proof/Laws/HostPort.lean ====
section
/-! SUPPORT. What a Host transaction can do, once: a read changes `rdata` and `draws` only; a write falls
under one of the cases of R87. -/

namespace Sys2Proof.Machine

variable {L : Type} {P : LlrParam L}

/-- A read answers the free value or the location's value, and changes nothing else. -/
theorem regRead_cases [Inhabited L] (a : Addr) (s : State L P) :
    (s.status.busy = true ∧ pendingWrites s.cmd (locate s.params a) = true ∧
      regRead a s = { s with
        rdata := some (if (locate s.params a).isLlr then .llr (Config.freeLlr L s.draws)
          else .word (Config.freeWord s.draws))
        draws := s.draws + 1 }) ∨
    ((s.status.busy = false ∨ pendingWrites s.cmd (locate s.params a) = false) ∧
      regRead a s = { s with rdata := some (readLocation s (locate s.params a)) }) := by
  unfold regRead
  dsimp only
  split
  · rename_i h
    simp only [Bool.and_eq_true] at h
    exact .inl ⟨h.1, h.2, rfl⟩
  · rename_i h
    refine .inr ⟨?_, rfl⟩
    cases hb : s.status.busy <;> simp_all

/-- A write, case by case in the order of R87. -/
theorem regWrite_cases (a : Addr) (v : PortValue L) (s : State L P) :
    (locate s.params a = .reserved ∧ regWrite a v s = s) ∨
    (locate s.params a = .status ∧ regWrite a v s = clearStatus (v.toWord P) s) ∨
    (locate s.params a = .ctrl ∧ regWrite a v s = writeCtrl (v.toWord P) s) ∨
    (locate s.params a = .cmd ∧ s.status.busy = true ∧ regWrite a v s = setHaz s) ∨
    (locate s.params a = .cmd ∧ s.status.busy = false ∧ regWrite a v s = launch (v.toWord P) s) ∨
    ((locate s.params a).isOperand = false ∧ regWrite a v s = s) ∨
    ((locate s.params a).isOperand = true ∧ s.status.busy = true ∧ regWrite a v s = setHaz s) ∨
    ((locate s.params a).isOperand = true ∧ s.status.busy = false ∧
      regWrite a v s = writeOperand s v (locate s.params a)) := by
  unfold regWrite
  generalize locate s.params a = l
  cases l <;> cases s.status.busy <;> simp [Location.isOperand]

/-- A write to CTRL, case by case. -/
theorem writeCtrl_cases (w : Word) (s : State L P) :
    (w.getLsbD 1 = false ∧ writeCtrl w s = { s with irqEn := w.getLsbD 0 }) ∨
    (w.getLsbD 1 = true ∧ s.status.busy = true ∧
      writeCtrl w s = setHaz { s with irqEn := w.getLsbD 0 }) ∨
    (w.getLsbD 1 = true ∧ s.status.busy = false ∧ writeCtrl w s = softReset s) := by
  cases h1 : w.getLsbD 1 with
  | false => exact .inl ⟨rfl, by rw [writeCtrl, h1]; rfl⟩
  | true =>
    cases h2 : s.status.busy with
    | true => exact .inr (.inl ⟨rfl, rfl, by rw [writeCtrl, h1, h2]; rfl⟩)
    | false => exact .inr (.inr ⟨rfl, rfl, by rw [writeCtrl, h1, h2]; rfl⟩)

/-- Writing an operand changes operands only: every other part of the state is kept. -/
theorem writeOperand_frame (s : State L P) (v : PortValue L) (l : Location) :
    (writeOperand s v l).params = s.params ∧ (writeOperand s v l).status = s.status ∧
      (writeOperand s v l).cmd = s.cmd ∧ (writeOperand s v l).irqEn = s.irqEn ∧
      (writeOperand s v l).events = s.events ∧ (writeOperand s v l).rdata = s.rdata ∧
      (writeOperand s v l).draws = s.draws := by
  cases l <;> exact ⟨rfl, rfl, rfl, rfl, rfl, rfl, rfl⟩

/-- A Host transaction never touches the schedule or the parameters. -/
theorem hostTxn_frame [Inhabited L] (t : HostTxn L) (s : State L P) :
    (hostTxn t s).events = s.events ∧ (hostTxn t s).params = s.params := by
  cases t with
  | read a =>
    rcases regRead_cases a s with ⟨-, -, h⟩ | ⟨-, h⟩ <;> simp [hostTxn, h]
  | write a v =>
    simp only [hostTxn]
    rcases regWrite_cases a v s with ⟨-, h⟩ | ⟨-, h⟩ | ⟨-, h⟩ | ⟨-, -, h⟩ | ⟨-, -, h⟩ | ⟨-, h⟩ |
      ⟨-, -, h⟩ | ⟨-, -, h⟩
    case inr.inr.inl =>
      rcases writeCtrl_cases (v.toWord P) s with ⟨-, h'⟩ | ⟨-, -, h'⟩ | ⟨-, -, h'⟩ <;> simp [h, h']
    case inr.inr.inr.inr.inr.inr.inr =>
      exact ⟨by rw [h, (writeOperand_frame s v _).2.2.2.2.1], by rw [h, (writeOperand_frame s v _).1]⟩
    all_goals simp [h]

end Sys2Proof.Machine
end

