-- ==== Sys2Proof/Laws/Step.lean ====
section
/-! SUPPORT. What a step can do, once: the next event's effect, and nothing else. -/

namespace Sys2Proof.Machine

variable {L : Type} [DecidableEq L] [Inhabited L] {P : LlrParam L}

/-- The Engine's turn: the completion of the pending command, or nothing. -/
theorem engineTurn_cases (s : State L P) :
    (s.status.busy = false ∧ engineTurn s = .next s) ∨
    (s.status.busy = true ∧ ∃ i, decode s.cmd = .ok i ∧
      engineTurn s = .next (finish s (commandRule i s))) ∨
    (s.status.busy = true ∧ ∃ e, decode s.cmd = .error e ∧
      engineTurn s = .next (complete .illegalCmd s)) := by
  cases hb : s.status.busy with
  | false => exact .inl ⟨rfl, by rw [engineTurn, hb]; rfl⟩
  | true =>
    have hc : engineTurn s = completion s := by rw [engineTurn, hb]; rfl
    cases hd : decode s.cmd with
    | ok i =>
      refine .inr (.inl ⟨rfl, i, rfl, ?_⟩)
      rw [hc, completion, hd]
      exact execOn_eq_finish i s
    | error e =>
      refine .inr (.inr ⟨rfl, e, rfl, ?_⟩)
      rw [hc, completion, hd]
      rfl

/-- A step that answers `t` performed one event: a Host transaction, the reset, or the Engine's turn. -/
theorem stepOn_cases (s t : State L P) (h : stepOn s = .next t) :
    (∃ txn es, s.events = .host txn :: es ∧ t = hostTxn txn { s with events := es }) ∨
    (∃ d es, s.events = .rst d :: es ∧ t = hardReset d { s with events := es }) ∨
    (∃ es, s.events = .engine :: es ∧ engineTurn { s with events := es } = .next t) ∨
    (s.events = [] ∧ engineTurn s = .next t) := by
  unfold stepOn at h
  split at h
  · exact .inr (.inr (.inr ⟨‹_›, h⟩))
  · injection h with h; exact .inl ⟨_, _, ‹_›, h.symm⟩
  · exact .inr (.inr (.inl ⟨_, ‹_›, h⟩))
  · injection h with h; exact .inr (.inl ⟨_, _, ‹_›, h.symm⟩)

end Sys2Proof.Machine
end

