-- ==== Sys2Proof/Laws/EveryCore.lean ====
section
/-! SUPPORT. The machine behind the host's interface is the machine of every number type, at the reference
instantiation, so a statement of every core is proved once. -/

namespace Sys2Proof.Machine

variable {L : Type} [DecidableEq L] [Inhabited L] {P : LlrParam L}

theorem step_eq_stepOn : step = stepOn := rfl

theorem hostMachine_eq : hostMachine = machineOn Llr LlrParam.exact Config.params := by
  rw [hostMachine, machineOn, exec_eq_execOn]
  rfl

/-- A property of the machine of every number type is one of the host's machine too. -/
theorem onEveryCore_iff
    (p : ∀ (L : Type) [DecidableEq L] [Inhabited L] (P : LlrParam L), CoreMachine L P → Prop) :
    onEveryCore p ↔ ∀ (L : Type) [DecidableEq L] [Inhabited L] (P : LlrParam L) (sizes : Params),
      p L P (machineOn L P sizes) :=
  ⟨fun h => h.1, fun h => ⟨h, hostMachine_eq ▸ h Llr LlrParam.exact Config.params⟩⟩

@[simp] theorem machineOn_exec (p : Params) : (machineOn L P p).exec = execOn := rfl
@[simp] theorem machineOn_step (p : Params) : (machineOn L P p).step = stepOn := rfl
@[simp] theorem machineOn_reset (p : Params) : (machineOn L P p).reset = State.initial p := rfl
@[simp] theorem hostMachine_exec : hostMachine.exec = exec := rfl
@[simp] theorem hostMachine_step : hostMachine.step = step := rfl
@[simp] theorem hostMachine_reset : hostMachine.reset = State.reset := rfl
@[simp] theorem hostMachine_core : hostMachine.core = Sys2Proof.core := rfl

end Sys2Proof.Machine
end

