-- ==== Sys2Proof/Laws/HostProgram.lean ====
section
/-! SUPPORT. What each Host program form does: one transaction, the Engine's turn, and RUN on an idle core. -/

namespace Sys2Proof.Machine

variable {L : Type} [DecidableEq L] [Inhabited L] {P : LlrParam L}

/-- A transaction performed is the transaction, whatever else stands in the order. -/
@[simp] theorem perform_host (txn : HostTxn L) (s : State L P) : perform (.host txn) s = hostTxn txn s := rfl

/-- The Engine's turn performed is its next state. -/
theorem perform_engine {s t : State L P} (h : engineTurn s = .next t) : perform .engine s = t := by
  have h' : stepOn { s with events := .engine :: s.events } = .next t := h
  simp only [perform, h']

@[simp] theorem locate_cmd (p : Params) : locate p Location.cmd.addr = .cmd := rfl

@[simp] theorem locate_status (p : Params) : locate p Location.status.addr = .status := rfl

/-- No command word has STATUS in its write set (R144). -/
@[simp] theorem pendingWrites_status (w : Word) : pendingWrites w .status = false := by
  unfold pendingWrites
  split
  · rename_i i _
    cases i <;> rfl
  · rfl

/-- `RD STATUS` answers its current value, busy or not. -/
@[simp] theorem perform_rd_status (s : State L P) :
    perform (rd .status) s = { s with rdata := some (.word (statusWord s.status)) } := by
  rcases regRead_cases Location.status.addr s with ⟨-, h, -⟩ | ⟨-, h⟩
  · simp at h
  · rw [rd, perform_host, hostTxn, h]
    rfl

/-- `CMD` on an idle core launches the command. -/
theorem perform_cmd_idle (i : Instr) (s : State L P) (h : s.status.busy = false) :
    perform (cmdEvent i) s = launch (encode i) s := by
  rw [cmdEvent, wr, perform_host, hostTxn, regWrite, locate_cmd]
  simp [h, PortValue.toWord]

/-- `CMD` while a command is pending is a hazard and launches nothing. -/
theorem perform_cmd_busy (i : Instr) (s : State L P) (h : s.status.busy = true) :
    perform (cmdEvent i) s = setHaz s := by
  rw [cmdEvent, wr, perform_host, hostTxn, regWrite, locate_cmd]
  simp [h]

/-- Bit 0 of the STATUS word is BUSY. -/
@[simp] theorem statusWord_busy (st : Status) : (statusWord st).getLsbD 0 = st.busy := by
  rcases st with ⟨b, d, h, e⟩
  cases b <;> cases d <;> cases h <;> cases e <;> decide

/-- `WAIT` with a command pending: whatever the number of polls, the state of the completion, with STATUS
as the last word read. -/
theorem wait_pending {u : State L P} (n : Nat) (s : State L P) (hb : s.status.busy = true)
    (h : ∀ r, completion { s with rdata := r } = .next { u with rdata := r }) :
    wait n s = { u with rdata := some (.word (statusWord u.status)) } := by
  induction n generalizing s with
  | zero =>
    have he : engineTurn s = .next { u with rdata := s.rdata } := by
      rw [engineTurn, hb]; exact h s.rdata
    rw [wait, perform_engine he, perform_rd_status]
  | succ n ih =>
    rw [wait, perform_rd_status]
    simp only [answer, PortValue.toWord, statusWord_busy, hb, if_true]
    exact ih _ hb fun r => h r

/-- No rule of a command reads or writes the Host's answer. -/
theorem commandRule_rdata (i : Instr) (s : State L P) (r : Option (PortValue L)) :
    commandRule i { s with rdata := r } =
      (commandRule i s).map fun u => { u with rdata := r } := by
  cases i
  case gfInv => simp only [commandRule, gfInvRule]; split <;> rfl
  case rsEnc =>
    simp only [commandRule, rsEncRule]
    rw [show rsWordOk { s with rdata := r } = rsWordOk s from rfl]
    split <;> rfl
  case rsSynd =>
    simp only [commandRule, rsSyndRule]
    rw [show rsWordOk { s with rdata := r } = rsWordOk s from rfl]
    split <;> rfl
  case rsBm =>
    simp only [commandRule, rsBmRule]
    rw [show rsBmOk { s with rdata := r } = rsBmOk s from rfl,
      show rsNsym { s with rdata := r } = rsNsym s from rfl]
    split
    · split <;> rfl
    · rfl
  case rsChien =>
    simp only [commandRule, rsChienRule]
    rw [show rsChienOk { s with rdata := r } = rsChienOk s from rfl,
      show rsErrs { s with rdata := r } = rsErrs s from rfl,
      show rsLength { s with rdata := r } = rsLength s from rfl]
    split
    · split <;> rfl
    · rfl
  case ldpcBp =>
    simp only [commandRule, ldpcRule]
    rw [show ldpcOk { s with rdata := r } = ldpcOk s from rfl]
    split <;> rfl
  case ldpcBpC =>
    simp only [commandRule, ldpcRule]
    rw [show ldpcOk { s with rdata := r } = ldpcOk s from rfl]
    split <;> rfl
  case polarSc =>
    simp only [commandRule, polarRule]
    rw [show polarLogn { s with rdata := r } = polarLogn s from rfl]
    split <;> rfl
  all_goals rfl

/-- A completion carries the Host's answer through. -/
theorem execOn_rdata (i : Instr) (s u : State L P) (r : Option (PortValue L)) (h : execOn i s = .next u) :
    execOn i { s with rdata := r } = .next { u with rdata := r } := by
  rw [execOn_eq_finish] at h ⊢
  injection h with h
  rw [commandRule_rdata, ← h]
  cases commandRule i s <;> rfl

/-- `RUN` on an idle core, whatever the number of polls: the command's own completion, with STATUS as the
word read. -/
theorem run_idle {u : State L P} (i : Instr) (n : Nat) (s : State L P) (hb : s.status.busy = false)
    (hd : decode (encode i) = .ok i) (h : execOn i (launch (encode i) s) = .next u) :
    run i n s = { u with rdata := some (.word (statusWord u.status)) } := by
  have hw := wait_pending (u := u) n (launch (encode i) s) rfl fun r => by
    rw [completion, show ({ launch (encode i) s with rdata := r } : State L P).cmd = encode i from rfl, hd]
    exact execOn_rdata i _ _ r h
  rw [run, perform_cmd_idle i s hb, hw, perform_rd_status]

end Sys2Proof.Machine
end

