-- ==== Sys2Proof/Laws/Llr.lean ====
section
/-! SUPPORT. What the sign operations of 00_scope.md R12 do, in any arithmetic and at the integers. -/

namespace Sys2Proof

variable {L : Type} (A : LlrArith L)

@[simp] theorem LlrArith.signTimes_one (a : L) : A.signTimes 1 a = a := rfl

@[simp] theorem LlrArith.signTimes_neg_one (a : L) : A.signTimes (-1) a = A.neg a := rfl

@[simp] theorem LlrArith.signTimes_zero (a : L) : A.signTimes 0 a = A.zero := rfl

/-- In every `LLR_ARITH` that orders its type, sgn is +1 exactly for the values above 0. -/
theorem LlrParam.sgn_eq_one (P : LlrParam L) (a : L) :
    P.arith.sgn a = 1 ↔ P.arith.lt P.arith.zero a = true := by
  have h := P.ordered
  unfold LlrArith.sgn
  rcases h.total a P.arith.zero with hlt | rfl | hgt
  · have hgt : P.arith.lt P.arith.zero a ≠ true := fun h' =>
      Bool.noConfusion ((h.irrefl a).symm.trans (h.trans _ _ _ hlt h'))
    simp [hlt, hgt]
  · simp [h.irrefl, (h.eq_iff _ _).mpr]
  · have hlt : P.arith.lt a P.arith.zero ≠ true := fun h' =>
      Bool.noConfusion ((h.irrefl a).symm.trans (h.trans _ _ _ h' hgt))
    have heq : P.arith.eq a P.arith.zero ≠ true := fun h' => by
      rw [(h.eq_iff _ _).mp h', h.irrefl] at hgt
      cases hgt
    simp [hlt, heq, hgt]

/-- At the reference instantiation sgn is the sign of a rational number. -/
theorem LlrArith.exact_sgn (a : Rat) :
    LlrArith.exact.sgn a = if a < 0 then -1 else if a = 0 then 0 else 1 := by
  simp [LlrArith.sgn, LlrArith.exact]

/-- On integers sgn is the sign. -/
@[simp] theorem LlrArith.integer_sgn (a : Int) : LlrArith.integer.sgn a = a.sign := by
  rcases lt_trichotomy a 0 with h | h | h
  · simp [LlrArith.sgn, LlrArith.integer, h, Int.sign_eq_neg_one_of_neg h]
  · simp [LlrArith.sgn, LlrArith.integer, h]
  · have h' : ¬ a < 0 := by omega
    have h'' : a ≠ 0 := by omega
    simp [LlrArith.sgn, LlrArith.integer, h', h'', Int.sign_eq_one_of_pos h]

/-- A sign times an integer is their product. -/
theorem LlrArith.integer_signTimes (s a : Int) (h : s = 1 ∨ s = 0 ∨ s = -1) :
    LlrArith.integer.signTimes s a = s * a := by
  rcases h with rfl | rfl | rfl <;> simp [LlrArith.integer]

@[simp] theorem LlrArith.integer_abs (a : Int) : LlrArith.integer.abs a = |a| := by
  by_cases h : a < 0
  · simp [LlrArith.integer, h, abs_of_neg h]
  · simp [LlrArith.integer, h, abs_of_nonneg (not_lt.mp h)]

@[simp] theorem LlrArith.integer_min (a b : Int) : LlrArith.integer.min a b = Min.min a b := by
  rcases le_total a b with h | h
  · simp [LlrArith.integer, h]
  · rcases eq_or_lt_of_le h with rfl | h'
    · simp [LlrArith.integer]
    · simp [LlrArith.integer, not_le.mpr h', min_eq_right h]

namespace Machine

/-- `f` in ordinary integer arithmetic (45_polar.md R323). -/
theorem polarF_eq (a b : Int) : polarF a b = a.sign * b.sign * min |a| |b| := by
  have hs : ∀ x : Int, x.sign = 1 ∨ x.sign = 0 ∨ x.sign = -1 := fun x => by
    rcases lt_trichotomy x 0 with h | h | h
    · exact .inr (.inr (Int.sign_eq_neg_one_of_neg h))
    · exact .inr (.inl (by simp [h]))
    · exact .inl (Int.sign_eq_one_of_pos h)
  have hab : a.sign * b.sign = 1 ∨ a.sign * b.sign = 0 ∨ a.sign * b.sign = -1 := by
    rcases hs a with h | h | h <;> rcases hs b with h' | h' | h' <;> simp [h, h']
  simp [polarF, LlrArith.integer_signTimes _ _ hab]

/-- `g` in ordinary integer arithmetic (45_polar.md R324). -/
theorem polarG_eq (a b : Int) (u : Bool) : polarG a b u = if u then b - a else b + a := by
  cases u
  · simp [polarG]; rfl
  · simp [polarG]; exact (Int.sub_eq_add_neg).symm

end Machine

end Sys2Proof
end

