-- ==== Sys2Proof/Laws/PerInstr.lean ====
section
/-! SUPPORT. Statements made per instruction, one lemma per constructor: decoding a command's word gives
the command back, its word is the one made of its fields, and its fields are well formed. -/

namespace Sys2Proof.Laws.RoundTrip

/-- The word of `i` decodes to `i`, its three fields are those of R112, and they are well formed. -/
def Statement (i : Instr) : Prop :=
  decode (encode i) = .ok i ∧
    (⟨opField (encode i), flagField (encode i), rsvField (encode i)⟩ : CommandFields) = i.fields ∧
    i.wellFormed = true

theorem nop : Statement .nop := by unfold Statement; decide
theorem hamEnc : Statement .hamEnc := by unfold Statement; decide
theorem hamEncX : Statement .hamEncX := by unfold Statement; decide
theorem hamDec : Statement .hamDec := by unfold Statement; decide
theorem hamDecX : Statement .hamDecX := by unfold Statement; decide
theorem gfMul : Statement .gfMul := by unfold Statement; decide
theorem gfInv : Statement .gfInv := by unfold Statement; decide
theorem rsEnc : Statement .rsEnc := by unfold Statement; decide
theorem rsSynd : Statement .rsSynd := by unfold Statement; decide
theorem rsBm : Statement .rsBm := by unfold Statement; decide
theorem rsChien : Statement .rsChien := by unfold Statement; decide
theorem ldpcBp : Statement .ldpcBp := by unfold Statement; decide
theorem ldpcBpC : Statement .ldpcBpC := by unfold Statement; decide
theorem polarSc : Statement .polarSc := by unfold Statement; decide

end Sys2Proof.Laws.RoundTrip
end

