-- ==== Sys2Proof/Tests/Slice0.lean ====
section
/-! SUPPORT. Tests of the model against the spec's own examples (95_test_vectors.md, each vector named), the
ill-formed terms the checks refuse, and one witness for the hypotheses of every statement. -/

namespace Sys2Proof.Tests

open Sys2Proof Sys2Proof.Machine

set_option Elab.async false

/-! ### Helpers -/

/-- The next state of an outcome. -/
def nx (o : Host.Outcome State Fault Refusal) : State :=
  match o with
  | .next t => t
  | .fault f => nomatch f
  | .refused _ => State.reset

/-- The state a command leaves. -/
def after (i : Instr) (s : State) : State := nx (exec i s)

/-- The state after the events of a list have run, one step each. -/
def ran : List Event → State → State
  | [], s => s
  | e :: es, s => ran es (nx (step { s with events := [e] }))

/-- Reset, with Reed–Solomon sizes and the leading symbols of RS_BUF. -/
def rs (k nsym : BitVec 8) (w : List Byte) : State :=
  { State.reset with
    rsK := k, rsNsym := nsym, mem := { Memory.zero with rsBuf := cellSetFrom [] 0 w } }

/-- Reset, with nsym and syndromes. -/
def bm (nsym : BitVec 8) (syn : List Byte) : State :=
  { State.reset with rsNsym := nsym, mem := { Memory.zero with rsSyn := cellSetFrom [] 0 syn } }

/-- Reset, with K = 4, nsym = 4 and a locator. -/
def chien (errs : BitVec 8) (lam : List Byte) : State :=
  { State.reset with
    rsK := 4, rsNsym := 4, rsErrs := errs
    mem := { Memory.zero with rsLambda := cellSetFrom [] 0 lam } }

/-- Reset, with H_EX of 95_test_vectors.md, Lc = 1, the received word and the cap. -/
def ldpc (rx : BitVec 256) (maxit : BitVec 16) : State :=
  { State.reset with
    ldpcM := 4, ldpcN := 8, ldpcMaxit := maxit, ldpcLc := 1
    mem := { Memory.zero with ldpcRx := rx, ldpcH := [(0, 0x0B), (1, 0x16), (2, 0x2C), (3, 0xC1)] } }

/-- Reset, with a polar block. -/
def polar (n : BitVec 4) (frozen rx : BitVec 1024) : State :=
  { State.reset with
    polarLogn := n, mem := { Memory.zero with polarFrozen := frozen, polarRx := rx } }

/-- Reset, with a command pending. -/
def pending (w : Word) : State := launch w State.reset

/-! ### WellFormed: an ill-formed term for each check -/

theorem test_wf_reserved_bits :
    (CommandFields.mk 0x01 false 1).rsvOk = false ∧ (CommandFields.mk 0x01 false 1).wellFormed = false := by
  decide

theorem test_wf_opcode :
    (CommandFields.mk 0x0B false 0).opOk = false ∧ (CommandFields.mk 0x0B false 0).wellFormed = false := by
  decide

theorem test_wf_flag :
    (CommandFields.mk 0x03 true 0).flagOk = false ∧ (CommandFields.mk 0x03 true 0).wellFormed = false := by
  decide

theorem test_wf_every_command :
    (∀ i ∈ [Instr.nop, .hamEnc, .hamEncX, .hamDec, .hamDecX, .gfMul, .gfInv, .rsEnc, .rsSynd, .rsBm,
      .rsChien, .ldpcBp, .ldpcBpC, .polarSc], i.wellFormed = true) := by
  decide

theorem test_params_nsym : ({ Config.params with nsymMax := 256 } : Params).legal = false := by decide

theorem test_params_rows :
    ({ Config.params with ldpcMMax := 0 } : Params).legal = false ∧
      ({ Config.params with ldpcMMax := 257 } : Params).legal = false := by
  decide

theorem test_params_columns :
    ({ Config.params with ldpcNMax := 0 } : Params).legal = false ∧
      ({ Config.params with ldpcNMax := 257 } : Params).legal = false := by
  decide

theorem test_params_polar : ({ Config.params with polarLognMax := 11 } : Params).legal = false := by decide

/-! ### Decoding: words written bit by bit, RSV (23 bits), F, OP (R110, R112) -/

theorem test_decode_control :
    decode (0b00000000000000000000000#23 ++ 0b0#1 ++ 0b00000000#8) = .ok .nop := by decide

theorem test_decode_hamming :
    decode (0b00000000000000000000000#23 ++ 0b0#1 ++ 0b00000001#8) = .ok .hamEnc ∧
      decode (0b00000000000000000000000#23 ++ 0b1#1 ++ 0b00000001#8) = .ok .hamEncX ∧
      decode (0b00000000000000000000000#23 ++ 0b0#1 ++ 0b00000010#8) = .ok .hamDec ∧
      decode (0b00000000000000000000000#23 ++ 0b1#1 ++ 0b00000010#8) = .ok .hamDecX := by
  decide

theorem test_decode_gf28 :
    decode (0b00000000000000000000000#23 ++ 0b0#1 ++ 0b00000011#8) = .ok .gfMul ∧
      decode (0b00000000000000000000000#23 ++ 0b0#1 ++ 0b00000100#8) = .ok .gfInv := by
  decide

theorem test_decode_reed_solomon :
    decode (0b00000000000000000000000#23 ++ 0b0#1 ++ 0b00000101#8) = .ok .rsEnc ∧
      decode (0b00000000000000000000000#23 ++ 0b0#1 ++ 0b00000110#8) = .ok .rsSynd ∧
      decode (0b00000000000000000000000#23 ++ 0b0#1 ++ 0b00000111#8) = .ok .rsBm ∧
      decode (0b00000000000000000000000#23 ++ 0b0#1 ++ 0b00001000#8) = .ok .rsChien := by
  decide

theorem test_decode_ldpc :
    decode (0b00000000000000000000000#23 ++ 0b0#1 ++ 0b00001001#8) = .ok .ldpcBp ∧
      decode (0b00000000000000000000000#23 ++ 0b1#1 ++ 0b00001001#8) = .ok .ldpcBpC := by
  decide

theorem test_decode_polar :
    decode (0b00000000000000000000000#23 ++ 0b0#1 ++ 0b00001010#8) = .ok .polarSc := by decide

/-- The reason of each kind of illegal word (R114; the words of V-CTL-2 to V-CTL-6). -/
theorem test_decode_illegal :
    decode 0x0000000B = .error .unassignedOpcode ∧ decode 0x000000FF = .error .unassignedOpcode ∧
      decode 0x00000103 = .error .flagNotZero ∧ decode 0x00000200 = .error .reservedBits ∧
      decode 0x80000001 = .error .reservedBits := by
  decide

theorem test_decode_table_word :
    decodeTableWord 32 0x101 = some .hamEncX ∧ decodeTableWord 32 0x103 = none := by decide

theorem test_fetch_word :
    step (State.reset.withFetchWord 32 0x3) = exec .gfMul (pending 0x3) := by rfl

/-! ### Control (95_test_vectors.md, V-CTL) -/

/-- V-CTL-1. -/
theorem test_nop :
    readLocation (ran [cmdEvent .nop, .engine] State.reset) .status = .word 0x00000002 := by
  decide +kernel

/-- V-CTL-3: GF.MUL with F = 1. -/
theorem test_illegal_completion :
    readLocation (ran [wr .cmd (.word 0x103), .engine] State.reset) .status = .word 0x00000012 := by
  decide +kernel

/-- V-CTL-7: a CMD write while busy. -/
theorem test_busy_cmd_write :
    let s := ran [cmdEvent .nop, wr .cmd (.word 3), .engine] State.reset
    s.cmd = 0 ∧ readLocation s .status = .word 0x00000006 := by
  decide +kernel

/-- V-CTL-8 and V-CTL-10: an operand write and a read-only write while busy. -/
theorem test_busy_operand_write :
    (regWrite 0x060 (.word 0x12) (pending 0)).gfA = 0 ∧
      (regWrite 0x060 (.word 0x12) (pending 0)).status.haz = true ∧
      regWrite 0x044 (.word 0x55) (pending 0) = pending 0 := by
  decide +kernel

/-- V-CTL-9: SRST while busy. -/
theorem test_busy_soft_reset :
    let s := regWrite 0x010 (.word 3) (pending 0)
    s.irqEn = true ∧ s.status.haz = true ∧ s.status.busy = true := by
  decide +kernel

/-- V-CTL-11: W1C leaves ERR. -/
theorem test_status_write :
    let s := { State.reset with status := { busy := false, done := true, haz := true, err := .illegalCmd } }
    statusWord s.status = 0x16 ∧ statusWord (regWrite 0x014 (.word 6) s).status = 0x10 := by
  decide +kernel

/-- V-CTL-12: the interrupt line. -/
theorem test_irq :
    let s := { State.reset with status := { busy := false, done := true, haz := false, err := .ok } }
    irq s = false ∧ irq (regWrite 0x010 (.word 1) s) = true ∧
      irq (regWrite 0x014 (.word 2) (regWrite 0x010 (.word 1) s)) = false := by
  decide +kernel

/-- V-CTL-13 and V-CTL-14: reserved addresses read 0; ID at an odd address. -/
theorem test_reads :
    (regRead 0x0000C State.reset).rdata = some (.word 0) ∧
      (regRead 0x0FFFC State.reset).rdata = some (.word 0) ∧
      (regRead 0x013FC State.reset).rdata = some (.word 0) ∧
      (regRead 0x001 State.reset).rdata = some (.word 0x46454331) ∧
      (regRead 0x004 State.reset).rdata = some (.word 0x00040010) ∧
      (regRead 0x008 State.reset).rdata = some (.word 0x00100008) := by
  decide +kernel

/-- V-CTL-15: a soft reset clears IRQ_EN and GF_A and keeps the arrays. -/
theorem test_soft_reset :
    let s := { rs 0 0 [7] with irqEn := true, gfA := 0x53 }
    let t := regWrite 0x010 (.word 3) s
    t.irqEn = false ∧ t.gfA = 0 ∧ t.mem = s.mem := by
  decide +kernel

/-- P5: a dropped write, the interrupt and the error completion, in the program's order. -/
theorem test_program_p5 :
    let s := ran [wr .ctrl (.word 1), wr .gfA (.word 0x53), wr .gfB (.word 0xCA), cmdEvent .gfMul,
      wr .gfB (.word 0), .engine] State.reset
    let t := ran [wr .status (.word 6), wr .gfA (.word 0), cmdEvent .gfInv, .engine] s
    s.gfR = 0x8F ∧ statusWord s.status = 0x06 ∧ irq s = true ∧
      statusWord t.status = 0x32 ∧ t.gfR = 0x8F ∧ t.gfB = 0xCA ∧ irq t = true := by
  decide +kernel

/-- An `Llr` cell takes and gives its value unchanged (R89; P3's address of LDPC_LC). -/
theorem test_llr_cell :
    (regRead 0x0CC (regWrite 0x0CC (.llr (5 / 2)) State.reset)).rdata = some (.llr (5 / 2)) := by
  decide +kernel

/-- Words of a bit array: reserved bits ignore the write (R84; LDPC_N_MAX = 16). -/
theorem test_packed_word :
    let s := regWrite 0x02000 (.word 0xFFFF8001) State.reset
    s.mem.ldpcRx = 0x8001 ∧ readLocation s (.ldpcRx 0) = .word 0x8001 := by
  decide +kernel

/-! ### GF(2^8) (V-GF) -/

/-- V-GF-1, V-GF-3, V-GF-5, V-GF-7. -/
theorem test_gf_mul :
    gfmul 0x53 0xCA = 0x8F ∧ gfmul 0x37 0 = 0 ∧ gfmul 0x02 0x80 = 0x1D ∧ gfmul 0xFF 0xFF = 0xE2 := by
  decide +kernel

/-- V-GF-14, V-GF-16 and V-GF-18. -/
theorem test_gf_inv :
    (after .gfInv { State.reset with gfA := 0x53 }).gfR = 0x8C ∧
      (after .gfInv { State.reset with gfA := 0xFF }).gfR = 0xFD ∧
      (after .gfInv { State.reset with gfR := 0x8F }).gfR = 0x8F ∧
      (after .gfInv { State.reset with gfR := 0x8F }).status.err = .zeroOperand := by
  decide +kernel

/-- V-GF-19 to V-GF-22. -/
theorem test_gfdiv :
    gfdiv 0x8F 0xCA = some 0x53 ∧ gfdiv 0 5 = some 0 ∧ gfdiv 1 2 = some 0x8E ∧ gfdiv 7 0 = none := by
  decide +kernel

/-- The EXP table is the one R171 builds, and LOG inverts it (R172). -/
theorem test_tables :
    (∀ i, i < 255 → gfExp i = BitVec.ofNat 8 (expBuilt i)) ∧ ∀ i, i < 255 → gfLog (gfExp i) = i := by
  decide +kernel

/-! ### Hamming (V-HAM) -/

/-- V-HAM-1. -/
theorem test_ham_enc :
    (after .hamEnc { State.reset with hamDin := 0xD }).hamCw = 0x66 ∧
      (after .hamEnc { State.reset with hamDin := 0x8 }).hamCw = 0x4B := by
  decide +kernel

/-- V-HAM-1. -/
theorem test_ham_enc_x :
    (after .hamEncX { State.reset with hamDin := 0xD }).hamCw = 0xCC ∧
      (after .hamEncX { State.reset with hamDin := 0x2 }).hamCw = 0x33 := by
  decide +kernel

/-- V-HAM-2 (k = 4, and bit 7 ignored) and V-HAM-4. -/
theorem test_ham_dec :
    (after .hamDec { State.reset with hamRx := 0x76 }).hamCorr = 0x66 ∧
      hamDstatWord (after .hamDec { State.reset with hamRx := 0x76 }).hamDstat = 0x00000D4D ∧
      (after .hamDec { State.reset with hamRx := 0xE6 }).hamCorr = 0x66 ∧
      hamDstatWord (after .hamDec { State.reset with hamRx := 0x36 }).hamDstat = 0x0000071A := by
  decide +kernel

/-- V-HAM-3 (p0 and position 7) and V-HAM-4. -/
theorem test_ham_dec_x :
    (after .hamDecX { State.reset with hamRx := 0xCD }).hamCorr = 0xCD ∧
      hamDstatWord (after .hamDecX { State.reset with hamRx := 0xCD }).hamDstat = 0x00000D00 ∧
      hamDstatWord (after .hamDecX { State.reset with hamRx := 0x4C }).hamDstat = 0x00000D7F ∧
      hamDstatWord (after .hamDecX { State.reset with hamRx := 0x0C }).hamDstat = 0x00000119 := by
  decide +kernel

/-! ### Reed–Solomon (V-RS) -/

/-- The codeword of V-RS-2 with three of its symbols replaced. -/
def word8 (p0 p1 p2 p3 p5 p7 : Byte) : List Byte := [p0, p1, p2, p3, 0x75, p5, 0xB2, p7]

/-- V-RS-1. -/
theorem test_rs_generator :
    rsGenerator 3 = [0x01, 0x07, 0x0E, 0x08] ∧ rsGenerator 4 = [0x01, 0x0F, 0x36, 0x78, 0x40] := by
  decide +kernel

/-- V-RS-7. -/
theorem test_rs_enc :
    cellList (after .rsEnc (rs 16 10 [0x40, 0xD2, 0x75, 0x47, 0x76, 0x17, 0x32, 0x06, 0x27, 0x26, 0x96,
      0xC6, 0xC6, 0x96, 0x70, 0xEC])).mem.rsBuf 16 10 =
      [0xBC, 0x2A, 0x90, 0x13, 0x6B, 0xAF, 0xEF, 0xFD, 0x4B, 0xE0] := by
  decide +kernel

/-- V-RS-3, V-RS-4, V-RS-8, V-RS-8b. -/
theorem test_rs_enc_corners :
    (after .rsEnc (rs 0 3 [1, 2, 3, 4])).mem.rsBuf = [(3, 4)] ∧
      (after .rsEnc (rs 2 0 [9, 8])).mem.rsBuf = [(0, 9), (1, 8)] ∧
      (after .rsEnc (rs 200 60 [])).status.err = .input ∧ (after .rsEnc (rs 4 17 [])).status.err = .input := by
  decide +kernel

/-- V-RS-9 and V-RS-11. -/
theorem test_rs_synd :
    (after .rsSynd (rs 4 4 (word8 1 2 3 4 0xA3 0x60))).rsSynz = true ∧
      cellList (after .rsSynd (rs 4 4 (word8 0xFE 2 3 4 0xA3 0x61))).mem.rsSyn 0 5 =
        [0xFE, 0x63, 0x56, 0xC9, 0] ∧
      (after .rsSynd (rs 4 4 (word8 0xFE 2 3 4 0xA3 0x61))).rsSynz = false := by
  decide +kernel

/-- V-RS-12. -/
theorem test_rs_bm :
    cellList (after .rsBm (bm 4 [0xA2, 0x06, 0x1B, 0x0C])).mem.rsLambda 0 5 = [0x01, 0x24, 0x80, 0, 0] ∧
      (after .rsBm (bm 4 [0xA2, 0x06, 0x1B, 0x0C])).rsErrs = 2 := by
  decide +kernel

/-- V-RS-14, V-RS-19, V-RS-21, V-RS-24. -/
theorem test_rs_bm_corners :
    (after .rsBm (bm 4 [0x01, 0xE0, 0xAA, 0x7E])).status.err = .tooManyErrors ∧
      (after .rsBm (bm 0 [])).mem.rsLambda = [(0, 1)] ∧
      (after .rsBm (bm 2 [2, 0])).rsErrs = 0 ∧ (after .rsBm (bm 1 [5])).status.err = .tooManyErrors := by
  decide +kernel

/-- V-RS-11. -/
theorem test_rs_chien :
    (after .rsChien (chien 2 [0x01, 0x81, 0x80])).rsNpos = 2 ∧
      cellList (after .rsChien (chien 2 [0x01, 0x81, 0x80])).mem.rsPos 0 2 = [0, 7] := by
  decide +kernel

/-- V-RS-13, V-RS-27, V-RS-29, and V-RS-26 with K = 4. -/
theorem test_rs_chien_corners :
    (after .rsChien (chien 2 [0x01, 0x20, 0xA0])).status.err = .locatorMismatch ∧
      (after .rsChien (chien 0 [1])).status.err = .ok ∧ (after .rsChien (chien 17 [1])).status.err = .input ∧
      (after .rsChien (chien 0 [0])).status.err = .locatorMismatch := by
  decide +kernel

/-- V-RS-9, V-RS-11, V-RS-13 and V-RS-14 through the decode sequence. -/
theorem test_rs_decode :
    (rsDecode 0 0 0 (rs 4 4 (word8 1 2 3 4 0xA3 0x60))).2 = .validNoErrors [1, 2, 3, 4] ∧
      (rsDecode 0 1 2 (rs 4 4 (word8 0xFE 2 3 4 0xA3 0x61))).2 =
        .corrected [0, 7] [some 0xFF, some 0x01] [1, 2, 3, 4] ∧
      (rsDecode 1 0 0 (rs 4 4 (word8 1 0x0F 3 0x17 4 0x60))).2 = .locatorMismatch ∧
      (rsDecode 0 0 0 (rs 4 4 (word8 0 3 2 4 0xA3 0x60))).2 = .tooManyErrors := by
  decide +kernel

/-- R118: the sequence has no stop at INPUT. K + nsym = 256 with SYNZ left at 1 gives valid-no-errors,
and with SYNZ = 0 RS.BM runs on the stored syndromes (V-RS-14's). -/
theorem test_rs_decode_after_input :
    (rsDecode 0 0 0 { rs 250 6 [] with rsK := 250, rsSynz := true }).2 =
        .validNoErrors (List.replicate 250 0) ∧
      (rsDecode 0 0 0 { bm 4 [0x01, 0xE0, 0xAA, 0x7E] with rsK := 252 }).2 = .tooManyErrors := by
  decide +kernel

/-! ### Host programs (R118) -/

/-- P1 from its second line on, as HAM.ROUNDTRIP with error bit 4. -/
theorem test_ham_roundtrip :
    let t := hamRoundtrip 0xD 0x10 2 0 State.reset
    t.hamCw = 0x66 ∧ t.hamRx = 0x76 ∧ t.hamCorr = 0x66 ∧ hamDstatWord t.hamDstat = 0x00000D4D ∧
      runResult t = 0 := by
  decide +kernel

/-- RUN while a command is pending: its CMD write is dropped with HAZ, and WAIT waits for that command. -/
theorem test_run_while_busy :
    let t := run .gfInv 1 (launch 0x3 { State.reset with gfA := 0x53, gfB := 0xCA })
    t.cmd = 0x3 ∧ t.gfR = 0x8F ∧ answer t = 0x6 := by
  decide +kernel

/-- P3: LDPC.BP with MAXIT = 1, then LDPC.STEP. -/
theorem test_ldpc_step :
    let t := ldpcStep 1 (run .ldpcBp 0 (ldpc 0x10 1))
    t.ldpcIters = 2 ∧ t.ldpcConv = true ∧ t.mem.ldpcHd = 0 ∧ t.cmd = 0x109 := by
  decide +kernel

/-! ### LDPC (V-LDPC) -/

/-- sgn and s·a (R12), and the examples of R323 and R324. -/
theorem test_signs :
    LlrArith.exact.sgn (-1/2) = -1 ∧ LlrArith.exact.sgn 0 = 0 ∧ LlrArith.exact.sgn (1/2) = 1 ∧
      LlrArith.exact.signTimes (-1) (1/2) = -1/2 ∧ LlrArith.exact.signTimes 0 (1/2) = 0 ∧
      polarF 0 (-3) = 0 ∧ polarF (-2) (-3) = 2 ∧ polarF 2 (-1) = -1 ∧
      polarG 2 (-1) false = 1 ∧ polarG 2 (-1) true = -3 := by
  decide +kernel

/-- Another number type (R7): integers that count quarters, sums saturated at ±2, products rounded towards 0;
bit k of a word is bit k of the count. -/
def quarters : LlrParam Int where
  arith :=
    { LlrArith.integer with
      add := fun a b => max (-8) (min 8 (a + b))
      sub := fun a b => max (-8) (min 8 (a - b))
      mul := fun a d => (a * d).tdiv 4 }
  ordered :=
    { eq_iff := fun _ _ => decide_eq_true_iff
      irrefl := fun a => decide_eq_false (lt_irrefl a)
      trans := fun _ _ _ h h' => decide_eq_true (lt_trans (of_decide_eq_true h) (of_decide_eq_true h'))
      total := fun a b => (lt_trichotomy a b).imp decide_eq_true (Or.imp_right decide_eq_true) }
  one := 4
  threeQuarters := 3
  threeQuarters_pos := by decide
  threeQuarters_lt_one := by decide
  ofWord w := w.toInt
  toWord a := BitVec.ofInt 32 a

/-- The machine on that type, by hand from R281 to R288 for H_EX, no bit received 1 and Lc = 4 quarters: every
message is 4·3/4 = 3, so the belief of column 6 (one row) is 4 + 3 and that of column 1 (two rows) is
4 + 3 + 3 saturated at 8. A Host writes Lc as a word through this LLR_FORMAT (R89). -/
theorem test_another_number_type :
    let s : State Int quarters :=
      { (State.initial Config.params : State Int quarters) with
        ldpcM := 4, ldpcN := 8, ldpcMaxit := 1
        mem := { Memory.zero with ldpcH := [(0, 0x0B), (1, 0x16), (2, 0x2C), (3, 0xC1)] } }
    let t := run .ldpcBp 0 (regWrite 0x0CC (.word 4) s)
    t.ldpcLc = (4 : Int) ∧ cellGet t.mem.ldpcBelief 6 = 7 ∧ cellGet t.mem.ldpcBelief 1 = 8 ∧
      t.ldpcConv = true ∧ t.status.err = .ok := by
  decide +kernel

/-- V-LDPC-4: the end state. -/
theorem test_ldpc_bp :
    let t := after .ldpcBp (ldpc 0x10 5)
    t.ldpcIters = 2 ∧ t.ldpcConv = true ∧ t.mem.ldpcHd = 0 ∧
      cellList t.mem.ldpcBelief 0 8 = [31/16, 25/16, 1, 11/8, 5/16, 19/16, 7/4, 7/4] ∧
      cellGet t.mem.ldpcC2v (256 + 4) = 21/16 := by
  decide +kernel

/-- V-LDPC-9 and V-LDPC-11 (MAXIT = 0; a row with one edge; a row with none). -/
theorem test_ldpc_bp_corners :
    let t := after .ldpcBp (ldpc 0x22 5)
    let row3 := fun (r : BitVec 256) => { ldpc 0x10 5 with
      mem := { (ldpc 0x10 5).mem with ldpcH := [(0, 0x0B), (1, 0x16), (2, 0x2C)] ++ [(3, r)] } }
    t.ldpcConv = false ∧ t.ldpcIters = 5 ∧ t.mem.ldpcHd = 0x2C ∧ t.mem.ldpcSyn = 0x7 ∧
      cellGet t.mem.ldpcBelief 0 = 1249/1024 ∧ t.status.err = .ok ∧
      (after .ldpcBp (ldpc 0x10 0)).status.err = .input ∧ (after .ldpcBp (row3 0x40)).status.err = .input ∧
      (after .ldpcBp { ldpc 0x10 5 with ldpcDamp := 1 }).status.err = .input := by
  decide +kernel

/-- V-LDPC-10: one iteration, then one more. -/
theorem test_ldpc_bp_c :
    let t := after .ldpcBp (ldpc 0x10 1)
    let u := after .ldpcBpC t
    t.ldpcConv = false ∧ t.ldpcIters = 1 ∧ cellGet t.mem.ldpcBelief 4 = -1/4 ∧
      u.ldpcConv = true ∧ u.ldpcIters = 2 ∧ u.mem = (after .ldpcBp (ldpc 0x10 2)).mem := by
  decide +kernel

/-! ### Polar (V-POL) -/

/-- V-POL-8. -/
theorem test_polar_sc :
    let t := after .polarSc (polar 3 0x17 0xA5)
    t.mem.polarUhat = 0xC8 ∧ t.mem.polarXhat = 0xA5 ∧ t.mem.polarMsg = 0xD ∧ t.polarKinfo = 4 := by
  decide +kernel

/-- V-POL-7 (a zero LLR), V-POL-12 and V-POL-13. -/
theorem test_polar_sc_corners :
    (after .polarSc (polar 2 0x3 0xB)).mem.polarUhat = 0x8 ∧
      (after .polarSc (polar 2 0x3 0xB)).mem.polarXhat = 0xF ∧
      (after .polarSc (polar 3 0 0x5A)).mem.polarUhat = 0x48 ∧
      (after .polarSc (polar 5 0 0)).status.err = .input := by
  decide +kernel

/-- V-POL-15 and the example of R341. -/
theorem test_polar_encoder :
    polarGenerator 2 =
        [[true, false, false, false], [true, true, false, false], [true, false, true, false],
          [true, true, true, true]] ∧
      polarEncode 3 [3, 5, 6, 7] [true, false, true, true] =
        [true, false, true, false, false, true, false, true] := by
  decide +kernel

/-- V-POL-14. -/
theorem test_polar_ranking :
    bhattacharyya (1/2) 2 = [15/16, 9/16, 7/16, 1/16] ∧ channelOrder (1/2) 3 = [7, 6, 5, 3, 4, 2, 1, 0] ∧
      rankedInfo (1/2) 3 4 = [3, 5, 6, 7] ∧ channelOrder 0 2 = [0, 1, 2, 3] := by
  decide +kernel

/-! ### Witnesses: states and operands that meet the hypotheses of each statement -/

/-- The codeword of V-RS-2, and the received word of V-RS-10. -/
def code8 : State := rs 4 4 (word8 1 2 3 4 0xA3 0x60)

/-- Reset, busy with GF.MUL, and one event left. -/
def busyWith (e : Event) : State := { pending 0x3 with events := [e] }

/-- Reset, idle, and one event left. -/
def idleWith (e : Event) : State := { State.reset with events := [e] }

/-- Each clause of R114 at a boundary: bit 9, bit 31, opcodes 0x0B and 0xFF, F with 0x00 and with 0x0A. -/
theorem witness_IllegalWordsCompleteWithIllegalCmd :
    Spec.illegalWord (pending 0x00000200).cmd ∧ Spec.illegalWord (pending 0x80000001).cmd ∧
      Spec.illegalWord (pending 0x0000000B).cmd ∧ Spec.illegalWord (pending 0x000000FF).cmd ∧
      Spec.illegalWord (pending 0x00000100).cmd ∧ Spec.illegalWord (pending 0x0000010A).cmd := by
  unfold Spec.illegalWord; decide +kernel

theorem witness_StepRunsTheDecodedCommand :
    (pending 0x3).status.busy = true ∧ decode (pending 0x3).cmd = .ok .gfMul ∧ (pending 0x3).events = [] ∧
      (busyWith .engine).status.busy = true ∧ decode (busyWith .engine).cmd = .ok .gfMul ∧
      (busyWith .engine).events = .engine :: [] ∧
      3 < 2 ^ 32 ∧ decode (BitVec.ofNat 32 3) = .ok .gfMul := by
  refine ⟨rfl, rfl, rfl, rfl, rfl, rfl, by decide, rfl⟩

theorem witness_StepTakesTheNextEvent :
    (idleWith (.host (.read 0x014))).events = .host (.read 0x014) :: [] ∧
      (idleWith (.host (.write 0x060 (.word 1)))).events = .host (.write 0x060 (.word 1)) :: [] ∧
      (idleWith (.rst Memory.zero)).events = .rst Memory.zero :: [] ∧
      (idleWith .engine).events = .engine :: [] ∧ State.reset.events = [] := by
  refine ⟨rfl, rfl, rfl, rfl, rfl⟩

theorem witness_LaunchedCommandCompletes :
    (busyWith (.host (.read 0x014))).status.busy = true ∧
      ∀ d, Event.rst d ∉ (busyWith (.host (.read 0x014))).events := by
  refine ⟨rfl, fun d h => ?_⟩
  rcases List.mem_singleton.1 h with ⟨⟩

theorem witness_HostCannotDisturbAPendingCommand :
    (busyWith (.host (.write 0x060 (.word 1)))).status.busy = true ∧
      (busyWith (.host (.write 0x060 (.word 1)))).events =
        [HostTxn.write 0x060 (.word 1)].map .host := by
  refine ⟨rfl, rfl⟩

/-- CMD at its own address and at the last byte of its word, idle and busy. -/
theorem witness_CmdWriteLaunchesOrIsAHazard :
    locate State.reset.params 0x018 = .cmd ∧ locate State.reset.params 0x01B = .cmd ∧
      State.reset.status.busy = false ∧ (pending 0).status.busy = true := by
  decide +kernel

theorem witness_CompletionWritesOnlyTheWriteSet :
    exec .gfMul State.reset = .next (after .gfMul State.reset) ∧
      Location.gfA ≠ .status ∧ ¬ Spec.writes .gfMul .gfA ∧
      completion (pending 0x103) = .next (nx (completion (pending 0x103))) ∧
      ¬ Spec.wordWrites (pending 0x103).cmd .gfR := by
  refine ⟨rfl, by decide, by simp [Spec.writes], rfl, ?_⟩
  rintro ⟨i, h, -⟩
  exact absurd (show Except.error IllegalWord.flagNotZero = Except.ok i from h) (by simp)

theorem witness_RepeatedCommandGivesTheSameState :
    code8.inv = true ∧ Instr.rsSynd ≠ .ldpcBpC ∧ exec .rsSynd code8 = .next (after .rsSynd code8) := by
  refine ⟨by decide +kernel, by decide, rfl⟩

theorem witness_ScalarRegisterMap :
    (∃ a : Addr, a.toNat < 0x01000 ∧ a.toNat % 4 = 0 ∧ a ∉ Spec.scalars.map Prod.fst) ∧
      locate Config.params 0x00FFC = .reserved ∧ locate Config.params 0x00104 = .polarKinfo := by
  refine ⟨⟨0x00FFC#20, by decide +kernel⟩, by decide +kernel, by decide +kernel⟩

/-- Each window of R83 at the last valid element of INST-A and at the first reserved one. -/
theorem witness_ArrayWindowMap :
    Config.params.legal = true ∧
      locate Config.params 0x013F8 = .rsBuf 254 ∧ locate Config.params 0x013FC = .reserved ∧
      locate Config.params 0x0143C = .rsSyn 15 ∧ locate Config.params 0x01440 = .reserved ∧
      locate Config.params 0x01840 = .rsLambda 16 ∧ locate Config.params 0x01844 = .reserved ∧
      locate Config.params 0x01FF8 = .rsPos 254 ∧ locate Config.params 0x01FFC = .reserved ∧
      locate Config.params 0x02000 = .ldpcRx 0 ∧ locate Config.params 0x02004 = .reserved ∧
      locate Config.params 0x02100 = .ldpcHd 0 ∧ locate Config.params 0x02104 = .reserved ∧
      locate Config.params 0x02200 = .ldpcSyn 0 ∧ locate Config.params 0x02204 = .reserved := by
  decide +kernel

theorem witness_ArrayWindowMapHigh :
    locate Config.params 0x0243C = .ldpcBelief 15 ∧ locate Config.params 0x02440 = .reserved ∧
      locate Config.params 0x04000 = .polarFrozen 0 ∧ locate Config.params 0x04004 = .reserved ∧
      locate Config.params 0x04100 = .polarRx 0 ∧ locate Config.params 0x04200 = .polarUhat 0 ∧
      locate Config.params 0x04300 = .polarXhat 0 ∧ locate Config.params 0x04400 = .polarMsg 0 ∧
      locate Config.params 0x100E0 = .ldpcH 7 0 ∧ locate Config.params 0x10100 = .reserved ∧
      locate Config.params 0x21C3C = .ldpcC2v 7 15 ∧ locate Config.params 0x21C40 = .reserved ∧
      locate Config.params 0x61C3C = .ldpcV2c 7 15 ∧ locate Config.params 0x61C40 = .reserved ∧
      locate Config.params 0xA0000 = .reserved ∧ locate Config.params 0xFFFFF = .reserved := by
  decide +kernel

theorem witness_ReservedAddressesReadZeroAndIgnoreWrites :
    locate State.reset.params 0x0000C = .reserved ∧ locate State.reset.params 0xFFFFC = .reserved := by
  decide +kernel

theorem witness_EveryLocationReadsItsFields : readLocation State.reset .status = .word 0 := by
  decide +kernel

/-- The three cases of RegRead: idle, busy outside the write set, busy inside it. -/
theorem witness_ReadsAnswerAndChangeNothing :
    State.reset.status.busy = false ∧
      ¬ Spec.wordWrites (pending 3).cmd (locate (pending 3).params 0x060) ∧
      (pending 3).status.busy = true ∧
      Spec.wordWrites (pending 3).cmd (locate (pending 3).params 0x068) := by
  have h : locate (pending 3).params 0x060 = .gfA ∧ locate (pending 3).params 0x068 = .gfR := by
    decide +kernel
  rw [h.1, h.2]
  refine ⟨rfl, ?_, rfl, .gfMul, rfl, rfl⟩
  rintro ⟨i, hd, hw⟩
  cases (show Except.ok Instr.gfMul = Except.ok i from hd)
  exact absurd hw (by simp [Spec.writes])

theorem witness_OperandWritesStoreTheirFieldBits :
    State.reset.inv = true ∧ Spec.rw (.rsBuf 254) ∧ Location.present State.reset.params (.rsBuf 254) = true ∧
      Spec.rw .ldpcLc ∧ Location.present State.reset.params .ldpcLc = true ∧
      Location.rsBuf 253 ≠ .rsBuf 254 := by
  refine ⟨by decide +kernel, trivial, by decide +kernel, trivial, by decide +kernel, by decide⟩

theorem witness_OperandWritesAreStoredOrDroppedWithHaz :
    (pending 0).status.busy = true ∧ State.reset.status.busy = false ∧
      Spec.rw (locate State.reset.params 0x060) ∧ locate State.reset.params 0x018 = .cmd ∧
      ¬ Spec.rw (locate State.reset.params 0x044) ∧
      locate State.reset.params 0x044 ∉ [.ctrl, .status, .cmd] := by
  have h : locate State.reset.params 0x060 = .gfA ∧ locate State.reset.params 0x044 = .hamCw := by
    decide +kernel
  rw [h.1, h.2]
  exact ⟨rfl, rfl, trivial, by decide +kernel, fun h => h, by decide⟩

theorem witness_StatusAndCtrlReadTheirFieldsAndTakeTheirWrites :
    locate State.reset.params 0x014 = .status ∧ locate State.reset.params 0x010 = .ctrl ∧
      ((PortValue.word 1).toWord LlrParam.exact).getLsbD 1 = false := by
  decide +kernel

theorem witness_IdentificationIsConstant :
    State.reset.params.legal = true ∧ step State.reset = .next State.reset := by
  refine ⟨by decide, rfl⟩

/-- For TablesAreTheConstructedOnes, GfinvAndGfdivUndoMultiplication and GfInvWritesTheInverseOrRaises. -/
theorem witness_Gf :
    (2#8 ≠ 0#8) ∧ State.reset.gfA = 0#8 ∧ ({ State.reset with gfA := 2 } : State).gfA ≠ 0#8 ∧
      (254 < 255) ∧ 255 ≤ 511 ∧ 511 < 512 := by
  decide +kernel

/-- For RsInputChecks: R231 at its boundaries: 4 + 4 ≤ 255 met, nsym = 17 > NSYM_MAX and K + nsym = 256
refused. -/
theorem witness_RsInputChecks :
    Spec.wordLegal code8 ∧ ¬ Spec.wordLegal (rs 4 17 []) ∧ ¬ Spec.wordLegal (rs 250 6 []) ∧
      Spec.wordLegal (rs 249 6 []) ∧ Spec.chienLegal (chien 16 [1]) ∧ ¬ Spec.chienLegal (chien 17 [1]) := by
  unfold Spec.chienLegal Spec.wordLegal; decide +kernel

/-- For RsEncMakesACodeword and RsSyndEvaluatesTheWord. -/
theorem witness_RsEnc : code8.inv = true ∧ Spec.wordLegal code8 := by
  refine ⟨by decide +kernel, ?_⟩; unfold Spec.wordLegal; decide +kernel

/-- For BerlekampMasseyLoopInvariant: the discrepancy 0 (V-RS-20) and another (V-RS-24). -/
theorem witness_BerlekampMasseyLoopInvariant :
    (Spec.xorSum (bmLoop [0] 0).lam.length fun j =>
        gfmul ((bmLoop [0] 0).lam.getD j 0) (([0] : List Byte).getD (0 - j) 0)) = 0 ∧
      (Spec.xorSum (bmLoop [5] 0).lam.length fun j =>
        gfmul ((bmLoop [5] 0).lam.getD j 0) (([5] : List Byte).getD (0 - j) 0)) ≠ 0 := by
  decide +kernel

theorem witness_BerlekampMasseyGeneratesTheSyndromes :
    (bmLoop [0x10, 0x74, 0x4C, 0xEA] 4).lam.length ≤ 3 + 1 ∧ 3 < 4 := by
  decide +kernel

/-- Both outcomes of RS.BM: V-RS-12 and V-RS-14. -/
theorem witness_RsBmWritesTheLocatorOrRaises :
    (bm 4 [0xA2, 0x06, 0x1B, 0x0C]).inv = true ∧ (bm 4 [0x01, 0xE0, 0xAA, 0x7E]).inv = true ∧
      (bm 4 [0xA2, 0x06, 0x1B, 0x0C]).rsNsym.toNat ≤ 16 ∧
      (bmLoop [0xA2, 0x06, 0x1B, 0x0C] 4).lam.getD 2 0 ≠ 0 ∧
      (bmLoop [0x01, 0xE0, 0xAA, 0x7E] 4).lam.getD 3 0 ≠ 0 := by
  decide +kernel

/-- Both outcomes of RS.CHIEN: V-RS-25 and V-RS-13. -/
theorem witness_RsChienFindsTheRootsOrRaises :
    (chien 1 [0x01, 0x40]).inv = true ∧ (chien 2 [0x01, 0x20, 0xA0]).inv = true ∧
      Spec.chienLegal (chien 1 [0x01, 0x40]) ∧ Spec.chienLegal (chien 2 [0x01, 0x20, 0xA0]) ∧
      ((List.range 8).filter fun p =>
        Spec.locatorAt (fun j => cellGet (chien 1 [0x01, 0x40]).mem.rsLambda j) 1 8 p == 0#8) = [1] ∧
      ((List.range 8).filter fun p =>
        Spec.locatorAt (fun j => cellGet (chien 2 [0x01, 0x20, 0xA0]).mem.rsLambda j) 2 8 p == 0#8) = [] := by
  unfold Spec.chienLegal Spec.wordLegal; decide +kernel

/-- V-RS-9: no error; V-RS-10: error 10 at position 1. -/
theorem witness_RsDecodeCorrectsUpToOneError :
    let s := rs 4 4 (word8 1 0x12 3 4 0xA3 0x60)
    s.inv = true ∧ s.status.busy = false ∧ Spec.wordLegal s ∧ 2 ≤ s.rsNsym.toNat ∧ 1 < 8 ∧
      0x10#8 ≠ 0#8 ∧
      (∀ i, i < 4 →
        Spec.wordAt (fun q => if q = 1 then Spec.buf s q ^^^ 0x10 else Spec.buf s q) 8 i = 0) ∧
      code8.inv = true ∧ code8.status.busy = false ∧ Spec.wordLegal code8 ∧
      ∀ i, i < 4 → Spec.wordAt (Spec.buf code8) 8 i = 0 := by
  unfold Spec.wordLegal; decide +kernel

/-- For LdpcInputChecks, LdpcOutputsSatisfyTheIterationRules, LdpcCountsItsIterations,
LdpcCheckMessageIsDampedMinSum and LdpcDecisionsDoNotDependOnScale, with LDPC.BP and LDPC.BP.C alike. -/
theorem witness_Ldpc :
    (ldpc 0x10 5).inv = true ∧ Spec.ldpcLegal (ldpc 0x10 5) ∧ ¬ Spec.ldpcLegal (ldpc 0x10 0) ∧
      Spec.ldpcLegal (ldpc 0x10 1) ∧ (ldpc 0x10 1).ldpcMaxit = 1#16 ∧ (0 : Rat) < 5 / 2 := by
  unfold Spec.ldpcLegal; decide +kernel

/-- An array that lists nothing outside an M×N corner reads as unlisted there. -/
theorem cellGet_outside_corner (c : Cells Rat) (m n r j : Nat)
    (h : c.all (fun e => decide (e.1 / 256 < m ∧ e.1 % 256 < n)) = true) (hj : j < 256) (ho : m ≤ r ∨ n ≤ j) :
    cellGet c (256 * r + j) = unlisted Rat := by
  induction c with
  | nil => rfl
  | cons e c ih =>
    obtain ⟨⟨h1, h2⟩, hc⟩ := by simpa only [List.all_cons, Bool.and_eq_true, decide_eq_true_eq] using h
    rw [cellGet_cons, if_neg (by omega), ih hc]

/-- A decode's state, and the same with the channel LLR on every edge of H_EX. -/
theorem witness_LdpcStartsFromTheChannel :
    let s := after .ldpcBp (ldpc 0x10 1)
    let s' := { s with
      ldpcIters := 0, mem := { s.mem with ldpcV2c := setRows [] 0 (startMessages LlrArith.exact (ldpcConfig s)) } }
    s.inv = true ∧ s'.inv = true ∧ Spec.ldpcLegal s ∧ s'.mem.ldpcV2c ≠ s.mem.ldpcV2c ∧
      s' = { s with ldpcIters := 0#32, mem := { s.mem with ldpcV2c := s'.mem.ldpcV2c } } ∧
      (∀ r, r < 4 → ∀ j, j < 8 → Spec.edge s r j = true → Spec.v2c s' r j = Spec.channel s j) ∧
      ∀ r j, j < 256 → s.ldpcM.toNat ≤ r ∨ s.ldpcN.toNat ≤ j → Spec.v2c s' r j = Spec.v2c s r j := by
  refine ⟨by decide +kernel, by decide +kernel, by unfold Spec.ldpcLegal; decide +kernel, by decide +kernel, rfl,
    by decide +kernel, fun r j hj ho => ?_⟩
  have h : (after .ldpcBp (ldpc 0x10 1)).ldpcM.toNat = 4 ∧ (after .ldpcBp (ldpc 0x10 1)).ldpcN.toNat = 8 := by
    decide +kernel
  replace ho : 4 ≤ r ∨ 8 ≤ j := by rwa [h.1, h.2] at ho
  exact (cellGet_outside_corner _ 4 8 r j (by decide +kernel) hj ho).trans
    (cellGet_outside_corner _ 4 8 r j (by decide +kernel) hj ho).symm

/-- V-LDPC-10: one iteration that does not converge, then one more; two iterations that do. With LDPC.BP, and
with LDPC.BP.C from a decode's messages. -/
theorem witness_LdpcContinueAddsIterations :
    let cap := fun s (n : BitVec 16) => ({ s with ldpcMaxit := n } : State)
    let s := ldpc 0x10 5
    let t := after .ldpcBp (cap s 1)
    let z := { s with mem := { s.mem with ldpcV2c := setRows [] 0 (startMessages LlrArith.exact (ldpcConfig s)) } }
    let w := after .ldpcBpC (cap z 1)
    s.inv = true ∧ z.inv = true ∧ Spec.ldpcLegal (cap s 1) ∧ Spec.ldpcLegal (cap s 2) ∧
      Spec.ldpcLegal (cap z 1) ∧ Spec.ldpcLegal (cap z 2) ∧
      exec .ldpcBp (cap s 1) = .next t ∧ t.ldpcConv = false ∧
      exec .ldpcBpC (cap t 1) = .next (after .ldpcBpC (cap t 1)) ∧
      exec .ldpcBp (cap s 2) = .next (after .ldpcBp (cap s 2)) ∧
      (after .ldpcBp (cap s 2)).ldpcConv = true ∧
      exec .ldpcBpC (cap z 1) = .next w ∧ w.ldpcConv = false ∧
      exec .ldpcBpC (cap w 1) = .next (after .ldpcBpC (cap w 1)) ∧
      exec .ldpcBpC (cap z 2) = .next (after .ldpcBpC (cap z 2)) ∧
      (after .ldpcBpC (cap z 2)).ldpcConv = true := by
  refine ⟨by decide +kernel, by decide +kernel, ?_, ?_, ?_, ?_, rfl, by decide +kernel, rfl, rfl,
    by decide +kernel, rfl, by decide +kernel, rfl, rfl, by decide +kernel⟩ <;>
    (unfold Spec.ldpcLegal; decide +kernel)

/-- The sizes of R405: one row of no edge and one column are legal after the reset of a core that has them. -/
theorem witness_ResetLeavesTheTabledValues :
    1 ≤ (1#9).toNat ∧ (1#9).toNat ≤ State.reset.params.ldpcMMax ∧
      (1#9).toNat ≤ State.reset.params.ldpcNMax ∧ 1 ≤ (1#16).toNat ∧
      ∀ i, i < 1 →
        Spec.rowWeight { State.reset with ldpcM := 1, ldpcN := 1, ldpcMaxit := 1 } i ≠ 1 := by
  decide +kernel

theorem witness_LdpcAllZeroWordConvergesAtOnce :
    Spec.ldpcLegal (ldpc 0 5) ∧ 0 ≤ (ldpc 0 5).ldpcLc ∧
      ∀ j, j < (ldpc 0 5).ldpcN.toNat → (ldpc 0 5).mem.ldpcRx.getLsbD j = false := by
  unfold Spec.ldpcLegal; decide +kernel

/-- For PolarInputCheck, PolarOutputsAreConsistent and PolarDecisionsFollowTheRecursion: n at
POLAR_LOGN_MAX and one above it; n = 0 and n = 1. -/
theorem witness_Polar :
    (polar 4 0 0).inv = true ∧ (polar 4 0 0).polarLogn.toNat ≤ (polar 4 0 0).params.polarLognMax ∧
      (polar 5 0 0).params.polarLognMax < (polar 5 0 0).polarLogn.toNat ∧
      (polar 0 0 1).inv = true ∧ (polar 0 0 1).polarLogn = 0#4 ∧
      (polar 1 1 3).inv = true ∧ (polar 1 1 3).polarLogn = 1#4 ∧ 1 ≤ (polar 1 1 3).params.polarLognMax := by
  decide +kernel

/-- The codeword of V-POL-8: u = 0xC8, x = 0xA5. -/
theorem witness_PolarDecodesCleanCodewords :
    (polar 3 0x17 0xA5).inv = true ∧
      (∀ j, j < 8 → (0x17#1024).getLsbD j = true → (0xC8#8).getLsbD j = false) ∧
      ∀ j, j < 8 → (0xA5#1024).getLsbD j = Spec.polarCode 3 (fun i => (0xC8#8).getLsbD i) j := by
  decide +kernel

/-- A command that raises, and an illegal word. -/
theorem witness_ErrorCompletionWritesStatusOnly :
    exec .gfInv State.reset = .next (after .gfInv State.reset) ∧
      (after .gfInv State.reset).status.err ≠ .ok ∧
      completion (pending 0xB) = .next (nx (completion (pending 0xB))) ∧
      (nx (completion (pending 0xB))).status.err ≠ .ok := by
  refine ⟨rfl, by decide +kernel, rfl, by decide +kernel⟩

theorem witness_EachCodeComesFromItsCommands :
    exec .nop State.reset = .next (after .nop State.reset) := by rfl

/-- Each clause of the interrupt statement. -/
theorem witness_InterruptRisesAndFalls :
    exec .nop State.reset = .next (after .nop State.reset) ∧
      locate State.reset.params 0x010 = .ctrl ∧ locate State.reset.params 0x014 = .status ∧
      locate State.reset.params 0x018 = .cmd ∧ (2#32).getLsbD 1 = true ∧ (1#32).getLsbD 0 = true ∧
      (1#32).getLsbD 1 = false ∧ (0#32).getLsbD 0 = false ∧ State.reset.status.busy = false ∧
      (after .nop State.reset).status.done = true := by
  refine ⟨rfl, by decide +kernel⟩

/-- For OnlyBusyWindowViolationsSetHaz and WhatMovesBusyAndDone, a step of each kind: a
launch, a completion, a violation, a clear. -/
theorem witness_StatusSteps :
    let launchStep := idleWith (cmdEvent .nop)
    let violation := busyWith (wr .gfA (.word 1))
    let clear := { idleWith (wr .status (.word 4)) with
      status := { busy := false, done := false, haz := true, err := .ok } }
    step launchStep = .next (nx (step launchStep)) ∧ (nx (step launchStep)).status.busy = true ∧
      step (pending 0) = .next (nx (step (pending 0))) ∧ (nx (step (pending 0))).status.busy = false ∧
      step violation = .next (nx (step violation)) ∧ violation.status.haz = false ∧
      (nx (step violation)).status.haz = true ∧
      step clear = .next (nx (step clear)) ∧ (nx (step clear)).status.haz = false ∧
      launchStep.status.busy = false ∧ (pending 0).status.done = false ∧
      (nx (step (pending 0))).status.done = true := by
  refine ⟨rfl, by decide +kernel, rfl, by decide +kernel, rfl, rfl, by decide +kernel, rfl,
    by decide +kernel, rfl, rfl, by decide +kernel⟩

/-- For WhatMovesBusyAndDone: DONE = 1, and each event that lowers it. -/
theorem witness_DoneFalls :
    let done := fun e => { idleWith e with
      status := { busy := false, done := true, haz := false, err := .ok } }
    (∀ e, (done e).status.done = true) ∧
      (nx (step (done (wr .status (.word 2))))).status.done = false ∧
      (nx (step (done (cmdEvent .nop)))).status.done = false ∧
      (nx (step (done (wr .ctrl (.word 2))))).status.done = false ∧
      (nx (step (done (.rst Memory.zero)))).status.done = false := by
  refine ⟨fun _ => rfl, by decide +kernel⟩

theorem witness_HardResetDrawsArraysSoftResetKeepsThem :
    (busyWith (.rst code8.mem)).events = .rst code8.mem :: [] ∧
      code8.mem.wf (busyWith (.rst code8.mem)).params = true ∧
      locate State.reset.params 0x010 = .ctrl ∧ State.reset.status.busy = false ∧
      (2#32).getLsbD 1 = true := by
  refine ⟨rfl, by decide +kernel⟩

theorem witness_SoftResetWhileBusyIsAHazard :
    locate (pending 0).params 0x010 = .ctrl ∧ (pending 0).status.busy = true ∧ (3#32).getLsbD 1 = true := by
  decide +kernel

theorem witness_StepKeepsTheInvariant :
    code8.inv = true ∧ step code8 = .next code8 ∧ (pending 0x3).inv = true ∧
      step (pending 0x3) = .next (nx (step (pending 0x3))) := by
  refine ⟨by decide +kernel, rfl, by decide +kernel, rfl⟩

end Sys2Proof.Tests
end

/-! ### The address map -/

namespace Sys2Proof.Machine

/-- What an address can reach on a core of sizes `p`: no location, or one that exists (R83, R84). -/
def Location.presentOrReserved (p : Params) (l : Location) : Prop := l = .reserved ∨ l.present p = true

theorem presentOrReserved_ite (p : Params) (c : Prop) [Decidable c] (l l' : Location)
    (h : c → l.presentOrReserved p) (h' : l'.presentOrReserved p) :
    (if c then l else l').presentOrReserved p := by
  split
  · exact h ‹c›
  · exact h'

theorem presentOrReserved_scalarMap (p : Params) (a : Nat) :
    ((scalarMap.lookup a).getD .reserved).presentOrReserved p := by
  cases hl : scalarMap.lookup a with
  | none => exact .inl rfl
  | some l =>
    have hmem : ∀ e ∈ scalarMap, e.2.present p = true := by simp [scalarMap, Location.present]
    obtain ⟨l₁, l₂, h, -⟩ := List.lookup_eq_some_iff.mp hl
    exact .inr (hmem (a, l) (by simp [h]))

/-- The map is one chain of windows, each checking its element: at every link the claim passes to the window's
location and to the rest of the chain. -/
theorem presentOrReserved_locate (p : Params) (a : Addr) : (locate p a).presentOrReserved p := by
  unfold locate locateWord
  simp only [ifValid]
  refine presentOrReserved_ite _ _ _ _ (fun _ => presentOrReserved_scalarMap p _) ?_
  repeat' refine presentOrReserved_ite _ _ _ _ (fun _ => ?_) ?_
  all_goals simp_all [Location.presentOrReserved, Location.present, validMessage]

/-- A location with an operand that an address reaches exists. -/
theorem present_locate_of_isOperand (p : Params) (a : Addr) (h : (locate p a).isOperand = true) :
    (locate p a).present p = true := by
  rcases presentOrReserved_locate p a with h' | h'
  · rw [h'] at h
    cases h
  · exact h'

end Sys2Proof.Machine

/-! ### How long the lists are that the commands write -/

namespace Sys2Proof.Machine

theorem length_polyXor (p q : List Byte) : (polyXor p q).length = max p.length q.length := by
  induction p, q using polyXor.induct with
  | case1 q => simp [polyXor]
  | case2 p h => cases p <;> simp [polyXor]
  | case3 a p b q ih => simp [polyXor, ih]

/-- A product with a factor of degree 1 is one coefficient longer. -/
theorem length_polyMul_linear (p q : List Byte) (hp : p ≠ []) (hq : q.length = 2) :
    (polyMul p q).length = p.length + 1 := by
  induction p with
  | nil => exact absurd rfl hp
  | cons a p ih =>
    by_cases hp' : p = []
    · simp [hp', polyMul, length_polyXor, polyScale, hq]
    · simp [polyMul, length_polyXor, polyScale, hq, ih hp']

@[simp] theorem length_rsGenerator (n : Nat) : (rsGenerator n).length = n + 1 := by
  induction n with
  | zero => rfl
  | succ n ih =>
    have hne : rsGenerator n ≠ [] := List.ne_nil_of_length_eq_add_one ih
    rw [rsGenerator, length_polyMul_linear _ _ hne rfl, ih]

/-- A division step leaves the buffer's length alone where the divisor's tail fits it. -/
theorem length_rsDivideStep (g : List Byte) (coef : Byte) (rest : List Byte)
    (h : g.length - 1 ≤ rest.length) : (rsDivideStep g coef rest).length = rest.length := by
  unfold rsDivideStep
  split
  · simpa [length_polyXor] using h
  · rfl

theorem length_rsDivide (g : List Byte) (k : Nat) (buf : List Byte)
    (h : k + (g.length - 1) ≤ buf.length) : (rsDivide g k buf).length = buf.length - k := by
  induction k generalizing buf with
  | zero => rfl
  | succ k ih =>
    cases buf with
    | nil => simp at h
    | cons coef rest =>
      rw [List.length_cons] at h
      have hs := length_rsDivideStep g coef rest (by omega)
      rw [rsDivide, ih _ (by omega), hs, List.length_cons, Nat.add_sub_add_right]

/-- RS.ENC writes nsym symbols (R233). -/
@[simp] theorem length_rsParity (nsym : Nat) (msg : List Byte) : (rsParity nsym msg).length = nsym := by
  rw [rsParity, length_rsDivide _ _ _ (by simp)]
  simp

@[simp] theorem length_rsSyndromes (nsym : Nat) (word : List Byte) :
    (rsSyndromes nsym word).length = nsym := by
  simp [rsSyndromes]

@[simp] theorem length_bmOutput (lam : List Byte) (errs nsym : Nat) :
    (bmOutput lam errs nsym).length = nsym + 1 := by
  simp [bmOutput]

theorem length_chienRoots_le (lam : List Byte) (n : Nat) : (chienRoots lam n).length ≤ n := by
  unfold chienRoots
  simpa only [List.length_range] using List.length_filter_le _ (List.range n)

/-- Both results of the recursion have the block's length, whatever the LLRs (R325). -/
theorem length_polarSc (frozen : BitVec 1024) (n : Nat) (lv : List Int) (off : Nat) :
    (polarSc frozen n lv off).1.length = 2 ^ n ∧ (polarSc frozen n lv off).2.length = 2 ^ n := by
  induction n generalizing lv off with
  | zero => exact ⟨rfl, rfl⟩
  | succ n ih =>
    simp only [polarSc, List.length_append, List.length_zipWith, ih, Nat.pow_succ]
    omega

theorem length_polarDecoded {L : Type} {P : LlrParam L} (s : State L P) :
    (polarDecoded s).1.length = 2 ^ polarLogn s ∧ (polarDecoded s).2.length = 2 ^ polarLogn s :=
  length_polarSc _ _ _ _

theorem length_infoPositions_le (frozen : BitVec 1024) (len : Nat) :
    (infoPositions frozen len).length ≤ len := by
  unfold infoPositions
  simpa only [List.length_range] using List.length_filter_le _ (List.range len)

/-! ### The shape of an LDPC iteration -/

/-- An M×N matrix, as a list of rows. -/
def IsMatrix {α : Type} (m n : Nat) (x : List (List α)) : Prop :=
  x.length = m ∧ ∀ row ∈ x, row.length = n

theorem IsMatrix.map {α β : Type} {m n : Nat} {x : List (List α)} (hx : IsMatrix m n x)
    (f : List α → List β) (hf : ∀ row, row.length = n → (f row).length = n) : IsMatrix m n (x.map f) := by
  refine ⟨by simp [hx.1], fun row hrow => ?_⟩
  obtain ⟨a, ha, rfl⟩ := List.mem_map.mp hrow
  exact hf a (hx.2 a ha)

theorem IsMatrix.mapIdx {α β : Type} {m n : Nat} {x : List (List α)} (hx : IsMatrix m n x)
    (f : Nat → List α → List β) (hf : ∀ i row, row.length = n → (f i row).length = n) :
    IsMatrix m n (x.mapIdx f) := by
  refine ⟨by simp [hx.1], fun row hrow => ?_⟩
  obtain ⟨i, hi, rfl⟩ := List.mem_mapIdx.mp hrow
  exact hf _ _ (hx.2 _ (List.getElem_mem hi))

theorem IsMatrix.zipWith {α β γ : Type} {m n : Nat} {x : List (List α)} {y : List (List β)}
    (hx : IsMatrix m n x) (hy : IsMatrix m n y) (f : List α → List β → List γ)
    (hf : ∀ a b, a.length = n → b.length = n → (f a b).length = n) :
    IsMatrix m n (List.zipWith f x y) := by
  refine ⟨by simp [hx.1, hy.1], fun row hrow => ?_⟩
  obtain ⟨i, hi, rfl⟩ := List.mem_iff_getElem.mp hrow
  rw [List.getElem_zipWith]
  exact hf _ _ (hx.2 _ (List.getElem_mem _)) (hy.2 _ (List.getElem_mem _))

section Shapes

variable {L : Type}

@[simp] theorem length_maskRow (A : LlrArith L) (row : List Bool) (vals : List L) :
    (maskRow A row vals).length = min row.length vals.length := by
  simp [maskRow]

@[simp] theorem length_channelLlrs (A : LlrArith L) (lc : L) (rx : List Bool) :
    (channelLlrs A lc rx).length = rx.length := by
  simp [channelLlrs]

@[simp] theorem length_checkRow (A : LlrArith L) (damp : L) (row : List Bool) (v : List L) :
    (checkRow A damp row v).length = row.length := by
  simp [checkRow]

@[simp] theorem length_varRow (A : LlrArith L) (belief : List L) (row : List Bool) (c2v : List L) :
    (varRow A belief row c2v).length = min row.length (min belief.length c2v.length) := by
  simp [varRow]

/-- The lists of an iteration of a code with M checks and N variables. -/
structure LdpcIteration.Shaped (m n : Nat) (r : LdpcIteration L) : Prop where
  c2v : IsMatrix m n r.c2v
  v2c : IsMatrix m n r.v2c
  belief : r.belief.length = n
  hd : r.hd.length = n
  syn : r.syn.length = m

theorem ldpcIterate_shaped {m n : Nat} (A : LlrArith L) (c : LdpcConfig L) (v2c : List (List L))
    (iters : Word) (hh : IsMatrix m n c.h) (hrx : c.rx.length = n) (hv : IsMatrix m n v2c) :
    (ldpcIterate A c v2c iters).Shaped m n := by
  have hc2v : IsMatrix m n (List.zipWith (checkRow A c.damp) c.h v2c) :=
    hh.zipWith hv _ fun a b ha _ => by simpa using ha
  exact
    { c2v := hc2v
      v2c := hh.zipWith hc2v _ fun a b ha hb => by simp [ha, hb, hrx]
      belief := by simp [ldpcIterate, hrx]
      hd := by simp [ldpcIterate, hrx]
      syn := by simp [ldpcIterate, hh.1] }

theorem ldpcMore_shaped {m n : Nat} (A : LlrArith L) (c : LdpcConfig L) (k : Nat) (r : LdpcIteration L)
    (hh : IsMatrix m n c.h) (hrx : c.rx.length = n) (hr : r.Shaped m n) :
    (ldpcMore A c k r).Shaped m n := by
  induction k generalizing r with
  | zero => exact hr
  | succ k ih =>
    unfold ldpcMore
    split
    · exact hr
    · exact ih _ (ldpcIterate_shaped A c r.v2c r.iters hh hrx hr.v2c)

theorem ldpcRun_shaped {m n : Nat} (A : LlrArith L) (c : LdpcConfig L) (maxit : Nat) (v2c : List (List L))
    (iters : Word) (hh : IsMatrix m n c.h) (hrx : c.rx.length = n) (hv : IsMatrix m n v2c) :
    (ldpcRun A c maxit v2c iters).Shaped m n :=
  ldpcMore_shaped A c _ _ hh hrx (ldpcIterate_shaped A c v2c iters hh hrx hv)

variable {P : LlrParam L}

theorem ldpcConfig_h_isMatrix (s : State L P) : IsMatrix (ldpcRows s) (ldpcCols s) (ldpcConfig s).h := by
  simp [IsMatrix, ldpcConfig]

@[simp] theorem length_ldpcConfig_rx (s : State L P) : (ldpcConfig s).rx.length = ldpcCols s := by
  simp [ldpcConfig]

theorem storedMessages_isMatrix [Inhabited L] (s : State L P) :
    IsMatrix (ldpcRows s) (ldpcCols s) (storedMessages s) :=
  (ldpcConfig_h_isMatrix s).mapIdx _ fun i row h => by simp [h]

theorem startMessages_isMatrix (s : State L P) (A : LlrArith L) :
    IsMatrix (ldpcRows s) (ldpcCols s) (startMessages A (ldpcConfig s)) :=
  (ldpcConfig_h_isMatrix s).map _ fun row h => by simp [h]

theorem validMessage_of_lt {p : Params} (hp : p.ldpcNMax ≤ 256) {i k : Nat} (hi : i < p.ldpcMMax)
    (hk : k < p.ldpcNMax) : validMessage p (256 * i + k) = true := by
  simp only [validMessage, Bool.and_eq_true, decide_eq_true_eq]
  omega

/-- Writing a matrix that fits the core's message array keeps the array's canonical form. -/
theorem setRows_validMessage_wf [DecidableEq L] [Inhabited L] {p : Params} (hp : p.ldpcNMax ≤ 256) {n : Nat}
    (rows : List (List L)) (i : Nat) (hm : i + rows.length ≤ p.ldpcMMax) (hlen : ∀ row ∈ rows, row.length = n)
    (hn : n ≤ p.ldpcNMax) (c : Cells L) (hc : cellsWf (validMessage p) c = true) :
    cellsWf (validMessage p) (setRows c i rows) = true := by
  induction rows generalizing c i with
  | nil => exact hc
  | cons row rows ih =>
    obtain ⟨hrow, hrows⟩ := List.forall_mem_cons.mp hlen
    rw [List.length_cons] at hm
    exact ih (i + 1) (by omega) hrows _
      (cellSetFrom_wf _ c _ row (fun k hk => validMessage_of_lt hp (by omega) (by omega)) hc)

end Shapes

end Sys2Proof.Machine

/-! ### The invariant -/

namespace Sys2Proof.Machine

variable {L : Type} [DecidableEq L] [Inhabited L] {P : LlrParam L}

theorem params_legal_iff (p : Params) :
    p.legal = true ↔ p.nsymMax ≤ 255 ∧ 1 ≤ p.ldpcMMax ∧ p.ldpcMMax ≤ 256 ∧ 1 ≤ p.ldpcNMax ∧
      p.ldpcNMax ≤ 256 ∧ p.polarLognMax ≤ 10 := by
  simp [Params.legal, and_assoc]

theorem state_inv_iff (s : State L P) :
    s.inv = true ↔ s.params.legal = true ∧ s.mem.wf s.params = true ∧ s.status.pendingOk = true ∧
      s.hamDstat.ok = true ∧ s.rsNpos.toNat ≤ s.params.nsymMax ∧
      s.polarKinfo.toNat ≤ polarMax s.params := by
  simp [State.inv, and_assoc]

/-- A completion writes STATUS alone, and leaves no command pending. -/
theorem complete_inv (c : ErrCode) {s : State L P} (hs : s.inv = true) : (complete c s).inv = true := by
  obtain ⟨hp, hm, -, hd, hn, hk⟩ := (state_inv_iff s).mp hs
  exact (state_inv_iff _).mpr ⟨hp, hm, rfl, hd, hn, hk⟩

theorem launch_inv (w : Word) {s : State L P} (hs : s.inv = true) : (launch w s).inv = true := by
  obtain ⟨hp, hm, -, hd, hn, hk⟩ := (state_inv_iff s).mp hs
  exact (state_inv_iff _).mpr ⟨hp, hm, rfl, hd, hn, hk⟩

theorem setHaz_inv {s : State L P} (hs : s.inv = true) : (setHaz s).inv = true := hs

theorem clearStatus_inv (w : Word) {s : State L P} (hs : s.inv = true) : (clearStatus w s).inv = true := by
  obtain ⟨hp, hm, hst, hd, hn, hk⟩ := (state_inv_iff s).mp hs
  refine (state_inv_iff _).mpr ⟨hp, hm, ?_, hd, hn, hk⟩
  simp only [Status.pendingOk, clearStatus_status] at hst ⊢
  cases hb : s.status.busy <;> simp_all

theorem resetRegisters_inv {s : State L P} (hs : s.inv = true) : (resetRegisters s).inv = true := by
  obtain ⟨hp, hm, -, -, -, -⟩ := (state_inv_iff s).mp hs
  exact (state_inv_iff _).mpr ⟨hp, hm, rfl, rfl, Nat.zero_le _, Nat.zero_le _⟩

theorem hardReset_inv (drawn : Memory L) {s : State L P} (hs : s.inv = true) :
    (hardReset drawn s).inv = true := by
  obtain ⟨hp, -, hst, hd, hn, hk⟩ := (state_inv_iff _).mp (resetRegisters_inv hs)
  exact (state_inv_iff _).mpr ⟨hp, conform_wf _ _, hst, hd, hn, hk⟩

/-- Operands are no part of the invariant but for the arrays, whose canonical form a write keeps. -/
theorem writeOperand_inv (v : PortValue L) {l : Location} {s : State L P}
    (hl : l.present s.params = true) (hs : s.inv = true) : (writeOperand s v l).inv = true := by
  obtain ⟨hp, hm, hst, hd, hn, hk⟩ := (state_inv_iff s).mp hs
  have hwf := writeOperand_wf s v l hl hm
  obtain ⟨hparams, hstatus, -⟩ := writeOperand_frame s v l
  have hrest : (writeOperand s v l).hamDstat = s.hamDstat ∧ (writeOperand s v l).rsNpos = s.rsNpos ∧
      (writeOperand s v l).polarKinfo = s.polarKinfo := by
    cases l <;> exact ⟨rfl, rfl, rfl⟩
  obtain ⟨hdstat, hnpos, hkinfo⟩ := hrest
  rw [state_inv_iff, hparams, hstatus, hdstat, hnpos, hkinfo]
  exact ⟨hp, hwf, hst, hd, hn, hk⟩

/-! #### Host transactions -/

theorem writeCtrl_inv (w : Word) {s : State L P} (hs : s.inv = true) : (writeCtrl w s).inv = true := by
  rcases writeCtrl_cases w s with ⟨-, h⟩ | ⟨-, -, h⟩ | ⟨-, -, h⟩ <;> rw [h]
  · exact hs
  · exact setHaz_inv hs
  · exact resetRegisters_inv hs

theorem regRead_inv (a : Addr) {s : State L P} (hs : s.inv = true) : (regRead a s).inv = true := by
  rcases regRead_cases a s with ⟨-, -, h⟩ | ⟨-, h⟩ <;> rw [h] <;> exact hs

theorem regWrite_inv (a : Addr) (v : PortValue L) {s : State L P} (hs : s.inv = true) :
    (regWrite a v s).inv = true := by
  rcases regWrite_cases a v s with ⟨-, h⟩ | ⟨-, h⟩ | ⟨-, h⟩ | ⟨-, -, h⟩ | ⟨-, -, h⟩ | ⟨-, h⟩ |
    ⟨-, -, h⟩ | ⟨hop, -, h⟩ <;> rw [h]
  · exact hs
  · exact clearStatus_inv _ hs
  · exact writeCtrl_inv _ hs
  · exact setHaz_inv hs
  · exact launch_inv _ hs
  · exact hs
  · exact setHaz_inv hs
  · exact writeOperand_inv v (present_locate_of_isOperand _ a hop) hs

theorem hostTxn_inv (txn : HostTxn L) {s : State L P} (hs : s.inv = true) : (hostTxn txn s).inv = true := by
  cases txn with
  | read a => exact regRead_inv a hs
  | write a v => exact regWrite_inv a v hs

/-! #### The commands' rules -/

theorem hamSyndrome_lt (ext : Bool) (r : List Bool) : hamSyndrome ext r < 8 := by
  have bit_le (b : Bool) : b.toNat ≤ 1 := Bool.toNat_le b
  unfold hamSyndrome
  grind

/-- The syndrome is below 8, so it points into the word in both variants: OOR stays 0, and ERRV and ERRPOS follow
SYN (R206). -/
theorem hamDecode_ok (ext : Bool) (rx : Byte) : (hamDecode ext rx).2.ok = true := by
  simp only [hamDecode, HamDstat.ok]
  have hs := hamSyndrome_lt ext (bitList rx (7 + hamOffset ext))
  generalize hamSyndrome ext (bitList rx (7 + hamOffset ext)) = syn at hs ⊢
  have hidx : syn - 1 + hamOffset ext < 7 + hamOffset ext := by omega
  have hsyn : BitVec.ofNat 3 syn = 0#3 ↔ syn = 0 := by
    rw [← BitVec.toNat_inj, BitVec.toNat_ofNat, Nat.mod_eq_of_lt hs, BitVec.toNat_ofNat, Nat.zero_mod]
  by_cases h0 : syn = 0 <;> simp [h0, hidx, hsyn]

theorem hamDecRule_inv (ext : Bool) {s s' : State L P} (h : hamDecRule ext s = .ok s')
    (hs : s.inv = true) : s'.inv = true := by
  obtain ⟨hp, hm, hst, -, hn, hk⟩ := (state_inv_iff s).mp hs
  cases h
  exact (state_inv_iff _).mpr ⟨hp, hm, hst, hamDecode_ok ext s.hamRx, hn, hk⟩

theorem gfInvRule_inv {s s' : State L P} (h : gfInvRule s = .ok s') (hs : s.inv = true) :
    s'.inv = true := by
  unfold gfInvRule at h
  split at h <;> cases h
  exact hs

omit [DecidableEq L] [Inhabited L] in
theorem rsWordOk_iff (s : State L P) :
    rsWordOk s = true ↔ rsLength s ≤ 255 ∧ rsNsym s ≤ s.params.nsymMax := by
  simp [rsWordOk]

/-- The parity ends at N ≤ 255 (R231, R233). -/
theorem rsEncRule_inv {s s' : State L P} (h : rsEncRule s = .ok s') (hs : s.inv = true) :
    s'.inv = true := by
  unfold rsEncRule at h
  split at h <;> cases h
  next hok =>
  obtain ⟨hlen, -⟩ := (rsWordOk_iff s).mp hok
  obtain ⟨hp, hm, hst, hd, hn, hk⟩ := (state_inv_iff s).mp hs
  refine (state_inv_iff _).mpr ⟨hp, ?_, hst, hd, hn, hk⟩
  simp only [memory_wf_iff, withMem_mem, withMem_params] at hm ⊢
  obtain ⟨hbuf, hrest⟩ := hm
  refine ⟨cellSetFrom_wf _ _ _ _ (fun k hk => ?_) hbuf, hrest⟩
  simp only [length_rsParity, rsLength, validSymbol, decide_eq_true_eq] at hlen hk ⊢
  omega

/-- The syndromes number nsym ≤ NSYM_MAX (R231, R240). -/
theorem rsSyndRule_inv {s s' : State L P} (h : rsSyndRule s = .ok s') (hs : s.inv = true) :
    s'.inv = true := by
  unfold rsSyndRule at h
  split at h <;> cases h
  next hok =>
  obtain ⟨-, hnsym⟩ := (rsWordOk_iff s).mp hok
  obtain ⟨hp, hm, hst, hd, hn, hk⟩ := (state_inv_iff s).mp hs
  refine (state_inv_iff _).mpr ⟨hp, ?_, hst, hd, hn, hk⟩
  simp only [memory_wf_iff, withMem_mem, withMem_params] at hm ⊢
  obtain ⟨hbuf, hsyn, hrest⟩ := hm
  refine ⟨hbuf, cellSetFrom_wf _ _ _ _ (fun k hk => ?_) hsyn, hrest⟩
  simp only [length_rsSyndromes, validSyn, decide_eq_true_eq] at hk ⊢
  omega

/-- The locator's coefficients number nsym + 1 ≤ NSYM_MAX + 1 (R231, R245). -/
theorem rsBmRule_inv {s s' : State L P} (h : rsBmRule s = .ok s') (hs : s.inv = true) :
    s'.inv = true := by
  unfold rsBmRule at h
  split at h
  case isFalse => cases h
  case isTrue hok =>
  dsimp only at h
  split at h <;> cases h
  have hnsym : rsNsym s ≤ s.params.nsymMax := of_decide_eq_true hok
  obtain ⟨hp, hm, hst, hd, hn, hk⟩ := (state_inv_iff s).mp hs
  refine (state_inv_iff _).mpr ⟨hp, ?_, hst, hd, hn, hk⟩
  simp only [memory_wf_iff, withMem_mem, withMem_params] at hm ⊢
  obtain ⟨hbuf, hsyn, hlam, hrest⟩ := hm
  refine ⟨hbuf, hsyn, cellSetFrom_wf _ _ _ _ (fun k hk => ?_) hlam, hrest⟩
  simp only [length_bmOutput, validLambda, decide_eq_true_eq] at hk ⊢
  omega

/-- The roots number errs ≤ NSYM_MAX and at most N ≤ 255 (R231, R250). -/
theorem rsChienRule_inv {s s' : State L P} (h : rsChienRule s = .ok s') (hs : s.inv = true) :
    s'.inv = true := by
  unfold rsChienRule at h
  split at h
  case isFalse => cases h
  case isTrue hok =>
  dsimp only at h
  split at h <;> cases h
  next hcount =>
  obtain ⟨hok, herrs⟩ := (Bool.and_eq_true _ _).mp hok
  obtain ⟨hlen, -⟩ := (rsWordOk_iff s).mp hok
  have hroots := length_chienRoots_le (cellList s.mem.rsLambda 0 (rsErrs s + 1)) (rsLength s)
  obtain ⟨hp, hm, hst, hd, -, hk⟩ := (state_inv_iff s).mp hs
  refine (state_inv_iff _).mpr ⟨hp, ?_, hst, hd, ?_, hk⟩
  · simp only [memory_wf_iff, withMem_mem, withMem_params] at hm ⊢
    obtain ⟨hbuf, hsyn, hlam, hpos, hrest⟩ := hm
    refine ⟨hbuf, hsyn, hlam, cellSetFrom_wf _ _ _ _ (fun k hk => ?_) hpos, hrest⟩
    simp only [List.length_map, validSymbol, decide_eq_true_eq] at hk ⊢
    omega
  · rw [not_not.mp hcount, BitVec.toNat_ofNat]
    exact (Nat.mod_le _ _).trans (of_decide_eq_true herrs)

/-- Writing the lists of an iteration whose code fits the core keeps the invariant (R290). -/
theorem ldpcWrite_inv {s : State L P} {r : LdpcIteration L} {m n : Nat} (hrows : m ≤ s.params.ldpcMMax)
    (hcols : n ≤ s.params.ldpcNMax) (hr : r.Shaped m n) (hs : s.inv = true) :
    (ldpcWrite s r).inv = true := by
  obtain ⟨hp, hm, hst, hd, hn, hk⟩ := (state_inv_iff s).mp hs
  obtain ⟨-, -, -, -, hN, -⟩ := (params_legal_iff _).mp hp
  obtain ⟨⟨hc, hcl⟩, ⟨hv, hvl⟩, hbelief, hhd, hsyn⟩ := hr
  obtain ⟨h1, h2, h3, h4, h5, -, -, h8, h9, h10, h11, h12, hpolar⟩ := (memory_wf_iff _ _).mp hm
  refine (state_inv_iff _).mpr ⟨hp, (memory_wf_iff _ _).mpr ⟨h1, h2, h3, h4, h5,
    packBits_keepBits _ _ _ (hhd.trans_le hcols), packBits_keepBits _ _ _ (hsyn.trans_le hrows),
    cellSetFrom_wf _ _ _ _ (fun k hk => ?_) h8, h9, h10,
    setRows_validMessage_wf hN _ _ (by omega) hcl hcols _ h11,
    setRows_validMessage_wf hN _ _ (by omega) hvl hcols _ h12, hpolar⟩, hst, hd, hn, hk⟩
  have hvalid : 0 + k < s.params.ldpcNMax := by omega
  exact decide_eq_true hvalid

omit [DecidableEq L] [Inhabited L] in
theorem ldpcOk_sizes {s : State L P} (h : ldpcOk s = true) :
    ldpcRows s ≤ s.params.ldpcMMax ∧ ldpcCols s ≤ s.params.ldpcNMax := by
  simp only [ldpcOk, Bool.and_eq_true, decide_eq_true_eq] at h
  tauto

theorem ldpcRule_inv (cont : Bool) {s s' : State L P} (h : ldpcRule cont s = .ok s') (hs : s.inv = true) :
    s'.inv = true := by
  unfold ldpcRule at h
  split at h <;> cases h
  next hok =>
  obtain ⟨hrows, hcols⟩ := ldpcOk_sizes hok
  have hv : IsMatrix (ldpcRows s) (ldpcCols s)
      (if cont then storedMessages s else startMessages P.arith (ldpcConfig s)) := by
    split
    · exact storedMessages_isMatrix s
    · exact startMessages_isMatrix s _
  exact ldpcWrite_inv hrows hcols
    (ldpcRun_shaped _ _ _ _ _ (ldpcConfig_h_isMatrix s) (length_ldpcConfig_rx s) hv) hs

/-- The block's length 2^n is within 2^POLAR_LOGN_MAX, and so is the number of its information positions (R321,
R327). -/
theorem polarRule_inv {s s' : State L P} (h : polarRule s = .ok s') (hs : s.inv = true) :
    s'.inv = true := by
  unfold polarRule at h
  split at h <;> cases h
  next hok =>
  have hblock : 2 ^ polarLogn s ≤ polarMax s.params := Nat.pow_le_pow_right (by omega) hok
  obtain ⟨hlu, hlx⟩ := length_polarDecoded s
  have hinfo := length_infoPositions_le s.mem.polarFrozen (2 ^ polarLogn s)
  obtain ⟨hp, hm, hst, hd, hn, -⟩ := (state_inv_iff s).mp hs
  refine (state_inv_iff _).mpr ⟨hp, ?_, hst, hd, hn, ?_⟩
  · have huhat := packBits_keepBits 1024 (polarDecoded s).1 (polarMax s.params) (hlu.trans_le hblock)
    have hxhat := packBits_keepBits 1024 (polarDecoded s).2 (polarMax s.params) (hlx.trans_le hblock)
    have hmsg := packBits_keepBits 1024
      ((infoPositions s.mem.polarFrozen (2 ^ polarLogn s)).map fun j => (polarDecoded s).1.getD j false)
      (polarMax s.params) (by simpa using hinfo.trans hblock)
    simp only [memory_wf_iff, withMem_mem, withMem_params] at hm ⊢
    tauto
  · rw [BitVec.toNat_ofNat]
    exact (Nat.mod_le _ _).trans (hinfo.trans hblock)

theorem commandRule_inv (i : Instr) {s s' : State L P} (h : commandRule i s = .ok s')
    (hs : s.inv = true) : s'.inv = true := by
  cases i with
  | nop => cases h; exact hs
  | hamEnc => cases h; exact hs
  | hamEncX => cases h; exact hs
  | hamDec => exact hamDecRule_inv false h hs
  | hamDecX => exact hamDecRule_inv true h hs
  | gfMul => cases h; exact hs
  | gfInv => exact gfInvRule_inv h hs
  | rsEnc => exact rsEncRule_inv h hs
  | rsSynd => exact rsSyndRule_inv h hs
  | rsBm => exact rsBmRule_inv h hs
  | rsChien => exact rsChienRule_inv h hs
  | ldpcBp => exact ldpcRule_inv false h hs
  | ldpcBpC => exact ldpcRule_inv true h hs
  | polarSc => exact polarRule_inv h hs

theorem finish_commandRule_inv (i : Instr) {s : State L P} (hs : s.inv = true) :
    (finish s (commandRule i s)).inv = true := by
  rcases finish_cases s _ _ rfl with ⟨s', h, ht⟩ | ⟨c, -, ht⟩ <;> rw [ht]
  · exact complete_inv .ok (commandRule_inv i h hs)
  · exact complete_inv c hs

theorem engineTurn_inv {s t : State L P} (h : engineTurn s = .next t) (hs : s.inv = true) :
    t.inv = true := by
  rcases engineTurn_cases s with ⟨-, h'⟩ | ⟨-, i, -, h'⟩ | ⟨-, e, -, h'⟩ <;> rw [h'] at h <;> cases h
  · exact hs
  · exact finish_commandRule_inv i hs
  · exact complete_inv _ hs

theorem stepOn_inv {s t : State L P} (h : stepOn s = .next t) (hs : s.inv = true) : t.inv = true := by
  rcases stepOn_cases s t h with ⟨txn, es, -, rfl⟩ | ⟨d, es, -, rfl⟩ | ⟨es, -, h'⟩ | ⟨-, h'⟩
  · exact hostTxn_inv txn hs
  · exact hardReset_inv d hs
  · exact engineTurn_inv h' hs
  · exact engineTurn_inv h' hs

/-- Settles O60: each event of the order keeps the invariant, the Engine's because every command's rule does. -/
theorem stepKeepsTheInvariant : Obligations.StepKeepsTheInvariant :=
  (onEveryCore_iff _).mpr fun _ _ _ _ _ _ _ hs h => stepOn_inv h hs

end Sys2Proof.Machine

/-! ### What a location reads as -/

namespace Sys2Proof.Machine

/-! #### Words made of fields -/

theorem setWidth_eq_ofNat {w : Nat} (v : BitVec w) : v.setWidth 32 = BitVec.ofNat 32 v.toNat := by
  rw [← BitVec.toNat_inj, BitVec.toNat_setWidth, BitVec.toNat_ofNat]

theorem bit_lt_two (b : Bool) : Spec.bit b < 2 := by cases b <;> decide

theorem flagBit_eq_shiftLeft (b : Bool) (k : Nat) : flagBit b k = BitVec.ofNat 32 (Spec.bit b) <<< k := by
  cases b
  · exact (BitVec.zero_shiftLeft k).symm
  · rfl

theorem toNat_code (e : ErrCode) : e.code.toNat = Spec.codeNumber e := by cases e <;> rfl

/-- A field above all bits of a number adds its value at its place. -/
theorem ofNat_or_shiftLeft {a k : Nat} (b : Nat) (h : a < 2 ^ k) :
    BitVec.ofNat 32 a ||| BitVec.ofNat 32 b <<< k = BitVec.ofNat 32 (2 ^ k * b + a) := by
  apply BitVec.eq_of_getLsbD_eq
  intro i hi
  rw [BitVec.getLsbD_or, BitVec.getLsbD_shiftLeft]
  simp only [BitVec.getLsbD_ofNat, Nat.testBit_two_pow_mul_add b h]
  by_cases hik : i < k
  · simp [hi, hik]
  · have hlow : a.testBit i = false :=
      Nat.testBit_lt_two_pow (h.trans_le (Nat.pow_le_pow_right (by omega) (not_lt.mp hik)))
    simp [hi, hik, hlow, show i - k < 32 by omega]

/-- STATUS by its fields (R37). -/
theorem statusWord_eq_ofNat (st : Status) :
    statusWord st = BitVec.ofNat 32 (Spec.bit st.busy + 2 * Spec.bit st.done + 4 * Spec.bit st.haz +
      16 * Spec.codeNumber st.err) := by
  have hbusy := bit_lt_two st.busy
  have hdone := bit_lt_two st.done
  have hhaz := bit_lt_two st.haz
  simp only [statusWord, flagBit_eq_shiftLeft, setWidth_eq_ofNat, BitVec.shiftLeft_zero, toNat_code]
  rw [ofNat_or_shiftLeft _ (by omega), ofNat_or_shiftLeft _ (by omega), ofNat_or_shiftLeft _ (by omega)]
  congr 1
  omega

/-- HAM_DSTAT by its fields (R43). -/
theorem hamDstatWord_eq_ofNat (d : HamDstat) :
    hamDstatWord d = BitVec.ofNat 32 (d.syn.toNat + 8 * Spec.bit d.errv + 16 * d.errpos.toNat +
      128 * Spec.bit d.oor + 256 * d.msg.toNat) := by
  have herrv := bit_lt_two d.errv
  have hoor := bit_lt_two d.oor
  simp only [hamDstatWord, flagBit_eq_shiftLeft, setWidth_eq_ofNat]
  rw [ofNat_or_shiftLeft _ (by omega), ofNat_or_shiftLeft _ (by omega), ofNat_or_shiftLeft _ (by omega),
    ofNat_or_shiftLeft _ (by omega)]
  congr 1
  omega

theorem packedWord_bitWord {w : Nat} (v : BitVec w) (n k : Nat) :
    Spec.packedWord n v.getLsbD k (bitWord v n k) := by
  intro b hb
  rw [getLsbD_bitWord, decide_eq_true hb, Bool.true_and, Bool.and_comm]

theorem fieldWord_eq_ofNat {L : Type} {w : Nat} (v : BitVec w) :
    (fieldWord v : PortValue L) = .word (BitVec.ofNat 32 v.toNat) := by
  rw [fieldWord, setWidth_eq_ofNat]

theorem reads_readLocation {L : Type} [Inhabited L] {P : LlrParam L} (s : State L P) (l : Location) :
    Spec.reads s l (readLocation s l) := by
  cases l <;>
    simp [Spec.reads, readLocation, fieldWord_eq_ofNat, ctrlWord, flagBit_eq_shiftLeft, statusWord_eq_ofNat,
      hamDstatWord_eq_ofNat, polarMax, packedWord_bitWord]

/-! #### Reserved bits -/

theorem setWidth_and_lowMask {w : Nat} (v : BitVec w) : v.setWidth 32 &&& lowMask w = v.setWidth 32 := by
  apply BitVec.eq_of_getLsbD_eq
  intro i hi
  rw [BitVec.getLsbD_and, BitVec.getLsbD_setWidth, getLsbD_lowMask]
  by_cases hw : i < w
  · simp [hi, hw]
  · simp [BitVec.getLsbD_of_ge v i (not_lt.mp hw)]

theorem bitWord_and_lowMask {w : Nat} (v : BitVec w) (n k : Nat) :
    bitWord v n k &&& lowMask (n - 32 * k) = bitWord v n k := by
  rw [bitWord, BitVec.and_assoc, BitVec.and_self]

theorem flagBit_and_flagBit_true (b : Bool) (k : Nat) : flagBit b k &&& flagBit true k = flagBit b k := by
  cases b
  · exact BitVec.zero_and
  · exact BitVec.and_self

theorem shiftLeft_and_of_and_eq {x m : Word} (k : Nat) (h : x &&& m = x) : x <<< k &&& m <<< k = x <<< k := by
  rw [← BitVec.shiftLeft_and_distrib, h]

/-- Two fields side by side are within their masks side by side. -/
theorem or_and_or_of_and_eq {x y m n : Word} (hx : x &&& m = x) (hy : y &&& n = y) :
    (x ||| y) &&& (m ||| n) = x ||| y := by
  apply BitVec.eq_of_getLsbD_eq
  intro i _
  have hxi : (x &&& m).getLsbD i = x.getLsbD i := by rw [hx]
  have hyi : (y &&& n).getLsbD i = y.getLsbD i := by rw [hy]
  simp only [BitVec.getLsbD_and, BitVec.getLsbD_or] at hxi hyi ⊢
  grind

theorem statusWord_and_mask (st : Status) : statusWord st &&& 0xF7#32 = statusWord st :=
  or_and_or_of_and_eq
    (or_and_or_of_and_eq
      (or_and_or_of_and_eq (flagBit_and_flagBit_true _ 0) (flagBit_and_flagBit_true _ 1))
      (flagBit_and_flagBit_true _ 2))
    (shiftLeft_and_of_and_eq 4 (setWidth_and_lowMask _))

theorem hamDstatWord_and_mask (d : HamDstat) : hamDstatWord d &&& 0xFFF#32 = hamDstatWord d :=
  or_and_or_of_and_eq
    (or_and_or_of_and_eq
      (or_and_or_of_and_eq
        (or_and_or_of_and_eq (setWidth_and_lowMask _) (flagBit_and_flagBit_true _ 3))
        (shiftLeft_and_of_and_eq 4 (setWidth_and_lowMask _)))
      (flagBit_and_flagBit_true _ 7))
    (shiftLeft_and_of_and_eq 8 (setWidth_and_lowMask _))

/-- The valid bits of a packed word, as the obligations write them (R83, R84). -/
theorem packedMask_eq_lowMask (n k : Nat) :
    BitVec.ofNat 32 (2 ^ min 32 (n - 32 * k) - 1) = lowMask (n - 32 * k) := by
  rw [lowMask, Nat.min_comm]

/-- The word of every location lies within its listed fields. -/
theorem readLocation_and_fieldMask {L : Type} [Inhabited L] {P : LlrParam L} (s : State L P) (l : Location)
    (w : Word) (h : readLocation s l = .word w) : w &&& Spec.fieldMask s.params l = w := by
  cases l <;> cases h
  case reserved => exact BitVec.and_self
  case id | cmd | ldpcIters => exact BitVec.and_allOnes
  case param0 | param1 =>
    exact or_and_or_of_and_eq (setWidth_and_lowMask _) (shiftLeft_and_of_and_eq 16 (setWidth_and_lowMask _))
  case ctrl | rsSstat | ldpcStat => exact flagBit_and_flagBit_true _ 0
  case status => exact statusWord_and_mask s.status
  case hamDstat => exact hamDstatWord_and_mask s.hamDstat
  case ldpcRx | ldpcHd | ldpcSyn | ldpcH | polarFrozen | polarRx | polarUhat | polarXhat | polarMsg =>
    rw [Spec.fieldMask, packedMask_eq_lowMask]
    exact bitWord_and_lowMask _ _ _
  all_goals exact setWidth_and_lowMask _

/-- Settles O17: the fields are what `reads_readLocation` says, and nothing stands outside their mask. -/
theorem everyLocationReadsItsFields : Obligations.EveryLocationReadsItsFields := by
  unfold Obligations.EveryLocationReadsItsFields
  intro L _ _ P s l
  refine ⟨reads_readLocation s l, fun w h => ?_⟩
  rw [← readLocation_and_fieldMask s l w h, BitVec.and_assoc, BitVec.and_not_self]
  exact BitVec.and_zero

end Sys2Proof.Machine

/-! ### Operand writes -/

namespace Sys2Proof.Machine

/-- The low bits of a word, stored in a field and read back (R8). -/
theorem setWidth_setWidth_eq_and_lowMask (x : Word) (w : Nat) :
    (x.setWidth w).setWidth 32 = x &&& lowMask w := by
  apply BitVec.eq_of_getLsbD_eq
  intro i hi
  rw [BitVec.getLsbD_and, BitVec.getLsbD_setWidth, BitVec.getLsbD_setWidth, getLsbD_lowMask]
  simp [hi, Bool.and_comm]

theorem fieldWord_setWidth {L : Type} (x : Word) (w : Nat) :
    (fieldWord (x.setWidth w) : PortValue L) = .word (x &&& lowMask w) :=
  congrArg _ (setWidth_setWidth_eq_and_lowMask x w)

/-- A packed word reads back the valid bits of what was written to it. -/
theorem bitWord_setBitWord_self {w : Nat} (v : BitVec w) {n : Nat} (hn : n ≤ w) (k : Nat) (x : Word) :
    bitWord (setBitWord v n k x) n k = x &&& lowMask (n - 32 * k) := by
  apply BitVec.eq_of_getLsbD_eq
  intro b hb
  rw [getLsbD_bitWord, getLsbD_setBitWord, BitVec.getLsbD_and, getLsbD_lowMask]
  by_cases h : 32 * k + b < n
  · simp [hb, h, show 32 * k + b < w by omega, show b < n - 32 * k by omega]
  · simp [h, show ¬ b < n - 32 * k by omega]

/-- A packed word written leaves the array's other words alone. -/
theorem bitWord_setBitWord_of_ne {w : Nat} (v : BitVec w) (n : Nat) {k k' : Nat} (h : k' ≠ k) (x : Word) :
    bitWord (setBitWord v n k x) n k' = bitWord v n k' := by
  apply BitVec.eq_of_getLsbD_eq
  intro b hb
  rw [getLsbD_bitWord, getLsbD_bitWord, getLsbD_setBitWord, if_neg (by omega)]

variable {L : Type} [DecidableEq L] [Inhabited L] {P : LlrParam L}

/-- An operand location reads back the field bits of the word written, an `Llr` cell the value (R87, R89). The
legal sizes keep every valid bit of a packed word inside its array. -/
theorem readLocation_writeOperand_self (s : State L P) (v : PortValue L) (l : Location) (hs : s.inv = true)
    (hl : Spec.rw l) :
    readLocation (writeOperand s v l) l =
      if l.isLlr then .llr (v.toLlr P) else .word (v.toWord P &&& Spec.fieldMask s.params l) := by
  obtain ⟨hp, hm, -⟩ := (state_inv_iff s).mp hs
  obtain ⟨-, -, -, -, hN, hlogn⟩ := (params_legal_iff _).mp hp
  have hblock : polarMax s.params ≤ 1024 := Nat.pow_le_pow_right (n := 2) two_pos hlogn
  obtain ⟨hbuf, hsyn, hlam, -, -, -, -, -, hrow, -⟩ := (memory_wf_iff _ _).mp hm
  cases l
  case hamDin | hamRx | gfA | gfB | rsK | rsNsym | rsErrs | ldpcM | ldpcN | ldpcMaxit | polarLogn =>
    exact fieldWord_setWidth _ _
  case ldpcLc | ldpcDamp => rfl
  case rsBuf i => exact (congrArg _ (cellGet_cellSet_self _ _ i _ hbuf)).trans (fieldWord_setWidth _ _)
  case rsSyn i => exact (congrArg _ (cellGet_cellSet_self _ _ i _ hsyn)).trans (fieldWord_setWidth _ _)
  case rsLambda i => exact (congrArg _ (cellGet_cellSet_self _ _ i _ hlam)).trans (fieldWord_setWidth _ _)
  case ldpcRx k =>
    rw [Spec.fieldMask, packedMask_eq_lowMask]
    exact congrArg _ (bitWord_setBitWord_self _ hN k _)
  case polarFrozen k | polarRx k =>
    rw [Spec.fieldMask, packedMask_eq_lowMask]
    exact congrArg _ (bitWord_setBitWord_self _ hblock k _)
  case ldpcH i k =>
    rw [Spec.fieldMask, packedMask_eq_lowMask, ← bitWord_setBitWord_self (cellGet s.mem.ldpcH i) hN k]
    exact congrArg (fun row => PortValue.word (bitWord row _ k)) (cellGet_cellSet_self _ _ i _ hrow)
  all_goals exact hl.elim

/-- An operand write leaves every other location alone: a register by computation once the branch `l' = l` is
there to compute too, an array's other elements by the array's rule. -/
theorem readLocation_writeOperand_of_ne (s : State L P) (v : PortValue L) {l l' : Location}
    (hs : s.inv = true) (hl : Spec.rw l) (h : l' ≠ l) :
    readLocation (writeOperand s v l) l' = readLocation s l' := by
  have of_ite (hite : readLocation (writeOperand s v l) l' =
      if l' = l then readLocation (writeOperand s v l) l else readLocation s l') :
      readLocation (writeOperand s v l) l' = readLocation s l' := by
    rwa [if_neg h] at hite
  cases l
  case hamDin | hamRx | gfA | gfB | rsK | rsNsym | rsErrs | ldpcM | ldpcN | ldpcMaxit | ldpcLc | ldpcDamp |
      polarLogn =>
    exact of_ite (by cases l' <;> rfl)
  case rsBuf | rsSyn | rsLambda | ldpcRx | polarFrozen | polarRx =>
    cases l' <;> simp_all [readLocation, writeOperand, bitWord_setBitWord_of_ne]
  case ldpcH i k =>
    cases l'
    case ldpcH i' k' =>
      obtain ⟨-, hm, -⟩ := (state_inv_iff s).mp hs
      obtain ⟨-, -, -, -, -, -, -, -, hrow, -⟩ := (memory_wf_iff _ _).mp hm
      by_cases hi : i' = i
      · subst hi
        have hk : k' ≠ k := fun e => h (congrArg _ e)
        simp [readLocation, writeOperand, cellGet_cellSet_self _ _ i' _ hrow, bitWord_setBitWord_of_ne, hk]
      · simp [readLocation, writeOperand, hi]
    all_goals rfl
  all_goals exact hl.elim

/-- Settles O19: read over write at the location itself and at every other one; the fields are those of O17. -/
theorem operandWritesStoreTheirFieldBits : Obligations.OperandWritesStoreTheirFieldBits := by
  unfold Obligations.OperandWritesStoreTheirFieldBits
  intro L _ _ P s v l hs hl _
  have hself := readLocation_writeOperand_self s v l hs hl
  exact ⟨hself, hself ▸ reads_readLocation _ l, fun l' h => readLocation_writeOperand_of_ne s v hs hl h⟩

end Sys2Proof.Machine

/-! ### The check-to-variable message -/

namespace Sys2Proof.Machine

section CheckMessage

variable {L : Type}

/-- The sign flips once per negative message, from any start. -/
theorem foldl_flip_eq (A : LlrArith L) (ms : List L) (b : Bool) :
    ms.foldl (fun s m => if A.lt m A.zero then !s else s) b =
      (b ^^ decide ((ms.filter fun m => A.lt m A.zero).length % 2 = 1)) := by
  induction ms generalizing b with
  | nil => simp
  | cons m ms ih =>
    rw [List.foldl_cons, ih]
    by_cases hm : A.lt m A.zero = true
    · have hflip (n : Nat) : decide ((n + 1) % 2 = 1) = !decide (n % 2 = 1) := by
        rw [← decide_not, decide_eq_decide]
        omega
      rw [if_pos hm, List.filter_cons, if_pos hm, List.length_cons, hflip, Bool.not_xor, Bool.xor_not]
    · rw [if_neg hm, List.filter_cons, if_neg hm]

theorem signNegative_eq_decide (A : LlrArith L) (ms : List L) :
    signNegative A ms = decide ((ms.filter fun m => A.lt m A.zero).length % 2 = 1) :=
  (foldl_flip_eq A ms false).trans (Bool.false_xor _)

/-- The message of R284: the damped magnitude, its sign by the number of negative messages. -/
theorem checkMessage_eq_ite (A : LlrArith L) (d : L) (ms : List L) :
    checkMessage A d ms =
      if (ms.filter fun m => A.lt m A.zero).length % 2 = 1 then A.neg (A.mul (minAbs A ms) d)
      else A.mul (minAbs A ms) d := by
  rw [checkMessage, signNegative_eq_decide]
  by_cases h : (ms.filter fun m => A.lt m A.zero).length % 2 = 1
  · simp only [h, decide_true, if_true, LlrArith.signTimes_neg_one]
  · simp only [h, decide_false, Bool.false_eq_true, if_false, LlrArith.signTimes_one]

theorem checkMessage_eq_minSum (A : LlrArith L) (d : L) (ms : List L) :
    checkMessage A d ms = Spec.minSum A d ms := by
  rw [checkMessage_eq_ite]
  cases ms with
  | nil => rfl
  | cons m ms => simp only [Spec.minSum, minAbs, List.map_cons, List.foldl_map]

theorem rowEdges_bitList {w : Nat} (v : BitVec w) (n : Nat) :
    rowEdges (bitList v n) = (List.range n).filter v.getLsbD := by
  rw [rowEdges, length_bitList]
  exact List.filter_congr fun k hk => getD_bitList v n k (List.mem_range.mp hk)

theorem getD_checkRow (A : LlrArith L) (damp : L) (row : List Bool) (v : List L) (j : Nat) (d : L)
    (h : row.getD j false = true) :
    (checkRow A damp row v).getD j d = checkMessage A damp (otherMessages A row v j) := by
  have hj : j < row.length := by
    by_contra hge
    rw [List.getD_eq_default _ _ (not_lt.mp hge)] at h
    cases h
  have hedge : row[j] = true := by rwa [List.getD_eq_getElem _ _ hj] at h
  simp [checkRow, hj, hedge]

theorem getD_maskRow_of_edge (A : LlrArith L) {row : List Bool} {vals : List L} (hlen : row.length = vals.length)
    (k : Nat) (h : row.getD k false = true) : (maskRow A row vals).getD k A.zero = vals.getD k A.zero := by
  by_cases hk : k < row.length
  · have hk' : k < vals.length := hlen ▸ hk
    have hedge : row[k] = true := by rwa [List.getD_eq_getElem _ _ hk] at h
    simp [maskRow, hk, hk', hedge]
  · rw [List.getD_eq_default _ _ (not_lt.mp hk)] at h
    cases h

variable {P : LlrParam L}

/-- The input checks of R282, as the obligations write them. -/
theorem ldpcOk_iff_ldpcLegal (s : State L P) : ldpcOk s = true ↔ Spec.ldpcLegal s := by
  have hweight (i : Nat) : (rowEdges (bitList (cellGet s.mem.ldpcH i) (ldpcCols s))).length =
      Spec.rowWeight s i := by
    rw [rowEdges_bitList]
    rfl
  simp only [ldpcOk, Spec.ldpcLegal, ldpcConfig, Bool.and_eq_true, decide_eq_true_eq, List.all_eq_true,
    List.forall_mem_map, List.mem_range, bne_iff_ne, hweight, and_assoc]
  rfl

/-- The edges of check r other than j, ascending (R284). -/
def otherEdges (s : State L P) (r j : Nat) : List Nat :=
  (List.range s.ldpcN.toNat).filter fun k => Spec.edge s r k && k != j

theorem otherEdges_eq_filter (s : State L P) (r j : Nat) :
    otherEdges s r j = ((List.range s.ldpcN.toNat).filter (Spec.edge s r)).filter fun k => k != j := by
  rw [otherEdges, List.filter_filter]
  exact List.filter_congr fun k _ => Bool.and_comm _ _

/-- A check with an edge at j has another one (R282). -/
theorem otherEdges_ne_nil {s : State L P} (hlegal : Spec.ldpcLegal s) {r j : Nat} (hr : r < s.ldpcM.toNat)
    (hj : j < s.ldpcN.toNat) (hedge : Spec.edge s r j = true) :
    otherEdges s r j ≠ [] := by
  obtain ⟨-, -, -, -, -, -, -, hweight⟩ := hlegal
  have hmem : j ∈ (List.range s.ldpcN.toNat).filter (Spec.edge s r) := by simp [hj, hedge]
  have hlen : ((List.range s.ldpcN.toNat).filter (Spec.edge s r)).length ≠ 1 := hweight r hr
  have hpos := List.length_pos_of_mem hmem
  rw [otherEdges_eq_filter, ← (List.nodup_range.filter _).erase_eq_filter, ← List.length_pos_iff,
    List.length_erase_of_mem hmem]
  omega

variable [Inhabited L]

/-- The messages a check reads from LDPC_V2C for its edge j (R284, R292). -/
theorem otherMessages_stored (A : LlrArith L) (s : State L P) (r j : Nat) :
    let row := bitList (cellGet s.mem.ldpcH r) (ldpcCols s)
    otherMessages A row (maskRow A row (cellList s.mem.ldpcV2c (256 * r) (ldpcCols s))) j =
      (otherEdges s r j).map (Spec.v2c s r) := by
  have hothers : ((List.range (ldpcCols s)).filter (cellGet s.mem.ldpcH r).getLsbD).filter (fun k => k != j) =
      otherEdges s r j := (otherEdges_eq_filter s r j).symm
  dsimp only
  rw [otherMessages, rowEdges_bitList, hothers]
  refine List.map_congr_left fun k hk => ?_
  obtain ⟨hk, hedge⟩ := List.mem_filter.mp hk
  obtain ⟨hedge, -⟩ := (Bool.and_eq_true _ _).mp hedge
  have hk : k < ldpcCols s := List.mem_range.mp hk
  rw [getD_maskRow_of_edge _ (by simp) k ((getD_bitList _ _ _ hk).trans hedge), getD_cellList _ _ _ _ _ hk]
  rfl

/-- Row r of the messages of an iteration from the stored ones. -/
theorem getD_ldpcIterate_stored (s : State L P) (iters : Word) {r : Nat} (hr : r < ldpcRows s) :
    let row := bitList (cellGet s.mem.ldpcH r) (ldpcCols s)
    (ldpcIterate P.arith (ldpcConfig s) (storedMessages s) iters).c2v.getD r [] =
      checkRow P.arith s.ldpcDamp row
        (maskRow P.arith row (cellList s.mem.ldpcV2c (256 * r) (ldpcCols s))) := by
  simp [ldpcIterate, storedMessages, ldpcConfig, hr]

end CheckMessage

variable {L : Type} [DecidableEq L] [Inhabited L] {P : LlrParam L}

/-- Rows from `i` on leave the elements before row `i` alone. -/
theorem cellGet_setRows_of_lt (c : Cells L) (i : Nat) (rows : List (List L)) (k : Nat) (hk : k < 256 * i) :
    cellGet (setRows c i rows) k = cellGet c k := by
  induction rows generalizing c i with
  | nil => rfl
  | cons row rows ih =>
    rw [setRows, ih _ _ (by omega), cellGet_cellSetFrom_of_outside _ _ _ _ (.inl hk)]

/-- Element (r, j) of a message array after a matrix was written from row `i` on. -/
theorem cellGet_setRows {p : Params} (hp : p.ldpcNMax ≤ 256) {n : Nat} (hn : n ≤ p.ldpcNMax)
    (rows : List (List L)) (i : Nat) (hm : i + rows.length ≤ p.ldpcMMax)
    (hlen : ∀ row ∈ rows, row.length = n) (c : Cells L) (hc : cellsWf (validMessage p) c = true) {r j : Nat}
    (hr : r < rows.length) (hj : j < n) (d : L) :
    cellGet (setRows c i rows) (256 * (i + r) + j) = (rows.getD r []).getD j d := by
  induction rows generalizing c i r with
  | nil => simp at hr
  | cons row rows ih =>
    obtain ⟨hrow, hrows⟩ := List.forall_mem_cons.mp hlen
    rw [List.length_cons] at hm hr
    have hvalid : ∀ k, k < row.length → validMessage p (256 * i + k) = true := fun k hk =>
      validMessage_of_lt hp (by omega) (by omega)
    cases r with
    | zero =>
      rw [setRows, Nat.add_zero, cellGet_setRows_of_lt _ _ _ _ (by omega)]
      exact cellGet_cellSetFrom _ c _ row j d (by omega) hvalid hc
    | succ r =>
      rw [setRows, ← Nat.add_assoc, Nat.add_right_comm]
      exact ih (i + 1) (by omega) hrows _ (cellSetFrom_wf _ c _ row hvalid hc) (by omega)

/-- LDPC_C2V after the outputs of R290 were written. -/
theorem c2v_ldpcWrite {s : State L P} {it : LdpcIteration L} {m n : Nat} (hs : s.inv = true)
    (hrows : m ≤ s.params.ldpcMMax) (hcols : n ≤ s.params.ldpcNMax) (hit : it.Shaped m n) {r j : Nat} (hr : r < m)
    (hj : j < n) (d : L) : Spec.c2v (ldpcWrite s it) r j = (it.c2v.getD r []).getD j d := by
  obtain ⟨hp, hm, -⟩ := (state_inv_iff s).mp hs
  obtain ⟨-, -, -, -, hN, -⟩ := (params_legal_iff _).mp hp
  obtain ⟨-, -, -, -, -, -, -, -, -, -, hc2v, -⟩ := (memory_wf_iff _ _).mp hm
  obtain ⟨hc, hcl⟩ := hit.c2v
  subst hc
  have h := cellGet_setRows hN hcols it.c2v 0 (by rwa [Nat.zero_add]) hcl _ hc2v hr hj d
  rwa [Nat.zero_add] at h

/-- LDPC.BP.C with MAXIT = 1 runs one iteration from the stored messages, so each edge's message is made of the
check's other stored ones (R284, R292). -/
theorem execOn_ldpcBpC_c2v (s : State L P) (hs : s.inv = true) (hlegal : Spec.ldpcLegal s)
    (hmax : s.ldpcMaxit = 1#16) :
    ∃ t, execOn .ldpcBpC s = .next t ∧
      ∀ r j, r < s.ldpcM.toNat → j < s.ldpcN.toNat → Spec.edge s r j = true →
        Spec.c2v t r j = checkMessage P.arith s.ldpcDamp ((otherEdges s r j).map (Spec.v2c s r)) := by
  have hok := (ldpcOk_iff_ldpcLegal s).mpr hlegal
  obtain ⟨hrows, hcols⟩ := ldpcOk_sizes hok
  have hexec : execOn .ldpcBpC s = .next (complete .ok
      (ldpcWrite s (ldpcIterate P.arith (ldpcConfig s) (storedMessages s) s.ldpcIters))) := by
    rw [execOn_eq_finish, commandRule, ldpcRule, if_pos hok, hmax]
    rfl
  refine ⟨_, hexec, fun r j (hr : r < ldpcRows s) (hj : j < ldpcCols s) hedge => ?_⟩
  have hshape := ldpcIterate_shaped P.arith (ldpcConfig s) (storedMessages s) s.ldpcIters
    (ldpcConfig_h_isMatrix s) (length_ldpcConfig_rx s) (storedMessages_isMatrix s)
  refine (c2v_ldpcWrite hs hrows hcols hshape hr hj P.arith.zero).trans ?_
  rw [getD_ldpcIterate_stored s _ hr, getD_checkRow _ _ _ _ _ _ ((getD_bitList _ _ _ hj).trans hedge),
    otherMessages_stored]

/-! #### In exact arithmetic -/

theorem exact_abs (a : Rat) : LlrArith.exact.abs a = |a| := by
  by_cases h : a < 0
  · simp [LlrArith.exact, h, abs_of_neg h]
  · simp [LlrArith.exact, h, abs_of_nonneg (not_lt.mp h)]

theorem exact_min (a b : Rat) : LlrArith.exact.min a b = min a b := by
  simp [LlrArith.exact, min_def]

/-- The fold of the binary minimum is a lower bound, and one of the values it ranges over. -/
theorem foldl_exact_min_spec (ms : List Rat) (a : Rat) :
    let least := ms.foldl (fun a x => LlrArith.exact.min a (LlrArith.exact.abs x)) a
    least ≤ a ∧ (∀ m ∈ ms, least ≤ |m|) ∧ (least = a ∨ ∃ m ∈ ms, least = |m|) := by
  induction ms generalizing a with
  | nil => simp
  | cons m ms ih =>
    obtain ⟨hle, hall, hmem⟩ := ih (LlrArith.exact.min a (LlrArith.exact.abs m))
    simp only [exact_abs, exact_min, List.foldl_cons] at *
    obtain ⟨ha, hm⟩ := le_min_iff.mp hle
    refine ⟨ha, List.forall_mem_cons.mpr ⟨hm, hall⟩, ?_⟩
    rcases hmem with hmem | ⟨x, hx, hmem⟩
    · rcases min_choice a |m| with h | h
      · exact .inl (hmem.trans h)
      · exact .inr ⟨m, by simp, hmem.trans h⟩
    · exact .inr ⟨x, by simp [hx], hmem⟩

/-- In exact arithmetic `minAbs` is the least absolute value of the list. -/
theorem exact_minAbs_spec {ms : List Rat} (hne : ms ≠ []) :
    (∀ m ∈ ms, minAbs LlrArith.exact ms ≤ |m|) ∧ ∃ m ∈ ms, minAbs LlrArith.exact ms = |m| := by
  cases ms with
  | nil => exact absurd rfl hne
  | cons m ms =>
    obtain ⟨hle, hall, hmem⟩ := foldl_exact_min_spec ms (LlrArith.exact.abs m)
    refine ⟨List.forall_mem_cons.mpr ⟨hle.trans_eq (exact_abs m), hall⟩, ?_⟩
    rcases hmem with hmem | ⟨x, hx, hmem⟩
    · exact ⟨m, by simp, hmem.trans (exact_abs m)⟩
    · exact ⟨x, by simp [hx], hmem⟩

theorem exact_checkMessage (d : Rat) (ms : List Rat) :
    checkMessage LlrArith.exact d ms =
      if (ms.filter fun m => decide (m < 0)).length % 2 = 1 then -(minAbs LlrArith.exact ms * d)
      else minAbs LlrArith.exact ms * d :=
  checkMessage_eq_ite _ d ms

/-- Magnitude and sign of the message (R284). -/
theorem exact_checkMessage_spec {d : Rat} (hd : 0 < d) {ms : List Rat} (hne : ms ≠ []) :
    let c := checkMessage LlrArith.exact d ms
    (∀ m ∈ ms, |c| ≤ |m| * d) ∧ (∃ m ∈ ms, |c| = |m| * d) ∧
      (c ≠ 0 → (c < 0 ↔ (ms.filter fun m => decide (m < 0)).length % 2 = 1)) := by
  obtain ⟨hle, x, hx, heq⟩ := exact_minAbs_spec hne
  have hnonneg : 0 ≤ minAbs LlrArith.exact ms * d := mul_nonneg (heq ▸ abs_nonneg x) hd.le
  have habs : |checkMessage LlrArith.exact d ms| = minAbs LlrArith.exact ms * d := by
    rw [exact_checkMessage]
    split
    · rw [abs_neg, abs_of_nonneg hnonneg]
    · exact abs_of_nonneg hnonneg
  refine ⟨fun m hm => ?_, ⟨x, hx, ?_⟩, fun hc => ?_⟩
  · rw [habs]
    exact mul_le_mul_of_nonneg_right (hle m hm) hd.le
  · rw [habs, heq]
  · rw [exact_checkMessage] at hc ⊢
    split at hc
    case isTrue hodd =>
      rw [if_pos hodd]
      have hpos := lt_of_le_of_ne hnonneg fun h0 => hc (by rw [← h0, neg_zero])
      exact iff_of_true (neg_neg_of_pos hpos) hodd
    case isFalse heven =>
      rw [if_neg heven]
      exact iff_of_false (not_lt.mpr hnonneg) heven

/-- Settles O42: the message is `checkMessage` of the other stored ones, which is `Spec.minSum` in every arithmetic
and has the stated magnitude and sign in the exact one. -/
theorem ldpcCheckMessageIsDampedMinSum : Obligations.LdpcCheckMessageIsDampedMinSum := by
  unfold Obligations.LdpcCheckMessageIsDampedMinSum
  refine ⟨(onEveryCore_iff _).mpr fun L _ _ P _ s hs hlegal hmax => ?_, fun s hs hlegal hmax => ?_⟩
  · obtain ⟨t, ht, hc2v⟩ := execOn_ldpcBpC_c2v s hs hlegal hmax
    exact ⟨t, ht, fun r j hr hj hedge => (hc2v r j hr hj hedge).trans (checkMessage_eq_minSum _ _ _)⟩
  · obtain ⟨t, ht, hc2v⟩ := execOn_ldpcBpC_c2v s hs hlegal hmax
    refine ⟨t, exec_eq_execOn ▸ ht, fun r j hr hj hedge => ?_⟩
    obtain ⟨-, -, -, -, -, hdamp, -⟩ := id hlegal
    have hne : (otherEdges s r j).map (Spec.v2c s r) ≠ [] := by
      simpa using otherEdges_ne_nil hlegal hr hj hedge
    obtain ⟨hle, ⟨m, hm, heq⟩, hsign⟩ := exact_checkMessage_spec (of_decide_eq_true hdamp) hne
    obtain ⟨k, hk, rfl⟩ := List.mem_map.mp hm
    rw [List.filter_map, List.length_map] at hsign
    rw [hc2v r j hr hj hedge]
    exact ⟨fun k hk => hle _ (List.mem_map_of_mem hk), ⟨k, hk, heq⟩, hsign⟩

end Sys2Proof.Machine

/-! ### The fields of a word -/

namespace Sys2Proof.Machine

theorem getElem_flagBit (b : Bool) (k : Nat) {i : Nat} (hi : i < 32) :
    (flagBit b k)[i] = (b && decide (i = k)) := by
  cases b
  · exact BitVec.getElem_zero hi
  · by_cases h : i = k
    · subst h
      simp [flagBit]
    · have hne : ¬ i < k → ¬ i - k = 0 := by omega
      simpa [flagBit, h] using hne

theorem getLsbD_setWidth_of_le {w i : Nat} (x : BitVec w) (h : w ≤ i) : (x.setWidth 32).getLsbD i = false := by
  rw [BitVec.getLsbD_setWidth, BitVec.getLsbD_of_ge x i h, Bool.and_false]

/-- The lowest field of a word, cut out, is the value put there. -/
theorem extractLsb'_setWidth_or_shiftLeft {w k : Nat} (x : BitVec w) (y : Word) (hw : w ≤ 32) (hk : w ≤ k) :
    (x.setWidth 32 ||| y <<< k).extractLsb' 0 w = x := by
  apply BitVec.eq_of_getLsbD_eq
  intro i hi
  simp [hi, show i < 32 by omega, show i < k by omega]

/-- A field above every set bit of a word, cut out, is the value put there. -/
theorem extractLsb'_or_setWidth_shiftLeft {w k : Nat} (x : Word) (y : BitVec w) (hk : k + w ≤ 32)
    (hx : ∀ i, k ≤ i → i < 32 → x.getLsbD i = false) :
    (x ||| y.setWidth 32 <<< k).extractLsb' k w = y := by
  apply BitVec.eq_of_getLsbD_eq
  intro i hi
  rw [BitVec.getLsbD_extractLsb', BitVec.getLsbD_or, hx _ (by omega) (by omega)]
  simp [hi, show k + i < 32 by omega]

/-- Bits outside a word's mask are 0. -/
theorem extractLsb'_eq_zero_of_and_eq {x m : Word} {k n : Nat} (h : x &&& m = x)
    (hm : m.extractLsb' k n = 0#n) : x.extractLsb' k n = 0#n := by
  rw [← h, BitVec.extractLsb'_and, hm, BitVec.and_zero]

/-- STATUS, field by field (R37). -/
theorem statusWord_fields (st : Status) :
    (statusWord st).getLsbD 0 = st.busy ∧ (statusWord st).getLsbD 1 = st.done ∧
      (statusWord st).getLsbD 2 = st.haz ∧ (statusWord st).getLsbD 3 = false ∧
      (statusWord st).extractLsb' 4 4 = st.err.code ∧ (statusWord st).extractLsb' 8 24 = 0#24 := by
  refine ⟨statusWord_busy st, ?_, ?_, ?_, ?_, extractLsb'_eq_zero_of_and_eq (statusWord_and_mask st) rfl⟩
  case refine_4 =>
    refine extractLsb'_or_setWidth_shiftLeft _ _ (by omega) fun i hi hi' => ?_
    simp [getElem_flagBit, hi', show i ≠ 0 ∧ i ≠ 1 ∧ i ≠ 2 by omega]
  all_goals simp [statusWord, getElem_flagBit]

/-- CTRL, field by field; SRST reads 0 (R36). -/
theorem ctrlWord_fields (irqEn : Bool) :
    (ctrlWord irqEn).getLsbD 0 = irqEn ∧ (ctrlWord irqEn).extractLsb' 1 31 = 0#31 :=
  ⟨by simp [ctrlWord, getElem_flagBit],
    extractLsb'_eq_zero_of_and_eq (flagBit_and_flagBit_true irqEn 0) rfl⟩

/-- PARAM0, field by field: the legal sizes fit their fields (R7, R34). -/
theorem param0Word_fields {p : Params} (hp : p.legal = true) :
    ((param0Word p).extractLsb' 0 8).toNat = p.nsymMax ∧
      ((param0Word p).extractLsb' 16 4).toNat = p.polarLognMax := by
  obtain ⟨hnsym, -, -, -, -, hlogn⟩ := (params_legal_iff p).mp hp
  constructor
  · rw [param0Word, extractLsb'_setWidth_or_shiftLeft _ _ (by omega) (by omega)]
    exact Nat.mod_eq_of_lt (by omega)
  · rw [param0Word, extractLsb'_or_setWidth_shiftLeft _ _ (by omega) fun i hi _ =>
      getLsbD_setWidth_of_le _ (by omega)]
    exact Nat.mod_eq_of_lt (by omega)

/-- PARAM1, field by field: the legal sizes fit their fields (R7, R35). -/
theorem param1Word_fields {p : Params} (hp : p.legal = true) :
    ((param1Word p).extractLsb' 0 9).toNat = p.ldpcMMax ∧
      ((param1Word p).extractLsb' 16 9).toNat = p.ldpcNMax := by
  obtain ⟨-, -, hM, -, hN, -⟩ := (params_legal_iff p).mp hp
  constructor
  · rw [param1Word, extractLsb'_setWidth_or_shiftLeft _ _ (by omega) (by omega)]
    exact Nat.mod_eq_of_lt (by omega)
  · rw [param1Word, extractLsb'_or_setWidth_shiftLeft _ _ (by omega) fun i hi _ =>
      getLsbD_setWidth_of_le _ (by omega)]
    exact Nat.mod_eq_of_lt (by omega)

end Sys2Proof.Machine

/-! ### The constants ID, PARAM0 and PARAM1 -/

namespace Sys2Proof.Machine

variable {L : Type} [DecidableEq L] [Inhabited L] {P : LlrParam L}

/-- No rule of a command touches the sizes, CTRL, STATUS, CMD or the model's own record of the outside. -/
theorem commandRule_frame (i : Instr) {s s' : State L P} (h : commandRule i s = .ok s') :
    s'.params = s.params ∧ s'.irqEn = s.irqEn ∧ s'.status = s.status ∧ s'.cmd = s.cmd ∧
      s'.events = s.events ∧ s'.rdata = s.rdata ∧ s'.draws = s.draws := by
  cases i
  case nop | hamEnc | hamEncX | hamDec | hamDecX | gfMul => cases h; exact ⟨rfl, rfl, rfl, rfl, rfl, rfl, rfl⟩
  case gfInv | rsEnc | rsSynd | ldpcBp | ldpcBpC | polarSc =>
    simp only [commandRule, gfInvRule, rsEncRule, rsSyndRule, ldpcRule, polarRule] at h
    split at h <;> cases h
    exact ⟨rfl, rfl, rfl, rfl, rfl, rfl, rfl⟩
  case rsBm | rsChien =>
    simp only [commandRule, rsBmRule, rsChienRule] at h
    split at h
    · split at h <;> cases h
      exact ⟨rfl, rfl, rfl, rfl, rfl, rfl, rfl⟩
    · cases h

theorem finish_commandRule_params (i : Instr) (s : State L P) :
    (finish s (commandRule i s)).params = s.params := by
  rcases finish_cases s _ _ rfl with ⟨s', h, ht⟩ | ⟨c, -, ht⟩ <;> rw [ht, complete_params]
  obtain ⟨hp, -⟩ := commandRule_frame i h
  exact hp

theorem engineTurn_params {s t : State L P} (h : engineTurn s = .next t) : t.params = s.params := by
  rcases engineTurn_cases s with ⟨-, h'⟩ | ⟨-, i, -, h'⟩ | ⟨-, e, -, h'⟩ <;> rw [h'] at h <;> cases h
  · rfl
  · exact finish_commandRule_params i s
  · rfl

/-- No step changes the sizes (log entry 1). -/
theorem stepOn_params {s t : State L P} (h : stepOn s = .next t) : t.params = s.params := by
  rcases stepOn_cases s t h with ⟨txn, es, -, rfl⟩ | ⟨d, es, -, rfl⟩ | ⟨es, -, h'⟩ | ⟨-, h'⟩
  · exact (hostTxn_frame txn _).2
  · rfl
  · exact engineTurn_params (s := { s with events := es }) h'
  · exact engineTurn_params h'

/-- Settles O22: the three read functions of the sizes, which fit their fields and which no step changes. -/
theorem identificationIsConstant : Obligations.IdentificationIsConstant := by
  unfold Obligations.IdentificationIsConstant
  refine (onEveryCore_iff _).mpr fun L _ _ P _ => ⟨fun s hp => ?_, fun s t h l hl => ?_⟩
  · exact ⟨rfl, ⟨_, rfl, param0Word_fields hp⟩, _, rfl, param1Word_fields hp⟩
  · have hparams := stepOn_params h
    simp only [List.mem_cons, List.not_mem_nil, or_false] at hl
    rcases hl with rfl | rfl | rfl <;> simp only [readLocation, hparams]

end Sys2Proof.Machine

/-! ### STATUS and CTRL -/

namespace Sys2Proof.Machine

variable {L : Type} {P : LlrParam L}

/-! #### A write, by the location it reaches (R87) -/

theorem regWrite_status {s : State L P} {a : Addr} (v : PortValue L) (h : locate s.params a = .status) :
    regWrite a v s = clearStatus (v.toWord P) s := by
  rw [regWrite, h]

theorem regWrite_ctrl {s : State L P} {a : Addr} (v : PortValue L) (h : locate s.params a = .ctrl) :
    regWrite a v s = writeCtrl (v.toWord P) s := by
  rw [regWrite, h]

theorem regWrite_cmd_idle {s : State L P} {a : Addr} (v : PortValue L) (h : locate s.params a = .cmd)
    (hb : s.status.busy = false) : regWrite a v s = launch (v.toWord P) s := by
  simp [regWrite, h, hb]

theorem regWrite_cmd_busy {s : State L P} {a : Addr} (v : PortValue L) (h : locate s.params a = .cmd)
    (hb : s.status.busy = true) : regWrite a v s = setHaz s := by
  simp [regWrite, h, hb]

/-- Settles O21: the fields of the two words, and the branches of R87 for STATUS and for CTRL without SRST. -/
theorem statusAndCtrlReadTheirFieldsAndTakeTheirWrites :
    Obligations.StatusAndCtrlReadTheirFieldsAndTakeTheirWrites := by
  unfold Obligations.StatusAndCtrlReadTheirFieldsAndTakeTheirWrites
  intro L _ _ P s a v
  refine ⟨fun h => ⟨⟨_, rfl, statusWord_fields s.status⟩, regWrite_status v h⟩,
    fun h => ⟨⟨_, rfl, ctrlWord_fields s.irqEn⟩, fun hsrst => ?_⟩⟩
  rw [regWrite_ctrl v h, writeCtrl, hsrst]
  rfl

/-! #### What each event does to BUSY and DONE -/

/-- The writes that lower DONE: a 1 to DONE itself, a launch, a soft reset (R37, R141, R401). -/
def clearsDone (s : State L P) (a : Addr) (v : PortValue L) : Prop :=
  (locate s.params a = .status ∧ (v.toWord P).getLsbD 1 = true) ∨
    (locate s.params a = .cmd ∧ s.status.busy = false) ∨
    (locate s.params a = .ctrl ∧ (v.toWord P).getLsbD 1 = true ∧ s.status.busy = false)

theorem writeCtrl_busy_done (w : Word) (s : State L P) :
    (writeCtrl w s).status.busy = s.status.busy ∧
      ((writeCtrl w s).status.done = false ↔
        s.status.done = false ∨ (w.getLsbD 1 = true ∧ s.status.busy = false)) := by
  rcases writeCtrl_cases w s with ⟨hw, h⟩ | ⟨hw, hb, h⟩ | ⟨hw, hb, h⟩ <;> rw [h, hw]
  · simp
  · simp [hb]
  · simp [hb]

/-- A write that reaches none of CTRL, STATUS and CMD leaves BUSY and DONE alone. -/
theorem regWrite_busy_done_of_other {s : State L P} {a : Addr} (v : PortValue L)
    (hstatus : locate s.params a ≠ .status) (hctrl : locate s.params a ≠ .ctrl)
    (hcmd : locate s.params a ≠ .cmd) :
    (regWrite a v s).status.busy = s.status.busy ∧ (regWrite a v s).status.done = s.status.done := by
  rcases regWrite_cases a v s with ⟨-, h⟩ | ⟨hl, -⟩ | ⟨hl, -⟩ | ⟨hl, -⟩ | ⟨hl, -⟩ | ⟨-, h⟩ | ⟨-, -, h⟩ |
    ⟨-, -, h⟩
  · rw [h]; exact ⟨rfl, rfl⟩
  · exact absurd hl hstatus
  · exact absurd hl hctrl
  · exact absurd hl hcmd
  · exact absurd hl hcmd
  · rw [h]; exact ⟨rfl, rfl⟩
  · rw [h]; exact ⟨rfl, rfl⟩
  · obtain ⟨-, hframe, -⟩ := writeOperand_frame s v (locate s.params a)
    rw [h, hframe]
    exact ⟨rfl, rfl⟩

/-- A write raises BUSY where it reaches CMD, and lowers DONE where `clearsDone` says. -/
theorem regWrite_busy_done (a : Addr) (v : PortValue L) (s : State L P) :
    ((regWrite a v s).status.busy = true ↔ s.status.busy = true ∨ locate s.params a = .cmd) ∧
      ((regWrite a v s).status.done = false ↔ s.status.done = false ∨ clearsDone s a v) := by
  by_cases hstatus : locate s.params a = .status
  · simp [regWrite_status v hstatus, clearsDone, hstatus, imp_iff_not_or]
  by_cases hctrl : locate s.params a = .ctrl
  · simp [regWrite_ctrl v hctrl, writeCtrl_busy_done, clearsDone, hctrl]
  by_cases hcmd : locate s.params a = .cmd
  · cases hb : s.status.busy with
    | false => simp [regWrite_cmd_idle v hcmd hb, clearsDone, hcmd, hb]
    | true => simp [regWrite_cmd_busy v hcmd hb, clearsDone, hcmd, hb]
  · simp [regWrite_busy_done_of_other v hstatus hctrl hcmd, clearsDone, hstatus, hctrl, hcmd]

theorem regRead_status [Inhabited L] (a : Addr) (s : State L P) : (regRead a s).status = s.status := by
  rcases regRead_cases a s with ⟨-, -, h⟩ | ⟨-, h⟩ <;> rw [h]

/-- Whatever the command's rule answers, its completion ends with BUSY = 0 and DONE = 1 (R142). -/
theorem finish_busy_done (s : State L P) (r : Except ErrCode (State L P)) :
    (finish s r).status.busy = false ∧ (finish s r).status.done = true := by
  cases r <;> exact ⟨rfl, rfl⟩

/-- The next event is the Engine's turn, placed or by default (log entry 6). -/
def isEngineTurn (s : State L P) : Prop := s.events = [] ∨ ∃ es, s.events = .engine :: es

theorem isEngineTurn_not_rst {s : State L P} (h : isEngineTurn s) (d : Memory L) (es : List (Event L)) :
    s.events ≠ .rst d :: es := by
  rcases h with h | ⟨es', h⟩ <;> simp [h]

theorem isEngineTurn_not_host {s : State L P} (h : isEngineTurn s) (txn : HostTxn L) (es : List (Event L)) :
    s.events ≠ .host txn :: es := by
  rcases h with h | ⟨es', h⟩ <;> simp [h]

variable [DecidableEq L] [Inhabited L]

/-- The Engine's turn completes a pending command or does nothing. -/
theorem engineTurn_busy_done {s t : State L P} (h : engineTurn s = .next t) :
    (s.status.busy = false ∧ t.status = s.status) ∨
      (s.status.busy = true ∧ t.status.busy = false ∧ t.status.done = true) := by
  rcases engineTurn_cases s with ⟨hb, h'⟩ | ⟨hb, i, -, h'⟩ | ⟨hb, e, -, h'⟩ <;> rw [h'] at h <;> cases h
  · exact .inl ⟨hb, rfl⟩
  · exact .inr ⟨hb, finish_busy_done s _⟩
  · exact .inr ⟨hb, rfl, rfl⟩

/-- BUSY and DONE after a step, by its event. -/
theorem stepOn_busy_done {s t : State L P} (h : stepOn s = .next t) :
    (∃ a es, s.events = .host (.read a) :: es ∧ t.status = s.status) ∨
    (∃ a v es, s.events = .host (.write a v) :: es ∧
      (t.status.busy = true ↔ s.status.busy = true ∨ locate s.params a = .cmd) ∧
      (t.status.done = false ↔ s.status.done = false ∨ clearsDone s a v) ∧
      (locate s.params a = .cmd → s.status.busy = false → t.cmd = v.toWord P)) ∨
    (∃ d es, s.events = .rst d :: es ∧ t.status.busy = false ∧ t.status.done = false) ∨
    (isEngineTurn s ∧
      ((s.status.busy = false ∧ t.status = s.status) ∨
        (s.status.busy = true ∧ t.status.busy = false ∧ t.status.done = true))) := by
  rcases stepOn_cases s t h with ⟨txn, es, he, rfl⟩ | ⟨d, es, he, rfl⟩ | ⟨es, he, h'⟩ | ⟨he, h'⟩
  · cases txn with
    | read a => exact .inl ⟨a, es, he, regRead_status a _⟩
    | write a v =>
      obtain ⟨hbusy, hdone⟩ := regWrite_busy_done a v { s with events := es }
      exact .inr (.inl ⟨a, v, es, he, hbusy, hdone, fun hcmd hb =>
        congrArg State.cmd (regWrite_cmd_idle (s := { s with events := es }) v hcmd hb)⟩)
  · exact .inr (.inr (.inl ⟨d, es, he, rfl, rfl⟩))
  · exact .inr (.inr (.inr ⟨.inr ⟨es, he⟩, engineTurn_busy_done (s := { s with events := es }) h'⟩))
  · exact .inr (.inr (.inr ⟨.inl he, engineTurn_busy_done h'⟩))

/-- Settles O55: each event of the order moves BUSY and DONE as `stepOn_busy_done` says. -/
theorem whatMovesBusyAndDone : Obligations.WhatMovesBusyAndDone := by
  unfold Obligations.WhatMovesBusyAndDone
  refine (onEveryCore_iff _).mpr fun L _ _ P _ s t h => ?_
  rcases stepOn_busy_done h with ⟨a, es, he, hst⟩ | ⟨a, v, es, he, hbusy, hdone, hcmd⟩ |
    ⟨d, es, he, hbusy, hdone⟩ | ⟨he, ⟨hb, hst⟩ | ⟨hb, hbusy, hdone⟩⟩
  · simp +contextual [he, hst]
  · refine ⟨fun hb ht => ?_, fun hb ht => ?_, fun hd ht => ?_, fun hd => ?_⟩
    · have hl := (hbusy.mp ht).resolve_left (by simp [hb])
      exact ⟨a, v, es, he, hl, hcmd hl hb⟩
    · simp [hbusy.mpr (.inl hb)] at ht
    · simp [hdone.mpr (.inl hd)] at ht
    · simp [hdone, hd, he, clearsDone]
  · simp [he, hbusy, hdone]
  · simp +contextual [hb, hst, isEngineTurn_not_rst he, isEngineTurn_not_host he]
  · refine ⟨fun hb' => ?_, fun _ _ => .inl ⟨he, hdone⟩, fun _ _ => ⟨hb, he⟩, fun _ => ?_⟩
    · simp [hb] at hb'
    · simp [hdone, isEngineTurn_not_rst he, isEngineTurn_not_host he]

end Sys2Proof.Machine

/-! ### The events of the order -/

namespace Sys2Proof.Machine

variable {L : Type} [DecidableEq L] [Inhabited L] {P : LlrParam L} {s : State L P} {es : List (Event L)}

/-! #### A step, by the event that comes next -/

theorem stepOn_nil (h : s.events = []) : stepOn s = engineTurn s := by
  rw [stepOn, h]

theorem stepOn_host {txn : HostTxn L} (h : s.events = .host txn :: es) :
    stepOn s = .next (hostTxn txn { s with events := es }) := by
  rw [stepOn, h]

theorem stepOn_engine (h : s.events = .engine :: es) : stepOn s = engineTurn { s with events := es } := by
  rw [stepOn, h]

theorem stepOn_rst {d : Memory L} (h : s.events = .rst d :: es) :
    stepOn s = .next (hardReset d { s with events := es }) := by
  rw [stepOn, h]

theorem engineTurn_pending (hb : s.status.busy = true) : engineTurn s = completion s := by
  rw [engineTurn, hb]
  rfl

/-- Settles O5: one equation of the step per kind of event. -/
theorem stepTakesTheNextEvent : Obligations.StepTakesTheNextEvent := by
  unfold Obligations.StepTakesTheNextEvent
  exact (onEveryCore_iff _).mpr fun L _ _ P _ s es =>
    ⟨fun _ h => stepOn_host h, fun _ _ h => stepOn_host h, fun _ h => stepOn_rst h, stepOn_engine, stepOn_nil⟩

end Sys2Proof.Machine

/-! ### Host transactions while a command is pending -/

namespace Sys2Proof.Machine

variable {L : Type} {P : LlrParam L}

/-- `s` with the fields that a Host can still move while a command is pending as `t` has them: IRQ_EN, DONE and
HAZ, and the model's record of the reads (R37, R87; log entries 7 and 8). -/
def State.withHostMarks (s t : State L P) : State L P :=
  { s with
    irqEn := t.irqEn
    status := { s.status with done := t.status.done, haz := t.status.haz }
    rdata := t.rdata
    draws := t.draws }

/-- Of two markings the later one stands. -/
theorem withHostMarks_of_marked {s t u : State L P} (hst : t = s.withHostMarks t) (htu : u = t.withHostMarks u) :
    u = s.withHostMarks u := by
  rw [hst] at htu
  exact htu

/-! #### A transaction moves the marks only -/

theorem regRead_eq_withHostMarks [Inhabited L] (a : Addr) (s : State L P) :
    regRead a s = s.withHostMarks (regRead a s) := by
  rcases regRead_cases a s with ⟨-, -, h⟩ | ⟨-, h⟩ <;> rw [h] <;> rfl

theorem writeCtrl_eq_withHostMarks (w : Word) {s : State L P} (hb : s.status.busy = true) :
    writeCtrl w s = s.withHostMarks (writeCtrl w s) := by
  rcases writeCtrl_cases w s with ⟨-, h⟩ | ⟨-, -, h⟩ | ⟨-, hidle, -⟩
  · rw [h]; rfl
  · rw [h]; rfl
  · simp [hb] at hidle

theorem regWrite_eq_withHostMarks (a : Addr) (v : PortValue L) {s : State L P} (hb : s.status.busy = true) :
    regWrite a v s = s.withHostMarks (regWrite a v s) := by
  rcases regWrite_cases a v s with ⟨-, h⟩ | ⟨-, h⟩ | ⟨-, h⟩ | ⟨-, -, h⟩ | ⟨-, hidle, -⟩ | ⟨-, h⟩ | ⟨-, -, h⟩ |
    ⟨-, hidle, -⟩
  case inr.inr.inl => rw [h]; exact writeCtrl_eq_withHostMarks _ hb
  case inr.inr.inr.inr.inl | inr.inr.inr.inr.inr.inr.inr => simp [hb] at hidle
  all_goals rw [h]; rfl

theorem hostTxn_eq_withHostMarks [Inhabited L] (txn : HostTxn L) {s : State L P} (hb : s.status.busy = true) :
    hostTxn txn s = s.withHostMarks (hostTxn txn s) := by
  cases txn with
  | read a => exact regRead_eq_withHostMarks a s
  | write a v => exact regWrite_eq_withHostMarks a v hb

/-! #### A completion neither reads nor moves the marks, DONE apart -/

variable [DecidableEq L] [Inhabited L]

theorem commandRule_withHostMarks (i : Instr) (s t : State L P) :
    commandRule i (s.withHostMarks t) = (commandRule i s).map (·.withHostMarks t) := by
  cases i
  case nop | hamEnc | hamEncX | hamDec | hamDecX | gfMul => rfl
  case gfInv | rsEnc | rsSynd | ldpcBp | ldpcBpC | polarSc =>
    simp only [commandRule, gfInvRule, rsEncRule, rsSyndRule, ldpcRule, polarRule, apply_ite (Except.map _)]
    rfl
  case rsBm | rsChien =>
    simp only [commandRule, rsBmRule, rsChienRule, apply_ite (Except.map _)]
    rfl

theorem completion_withHostMarks {s t u : State L P} (h : completion s = .next u) :
    completion (s.withHostMarks t) =
      .next { u with
        irqEn := t.irqEn, status := { u.status with haz := t.status.haz }, rdata := t.rdata, draws := t.draws } := by
  have hcmd : (s.withHostMarks t).cmd = s.cmd := rfl
  unfold completion at h ⊢
  rw [hcmd]
  cases hd : decode s.cmd with
  | ok i =>
    simp only [hd, execOn_eq_finish, commandRule_withHostMarks] at h ⊢
    cases h
    cases commandRule i s <;> rfl
  | error e =>
    simp only [hd] at h ⊢
    cases h
    rfl

/-! #### A run of transactions, then the completion -/

theorem run_one (M : Host.Core) (s : M.State) : M.run 1 s = M.step s := by
  rw [Host.Core.run]
  cases M.step s <;> rfl

theorem run_succ_of_step (M : Host.Core) {s t : M.State} (k : Nat) (h : M.step s = .next t) :
    M.run (k + 1) s = M.run k t := by
  rw [Host.Core.run, h]

/-- While a command is pending the Host's transactions leave it pending and move the marks only, so the run ends
with the completion of a marked state. -/
theorem run_hostTxns_eq_completion (p : Params) (txns : List (HostTxn L)) {s : State L P}
    (hb : s.status.busy = true) (he : s.events = txns.map .host) :
    ∃ s', s' = State.withHostMarks { s with events := [] } s' ∧
      (machineOn L P p).core.run (txns.length + 1) s = completion s' := by
  induction txns generalizing s with
  | nil =>
    rw [List.map_nil] at he
    refine ⟨s, by rw [← he]; rfl, (run_one (machineOn L P p).core s).trans ?_⟩
    exact (stepOn_nil he).trans (engineTurn_pending hb)
  | cons txn txns ih =>
    have hmarks := hostTxn_eq_withHostMarks txn (s := { s with events := txns.map .host }) hb
    obtain ⟨s', hs', hrun⟩ :=
      ih (s := hostTxn txn { s with events := txns.map .host }) (by rw [hmarks]; exact hb) (hostTxn_frame txn _).1
    refine ⟨s', ?_, (run_succ_of_step (machineOn L P p).core _ (stepOn_host he)).trans hrun⟩
    refine withHostMarks_of_marked ?_ hs'
    rw [hmarks]; rfl

/-- Settles O8: the marks commute with the completion, and they are all that the transactions move. -/
theorem hostCannotDisturbAPendingCommand : Obligations.HostCannotDisturbAPendingCommand := by
  unfold Obligations.HostCannotDisturbAPendingCommand
  refine (onEveryCore_iff _).mpr fun L _ _ P p s txns hb he => ?_
  obtain ⟨s', hs', hrun⟩ := run_hostTxns_eq_completion p txns hb he
  obtain ⟨u, hu⟩ := completion_eq_next { s with events := [] }
  have hstep : stepOn { s with events := [] } = .next u :=
    (stepOn_nil rfl).trans ((engineTurn_pending (s := { s with events := [] }) hb).trans hu)
  rw [hs', completion_withHostMarks hu] at hrun
  exact ⟨_, u, hrun, hstep, rfl⟩

end Sys2Proof.Machine

/-! ### Address bits [1:0] -/

namespace Sys2Proof.Machine

variable {L : Type} {P : LlrParam L}

theorem alignedOffset_and_mask (a : Addr) : alignedOffset (a &&& 0xFFFFC#20) = alignedOffset a := by
  have hmask : (a.toNat &&& 0xFFFFC) / 2 ^ 2 = a.toNat / 2 ^ 2 := by
    rw [Nat.and_div_two_pow]
    exact (Nat.and_two_pow_sub_one_eq_mod _ 18).trans (Nat.mod_eq_of_lt (by omega))
  simp only [alignedOffset, BitVec.toNat_and, BitVec.toNat_ofNat]
  exact congrArg (· * 4) hmask

theorem locate_and_mask (p : Params) (a : Addr) : locate p (a &&& 0xFFFFC#20) = locate p a := by
  rw [locate, alignedOffset_and_mask, locate]

/-- Settles O16: a transaction uses its address through `locate` alone. -/
theorem lowAddressBitsAreIgnored : Obligations.LowAddressBitsAreIgnored := by
  unfold Obligations.LowAddressBitsAreIgnored
  intro L _ _ P s a v
  constructor
  · rw [regRead, regRead, locate_and_mask]
  · rw [regWrite, regWrite, locate_and_mask]

end Sys2Proof.Machine

/-! ### Reads and writes by the kind of location -/

namespace Sys2Proof.Machine

variable {L : Type} {P : LlrParam L}

/-- The model's write sets are the table of R144. -/
theorem writeSet_iff_writes (i : Instr) (l : Location) : writeSet i l = true ↔ Spec.writes i l := by
  cases i
  case nop | hamEnc | hamEncX | hamDec | hamDecX | gfMul | gfInv => simp [writeSet, Spec.writes]
  all_goals cases l <;> simp [writeSet, Spec.writes]

theorem pendingWrites_iff_wordWrites (w : Word) (l : Location) :
    pendingWrites w l = true ↔ Spec.wordWrites w l := by
  unfold pendingWrites Spec.wordWrites
  cases decode w with
  | ok i => simp [writeSet_iff_writes]
  | error e => simp

theorem not_wordWrites_reserved (w : Word) : ¬ Spec.wordWrites w .reserved := by
  rintro ⟨i, -, h⟩
  cases i <;> simp [Spec.writes] at h

theorem isOperand_iff_rw (l : Location) : l.isOperand = true ↔ Spec.rw l := by
  cases l <;> simp [Location.isOperand, Spec.rw]

/-! #### Reads (R86) -/

theorem regRead_current [Inhabited L] {s : State L P} {a : Addr}
    (h : s.status.busy = false ∨ ¬ Spec.wordWrites s.cmd (locate s.params a)) :
    regRead a s = { s with rdata := some (readLocation s (locate s.params a)) } := by
  rcases regRead_cases a s with ⟨hb, hw, -⟩ | ⟨-, hread⟩
  · simp [hb, (pendingWrites_iff_wordWrites _ _).mp hw] at h
  · exact hread

theorem regRead_free [Inhabited L] {s : State L P} {a : Addr} (hb : s.status.busy = true)
    (hw : Spec.wordWrites s.cmd (locate s.params a)) :
    regRead a s = { s with
      rdata := some (if (locate s.params a).isLlr then .llr (Config.freeLlr L s.draws)
        else .word (Config.freeWord s.draws))
      draws := s.draws + 1 } := by
  rcases regRead_cases a s with ⟨-, -, hread⟩ | ⟨h, -⟩
  · exact hread
  · simp [hb, (pendingWrites_iff_wordWrites _ _).mpr hw] at h

/-- Settles O18: `regRead`'s two branches, told apart by the table of R144. -/
theorem readsAnswerAndChangeNothing : Obligations.ReadsAnswerAndChangeNothing := by
  unfold Obligations.ReadsAnswerAndChangeNothing
  exact fun L _ _ P s a => ⟨regRead_current, regRead_free⟩

/-! #### Writes (R87) -/

theorem regWrite_reserved {s : State L P} {a : Addr} (v : PortValue L) (h : locate s.params a = .reserved) :
    regWrite a v s = s := by
  rw [regWrite, h]

/-- Outside CTRL, STATUS and CMD a write reaches an operand or nothing. -/
theorem regWrite_of_other {s : State L P} {a : Addr} (v : PortValue L)
    (h : locate s.params a ∉ [.ctrl, .status, .cmd]) :
    regWrite a v s =
      if (locate s.params a).isOperand then (if s.status.busy then setHaz s else writeOperand s v (locate s.params a))
      else s := by
  unfold regWrite
  generalize locate s.params a = l at h ⊢
  cases l
  case ctrl | status | cmd => simp at h
  all_goals rfl

theorem not_mem_of_rw {l : Location} (h : Spec.rw l) : l ∉ [.ctrl, .status, .cmd] := by
  intro hl
  simp only [List.mem_cons, List.not_mem_nil, or_false] at hl
  rcases hl with rfl | rfl | rfl <;> exact h

/-- Settles O15: no command writes a reserved address, so a read answers its value 0. -/
theorem reservedAddressesReadZeroAndIgnoreWrites : Obligations.ReservedAddressesReadZeroAndIgnoreWrites := by
  unfold Obligations.ReservedAddressesReadZeroAndIgnoreWrites
  intro L _ _ P s a v h
  refine ⟨?_, regWrite_reserved v h⟩
  rw [regRead_current (.inr (h ▸ not_wordWrites_reserved s.cmd)), h]
  rfl

/-- Settles O20: the branch of R87 for operands, with the location's access and BUSY put in. -/
theorem operandWritesAreStoredOrDroppedWithHaz : Obligations.OperandWritesAreStoredOrDroppedWithHaz := by
  unfold Obligations.OperandWritesAreStoredOrDroppedWithHaz
  intro L _ _ P s a v
  refine ⟨fun hb h => ?_, fun hb h => ?_, fun h hother => ?_⟩
  · rcases h with h | h
    · rw [regWrite_of_other v (not_mem_of_rw h), if_pos ((isOperand_iff_rw _).mpr h), if_pos hb]
      rfl
    · exact regWrite_cmd_busy v h hb
  · rw [regWrite_of_other v (not_mem_of_rw h), if_pos ((isOperand_iff_rw _).mpr h), if_neg (by simp [hb])]
  · rw [regWrite_of_other v hother, if_neg (mt (isOperand_iff_rw _).mp h)]

end Sys2Proof.Machine

/-! ### The address map, register by register and window by window -/

namespace Sys2Proof.Machine

/-! #### The scalar registers (R82) -/

theorem locate_of_lt {p : Params} {a : Addr} (h : a.toNat < 0x01000) :
    locate p a = (scalarMap.lookup (alignedOffset a)).getD .reserved := by
  have ha : alignedOffset a < 0x01000 := by unfold alignedOffset; omega
  rw [locate, locateWord, if_pos ha]

theorem scalarMap_eq_map_scalars : scalarMap = Spec.scalars.map fun e => (e.1.toNat, e.2) := rfl

/-- Settles O13: below 0x01000 the map is the lookup in the table of R82, in which no offset stands twice. -/
theorem scalarRegisterMap : Obligations.ScalarRegisterMap := by
  unfold Obligations.ScalarRegisterMap
  intro p
  constructor
  · have hlookup : ∀ e ∈ Spec.scalars,
        e.1.toNat < 0x01000 ∧ (scalarMap.lookup (alignedOffset e.1)).getD .reserved = e.2 := by decide
    intro e he
    obtain ⟨hlt, hl⟩ := hlookup e he
    rw [locate_of_lt hlt, hl]
  · intro a hlt halign hmem
    have ha : alignedOffset a = a.toNat := by unfold alignedOffset; omega
    have hnone : scalarMap.lookup a.toNat = none := by
      rw [scalarMap_eq_map_scalars, List.lookup_eq_none_iff]
      intro e he
      obtain ⟨e', he', rfl⟩ := List.mem_map.mp he
      have hne : a.toNat ≠ e'.1.toNat := fun h =>
        hmem (List.mem_map.mpr ⟨e', he', (BitVec.eq_of_toNat_eq h).symm⟩)
      exact bne_iff_ne.mpr hne
    rw [locate_of_lt hlt, ha, hnone]
    rfl

/-! #### The windows (R83, R93) -/

/-- The indexes that a window has addresses for, whatever the sizes of the core; no window for the other locations. -/
def Location.inWindow : Location → Prop
  | .rsBuf i | .rsSyn i | .rsLambda i | .rsPos i | .ldpcBelief i => i < 256
  | .ldpcRx k | .ldpcHd k | .ldpcSyn k => k < 8
  | .polarFrozen k | .polarRx k | .polarUhat k | .polarXhat k | .polarMsg k => k < 32
  | .ldpcH i k => i < 256 ∧ k < 8
  | .ldpcC2v i j | .ldpcV2c i j => i < 256 ∧ j < 256
  | _ => False

theorem offset_of_inWindow {l : Location} {o : Nat} (hl : l.inWindow) (ho : l.offset = some o) :
    o % 4 = 0 ∧ o < 2 ^ 20 := by
  cases l <;> simp only [Location.inWindow] at hl <;> cases ho
  all_goals omega

/-- At its own offset each window is the first of the chain that the offset is below, and its index is taken back
out of the offset. -/
theorem locateWord_offset (p : Params) {l : Location} {o : Nat} (hl : l.inWindow) (ho : l.offset = some o) :
    locateWord p o = ifValid (l.present p) l := by
  cases l <;> simp only [Location.inWindow] at hl <;> cases ho
  all_goals
    simp (disch := omega) only [locateWord, ↓if_pos, ↓if_neg, Location.present, validMessage, Nat.add_assoc,
      Nat.add_sub_cancel_left, Nat.mul_div_cancel_left, Nat.mul_add_div, Nat.mul_add_mod, Nat.div_eq_of_lt,
      Nat.mod_eq_of_lt, Nat.add_zero]

theorem locateWord_gap (p : Params) {g : Nat × Nat} (hg : g ∈ Spec.gaps) {o : Nat} (hlo : g.1 ≤ o) (hhi : o < g.2) :
    locateWord p o = .reserved := by
  simp only [Spec.gaps, List.mem_cons, List.not_mem_nil, or_false] at hg
  rcases hg with rfl | rfl | rfl | rfl | rfl | rfl | rfl | rfl | rfl | rfl | rfl
  all_goals simp (disch := omega) only [locateWord, ↓if_pos, ↓if_neg]

theorem locate_ofNat (p : Params) {o : Nat} (halign : o % 4 = 0) (hlt : o < 2 ^ 20) :
    locate p (BitVec.ofNat 20 o) = locateWord p o := by
  have ho : alignedOffset (BitVec.ofNat 20 o) = o := by
    rw [alignedOffset, BitVec.toNat_ofNat, Nat.mod_eq_of_lt hlt]
    omega
  rw [locate, ho]

theorem windowAt_offset (p : Params) {l : Location} {o : Nat} {valid : Prop} (hl : l.inWindow)
    (ho : l.offset = some o) (hvalid : l.present p = true ↔ valid) : Spec.windowAt p o valid l := by
  obtain ⟨halign, hlt⟩ := offset_of_inWindow hl ho
  have hlocate : locate p (BitVec.ofNat 20 o) = ifValid (l.present p) l :=
    (locate_ofNat p halign hlt).trans (locateWord_offset p hl ho)
  constructor
  · intro h
    rw [hlocate, hvalid.mpr h]
    rfl
  · intro h
    rw [hlocate, Bool.eq_false_iff.mpr (mt hvalid.mp h)]
    rfl

/-- Every gap begins word-aligned, so the aligned offset of an address in a gap is in it too. -/
theorem locate_gap (p : Params) {g : Nat × Nat} (hg : g ∈ Spec.gaps) {a : Addr} (hlo : g.1 ≤ a.toNat)
    (hhi : a.toNat < g.2) : locate p a = .reserved := by
  have halign : ∀ g ∈ Spec.gaps, g.1 % 4 = 0 := by decide
  have hg4 := halign g hg
  exact locateWord_gap p hg (by unfold alignedOffset; omega) (by unfold alignedOffset; omega)

/-- Settles O14: each window's locations at their offsets, and the gaps. -/
theorem arrayWindowMap : Obligations.ArrayWindowMap := by
  unfold Obligations.ArrayWindowMap
  intro p _
  refine ⟨fun i h => windowAt_offset p h rfl decide_eq_true_iff,
    fun i h => windowAt_offset p h rfl decide_eq_true_iff,
    fun j h => windowAt_offset p h rfl decide_eq_true_iff,
    fun k h => windowAt_offset p h rfl decide_eq_true_iff,
    fun k h => windowAt_offset p h rfl decide_eq_true_iff,
    fun k h => windowAt_offset p h rfl decide_eq_true_iff,
    fun k h => windowAt_offset p h rfl decide_eq_true_iff,
    fun j h => windowAt_offset p h rfl decide_eq_true_iff,
    fun k h => windowAt_offset p h rfl decide_eq_true_iff,
    fun k h => windowAt_offset p h rfl decide_eq_true_iff,
    fun k h => windowAt_offset p h rfl decide_eq_true_iff,
    fun k h => windowAt_offset p h rfl decide_eq_true_iff,
    fun k h => windowAt_offset p h rfl decide_eq_true_iff,
    fun i k hi hk => windowAt_offset p ⟨hi, hk⟩ rfl ?_,
    fun i j hi hj => windowAt_offset p ⟨hi, hj⟩ rfl ?_,
    fun i j hi hj => windowAt_offset p ⟨hi, hj⟩ rfl ?_,
    fun g hg a => locate_gap p hg⟩
  all_goals simp [Location.present, validRow]

end Sys2Proof.Machine

/-! ### The command words and their fields -/

namespace Sys2Proof

/-- The three fields of R110 that stand in a word. -/
def commandFields (w : Word) : CommandFields := ⟨opField w, flagField w, rsvField w⟩

theorem roundTrip (i : Instr) : Laws.RoundTrip.Statement i := by
  cases i
  exacts [Laws.RoundTrip.nop, Laws.RoundTrip.hamEnc, Laws.RoundTrip.hamEncX, Laws.RoundTrip.hamDec,
    Laws.RoundTrip.hamDecX, Laws.RoundTrip.gfMul, Laws.RoundTrip.gfInv, Laws.RoundTrip.rsEnc,
    Laws.RoundTrip.rsSynd, Laws.RoundTrip.rsBm, Laws.RoundTrip.rsChien, Laws.RoundTrip.ldpcBp,
    Laws.RoundTrip.ldpcBpC, Laws.RoundTrip.polarSc]

@[simp] theorem decode_encode (i : Instr) : decode (encode i) = .ok i := (roundTrip i).1

@[simp] theorem commandFields_encode (i : Instr) : commandFields (encode i) = i.fields := (roundTrip i).2.1

theorem fields_wellFormed (i : Instr) : i.fields.wellFormed = true := (roundTrip i).2.2

/-- The three fields cover the word (R110). -/
theorem getLsbD_eq_commandFields (w : Word) (k : Nat) :
    w.getLsbD k =
      if k < 8 then (commandFields w).op.getLsbD k
      else if k = 8 then (commandFields w).f
      else (commandFields w).rsv.getLsbD (k - 9) := by
  simp only [commandFields, opField, flagField, rsvField, BitVec.getLsbD_extractLsb']
  split_ifs with hop hf
  · simp [hop]
  · rw [hf]
  · rw [show 9 + (k - 9) = k by omega]
    by_cases hk : k < 32
    · simp [show k - 9 < 23 by omega]
    · simp [BitVec.getLsbD_of_ge w k (by omega)]

theorem commandFields_injective : Function.Injective commandFields := by
  intro v w h
  refine BitVec.eq_of_getLsbD_eq fun k _ => ?_
  rw [getLsbD_eq_commandFields v, h, ← getLsbD_eq_commandFields]

/-- Each arm of the decoder accepts the fields of its own command alone. -/
theorem commandFields_of_decode {w : Word} {i : Instr} (h : decode w = .ok i) : commandFields w = i.fields := by
  unfold decode at h
  split at h
  · cases h
  · next hrsv =>
    have hrsv : rsvField w = 0 := not_not.mp hrsv
    split at h
    case h_15 => split at h <;> cases h
    all_goals
      next hop hf =>
      cases h
      exact (CommandFields.mk.injEq ..).mpr ⟨BitVec.eq_of_toNat_eq hop, hf, hrsv⟩

theorem decode_eq_ok_iff (w : Word) (i : Instr) : decode w = .ok i ↔ w = encode i := by
  constructor
  · intro h
    exact commandFields_injective ((commandFields_of_decode h).trans (commandFields_encode i).symm)
  · rintro rfl
    exact decode_encode i

/-- Settles O1: the words of the table are those of the encoder. -/
theorem tabledWordsDecode : Obligations.TabledWordsDecode := by
  unfold Obligations.TabledWordsDecode
  exact ⟨decode_encode .nop, decode_encode .hamEnc, decode_encode .hamEncX, decode_encode .hamDec,
    decode_encode .hamDecX, decode_encode .gfMul, decode_encode .gfInv, decode_encode .rsEnc, decode_encode .rsSynd,
    decode_encode .rsBm, decode_encode .rsChien, decode_encode .ldpcBp, decode_encode .ldpcBpC,
    decode_encode .polarSc⟩

/-- Settles O2: the decoder reads nothing but the three fields, and the fields determine the word. -/
theorem decodeInvertsEncodeOnEveryWord : Obligations.DecodeInvertsEncodeOnEveryWord := by
  unfold Obligations.DecodeInvertsEncodeOnEveryWord
  exact decode_eq_ok_iff

/-! #### The illegal words (R114) -/

theorem flagOk_eq_true_iff (c : CommandFields) :
    c.flagOk = true ↔ (c.f = true → c.op.toNat ∈ [0x01, 0x02, 0x09]) := by
  cases hf : c.f
  · simp [CommandFields.flagOk, hf]
  · simp [CommandFields.flagOk, hf, ← BitVec.toNat_inj, or_assoc]

theorem wellFormed_eq_true_iff (c : CommandFields) :
    c.wellFormed = true ↔ c.rsv = 0 ∧ c.op.toNat ≤ 0x0A ∧ (c.f = true → c.op.toNat ∈ [0x01, 0x02, 0x09]) := by
  rw [← flagOk_eq_true_iff]
  simp [CommandFields.wellFormed, CommandFields.rsvOk, CommandFields.opOk, and_assoc]

/-- The rows of the table of R112 are all the pairs of an assigned opcode and a flag that it allows. -/
theorem exists_fields_of_opcode_le : ∀ n ≤ 0x0A, ∀ f : Bool, (f = true → n ∈ [0x01, 0x02, 0x09]) →
    ∃ i ∈ [Instr.nop, .hamEnc, .hamEncX, .hamDec, .hamDecX, .gfMul, .gfInv, .rsEnc, .rsSynd, .rsBm, .rsChien,
      .ldpcBp, .ldpcBpC, .polarSc], i.fields = ⟨BitVec.ofNat 8 n, f, 0⟩ := by
  decide

theorem exists_fields_eq {c : CommandFields} (h : c.wellFormed = true) : ∃ i : Instr, i.fields = c := by
  obtain ⟨hrsv, hop, hflag⟩ := (wellFormed_eq_true_iff c).mp h
  obtain ⟨i, -, hi⟩ := exists_fields_of_opcode_le _ hop _ hflag
  exact ⟨i, by rw [hi, BitVec.ofNat_toNat, BitVec.setWidth_eq, ← hrsv]⟩

/-- R114 lists the opcodes at which F has no meaning, the check those at which it has one. -/
theorem mem_flagless_iff : ∀ n ≤ 0x0A,
    n ∈ [0x00, 0x03, 0x04, 0x05, 0x06, 0x07, 0x08, 0x0A] ↔ n ∉ [0x01, 0x02, 0x09] := by
  decide

theorem illegalWord_iff_not_wellFormed (w : Word) :
    Spec.illegalWord w ↔ ¬ (commandFields w).wellFormed = true := by
  rw [wellFormed_eq_true_iff, not_and_or, not_and_or, not_le, Classical.not_imp]
  exact or_congr_right (or_congr_right' fun hop =>
    and_congr_right fun _ => mem_flagless_iff _ (Nat.le_of_lt_succ (not_le.mp hop)))

theorem exists_decode_iff_wellFormed (w : Word) :
    (∃ i, decode w = .ok i) ↔ (commandFields w).wellFormed = true := by
  constructor
  · rintro ⟨i, h⟩
    rw [commandFields_of_decode h]
    exact fields_wellFormed i
  · intro h
    obtain ⟨i, hi⟩ := exists_fields_eq h
    exact ⟨i, (decode_eq_ok_iff w i).mpr (commandFields_injective (hi.symm.trans (commandFields_encode i).symm))⟩

theorem illegalWord_iff_decode_ne (w : Word) : Spec.illegalWord w ↔ ∀ i, decode w ≠ .ok i := by
  rw [illegalWord_iff_not_wellFormed, ← exists_decode_iff_wellFormed, not_exists]

namespace Machine

variable {L : Type} [DecidableEq L] [Inhabited L] {P : LlrParam L}

theorem completion_of_not_decoded {s : State L P} (h : ∀ i, decode s.cmd ≠ .ok i) :
    completion s = .next (complete .illegalCmd s) := by
  unfold completion
  cases hd : decode s.cmd with
  | ok i => exact absurd hd (h i)
  | error e => rfl

end Machine

/-- Settles O3: the illegal words are those whose fields are in no row of R112, and their completion takes the
decoder's error. -/
theorem illegalWordsCompleteWithIllegalCmd : Obligations.IllegalWordsCompleteWithIllegalCmd := by
  unfold Obligations.IllegalWordsCompleteWithIllegalCmd
  exact ⟨illegalWord_iff_decode_ne, fun L _ _ P s h =>
    Machine.completion_of_not_decoded ((illegalWord_iff_decode_ne s.cmd).mp h)⟩

end Sys2Proof

/-! ### What every completion leaves alone (R142, R144) -/

namespace Sys2Proof.Machine

variable {L : Type} {P : LlrParam L} {s t : State L P}

/-- `t` is `s` after a completion, as far as every command agrees: STATUS as R142 says, and nothing moved of the sizes,
CTRL, CMD and the Host's side of the state. -/
structure CompletesFrom (s t : State L P) : Prop where
  params : t.params = s.params
  irqEn : t.irqEn = s.irqEn
  cmd : t.cmd = s.cmd
  status : ∃ c, t.status = Spec.completed c s
  events : t.events = s.events
  rdata : t.rdata = s.rdata
  draws : t.draws = s.draws

theorem CompletesFrom.busy (h : CompletesFrom s t) : t.status.busy = false := by
  obtain ⟨c, hc⟩ := h.status
  rw [hc, Spec.completed]

theorem CompletesFrom.done (h : CompletesFrom s t) : t.status.done = true := by
  obtain ⟨c, hc⟩ := h.status
  rw [hc, Spec.completed]

theorem CompletesFrom.haz (h : CompletesFrom s t) : t.status.haz = s.status.haz := by
  obtain ⟨c, hc⟩ := h.status
  rw [hc, Spec.completed]

theorem complete_completesFrom (c : ErrCode) (s : State L P) : CompletesFrom s (complete c s) :=
  ⟨rfl, rfl, rfl, ⟨c, rfl⟩, rfl, rfl, rfl⟩

variable [DecidableEq L] [Inhabited L]

theorem execOn_completesFrom {i : Instr} (h : execOn i s = .next t) : CompletesFrom s t := by
  rcases execOn_cases i s t h with ⟨s', hrule, rfl⟩ | ⟨c, -, rfl⟩
  · obtain ⟨hparams, hirq, hstatus, hcmd, hevents, hrdata, hdraws⟩ := commandRule_frame i hrule
    exact ⟨hparams, hirq, hcmd, ⟨.ok, by rw [complete_status, hstatus, Spec.completed]⟩, hevents, hrdata, hdraws⟩
  · exact complete_completesFrom c s

/-! #### The pending command's completion, by what its word decodes to -/

theorem completion_of_decoded {i : Instr} (h : decode s.cmd = .ok i) : completion s = execOn i s := by
  rw [completion, h]

theorem completion_cases (h : completion s = .next t) :
    (∃ i, decode s.cmd = .ok i ∧ execOn i s = .next t) ∨
      ((∀ i, decode s.cmd ≠ .ok i) ∧ t = complete .illegalCmd s) := by
  by_cases hd : ∃ i, decode s.cmd = .ok i
  · obtain ⟨i, hi⟩ := hd
    exact .inl ⟨i, hi, completion_of_decoded hi ▸ h⟩
  · have hne := not_exists.mp hd
    rw [completion_of_not_decoded hne] at h
    cases h
    exact .inr ⟨hne, rfl⟩

theorem completion_completesFrom (h : completion s = .next t) : CompletesFrom s t := by
  rcases completion_cases h with ⟨i, -, hexec⟩ | ⟨-, rfl⟩
  · exact execOn_completesFrom hexec
  · exact complete_completesFrom _ s

theorem engineTurn_completesFrom (hb : s.status.busy = true) : ∃ t, engineTurn s = .next t ∧ CompletesFrom s t := by
  obtain ⟨t, ht⟩ := completion_eq_next s
  exact ⟨t, (engineTurn_pending hb).trans ht, completion_completesFrom ht⟩

/-- Settles O11: the rule of NOP answers the state as it stands. -/
theorem nopOnlyCompletes : Obligations.NopOnlyCompletes := by
  unfold Obligations.NopOnlyCompletes
  exact (onEveryCore_iff _).mpr fun L _ _ P _ s => execOn_eq_finish .nop s

end Sys2Proof.Machine

/-! ### Launch and the Engine's turn (R141, R142) -/

namespace Sys2Proof.Machine

variable {L : Type} [DecidableEq L] [Inhabited L] {P : LlrParam L}

/-- Settles O9: the two branches of R87 for CMD. -/
theorem cmdWriteLaunchesOrIsAHazard : Obligations.CmdWriteLaunchesOrIsAHazard := by
  unfold Obligations.CmdWriteLaunchesOrIsAHazard
  exact fun L _ _ P s a v h => ⟨regWrite_cmd_idle v h, regWrite_cmd_busy v h⟩

theorem engineTurn_of_decoded {s : State L P} {i : Instr} (hb : s.status.busy = true) (hd : decode s.cmd = .ok i) :
    engineTurn s = execOn i s :=
  (engineTurn_pending hb).trans (completion_of_decoded hd)

theorem tableWord_of_lt {w : Nat} (h : w < 2 ^ 32) : tableWord 32 w = BitVec.ofNat 32 w := by
  rw [tableWord, Nat.mod_eq_of_lt h]

/-- The step after `withFetchWord` is the Engine's turn on the launched state (log entry 13). -/
theorem step_withFetchWord (s : State) (nbits w : Nat) :
    step (s.withFetchWord nbits w) = engineTurn (launch (tableWord nbits w) s) :=
  stepOn_engine (s := s.withFetchWord nbits w) rfl

/-- Settles O4: the Engine's turn with a decoded word is that command, also right after `withFetchWord`. -/
theorem stepRunsTheDecodedCommand : Obligations.StepRunsTheDecodedCommand := by
  unfold Obligations.StepRunsTheDecodedCommand
  refine ⟨(onEveryCore_iff _).mpr fun L _ _ P _ s i hb hd => ⟨fun he => ?_, fun es he => ?_⟩,
    fun s w i hw hd => ⟨?_, ?_⟩⟩
  · exact (stepOn_nil he).trans (engineTurn_of_decoded hb hd)
  · exact (stepOn_engine he).trans (engineTurn_of_decoded (s := { s with events := es }) hb hd)
  · rw [decodeTableWord, tableWord_of_lt hw, hd]
  · rw [step_withFetchWord, tableWord_of_lt hw, exec_eq_execOn]
    exact engineTurn_of_decoded rfl hd

theorem engineTurn_eq_next (s : State L P) : ∃ t, engineTurn s = .next t := by
  rcases engineTurn_cases s with ⟨-, h⟩ | ⟨-, i, -, h⟩ | ⟨-, e, -, h⟩ <;> exact ⟨_, h⟩

theorem stepsSafely_of_any (s : State L P) : stepsSafely s := by
  unfold stepsSafely
  cases he : s.events with
  | nil => exact stepOn_nil he ▸ engineTurn_eq_next s
  | cons e es =>
    cases e with
    | host txn => exact ⟨_, stepOn_host he⟩
    | engine => exact stepOn_engine he ▸ engineTurn_eq_next _
    | rst d => exact ⟨_, stepOn_rst he⟩

/-- Settles O6: a command's rule finishes with one of the codes, and no event of the order stops the machine. -/
theorem everyCommandCompletes : Obligations.EveryCommandCompletes := by
  unfold Obligations.EveryCommandCompletes
  refine (onEveryCore_iff _).mpr fun L _ _ P _ => ⟨fun i s => ?_, stepsSafely_of_any⟩
  have hexec := execOn_eq_finish i s
  obtain ⟨c, hc⟩ := (execOn_completesFrom hexec).status
  exact ⟨_, c, hexec, hc⟩

/-- The Engine's turn on a pending command completes it, wherever in the order the turn comes. -/
theorem run_one_completes (p : Params) {s : State L P} (hb : s.status.busy = true) (he : isEngineTurn s) :
    ∃ t : State L P, (machineOn L P p).core.run 1 s = .next t ∧
      t.status.busy = false ∧ t.status.done = true ∧ t.cmd = s.cmd := by
  rcases he with he | ⟨es, he⟩
  · obtain ⟨t, ht, hc⟩ := engineTurn_completesFrom hb
    exact ⟨t, (run_one (machineOn L P p).core s).trans ((stepOn_nil he).trans ht), hc.busy, hc.done, hc.cmd⟩
  · obtain ⟨t, ht, hc⟩ := engineTurn_completesFrom (s := { s with events := es }) hb
    exact ⟨t, (run_one (machineOn L P p).core s).trans ((stepOn_engine he).trans ht), hc.busy, hc.done, hc.cmd⟩

/-- With a command pending and no reset among the events, the Host's transactions leave it pending, and the first turn
of the Engine completes it: one that stands in the order, or the one after its last event. -/
theorem run_pending_completes (p : Params) {s : State L P} {es : List (Event L)} (hb : s.status.busy = true)
    (he : s.events = es) (hrst : ∀ d, Event.rst d ∉ es) :
    ∃ (k : Nat) (t : State L P), 1 ≤ k ∧ k ≤ es.length + 1 ∧ (machineOn L P p).core.run k s = .next t ∧
      t.status.busy = false ∧ t.status.done = true ∧ t.cmd = s.cmd := by
  induction es generalizing s with
  | nil =>
    obtain ⟨t, ht⟩ := run_one_completes p hb (.inl he)
    exact ⟨1, t, le_rfl, le_rfl, ht⟩
  | cons e es ih =>
    cases e with
    | engine =>
      obtain ⟨t, ht⟩ := run_one_completes p hb (.inr ⟨es, he⟩)
      exact ⟨1, t, le_rfl, Nat.le_add_left 1 _, ht⟩
    | host txn =>
      have hmarks := hostTxn_eq_withHostMarks txn (s := { s with events := es }) hb
      have hcmd : (hostTxn txn { s with events := es }).cmd = s.cmd := by rw [hmarks]; rfl
      obtain ⟨k, t, -, hk, hrun, hbusy, hdone, htcmd⟩ :=
        ih (s := hostTxn txn { s with events := es }) (by rw [hmarks]; exact hb) (hostTxn_frame txn _).1
          fun d hd => hrst d (List.mem_cons_of_mem _ hd)
      exact ⟨k + 1, t, Nat.le_add_left 1 k, Nat.succ_le_succ hk,
        (run_succ_of_step (machineOn L P p).core k (stepOn_host he)).trans hrun, hbusy, hdone, htcmd.trans hcmd⟩
    | rst d => exact absurd List.mem_cons_self (hrst d)

/-- Settles O7, by induction on the order of events. -/
theorem launchedCommandCompletes : Obligations.LaunchedCommandCompletes := by
  unfold Obligations.LaunchedCommandCompletes
  exact (onEveryCore_iff _).mpr fun L _ _ P p s hb hrst => run_pending_completes p hb rfl hrst

end Sys2Proof.Machine

/-! ### What a completion leaves outside its write set (R144) -/

namespace Sys2Proof.Machine

variable {L : Type} [Inhabited L] {P : LlrParam L} {s t : State L P}

theorem readLocation_complete (c : ErrCode) (s : State L P) {l : Location} (h : l ≠ .status) :
    readLocation (complete c s) l = readLocation s l := by
  cases l
  case status => exact absurd rfl h
  all_goals rfl

variable [DecidableEq L]

/-- A rule's result writes stay inside the command's row of the table of R144. -/
theorem commandRule_readLocation (i : Instr) {s s' : State L P} (h : commandRule i s = .ok s') {l : Location}
    (hl : ¬ Spec.writes i l) : readLocation s' l = readLocation s l := by
  cases i
  case nop => cases h; rfl
  case hamEnc | hamEncX =>
    cases h
    cases l
    case hamCw => exact absurd rfl hl
    all_goals rfl
  case hamDec | hamDecX =>
    cases h
    cases l
    case hamCorr | hamDstat => simp [Spec.writes] at hl
    all_goals rfl
  case gfMul =>
    cases h
    cases l
    case gfR => exact absurd rfl hl
    all_goals rfl
  case gfInv =>
    simp only [commandRule, gfInvRule] at h
    split at h <;> cases h
    cases l
    case gfR => exact absurd rfl hl
    all_goals rfl
  case rsEnc =>
    simp only [commandRule, rsEncRule] at h
    split at h <;> cases h
    cases l
    case rsBuf => simp [Spec.writes] at hl
    all_goals rfl
  case rsSynd =>
    simp only [commandRule, rsSyndRule] at h
    split at h <;> cases h
    cases l
    case rsSyn | rsSstat => simp [Spec.writes] at hl
    all_goals rfl
  case rsBm =>
    simp only [commandRule, rsBmRule] at h
    split at h
    · split at h <;> cases h
      cases l
      case rsLambda | rsErrs => simp [Spec.writes] at hl
      all_goals rfl
    · cases h
  case rsChien =>
    simp only [commandRule, rsChienRule] at h
    split at h
    · split at h <;> cases h
      cases l
      case rsPos | rsNpos => simp [Spec.writes] at hl
      all_goals rfl
    · cases h
  case ldpcBp | ldpcBpC =>
    simp only [commandRule, ldpcRule] at h
    split at h <;> cases h
    cases l
    case ldpcHd | ldpcSyn | ldpcBelief | ldpcC2v | ldpcV2c | ldpcIters | ldpcStat => simp [Spec.writes] at hl
    all_goals rfl
  case polarSc =>
    simp only [commandRule, polarRule] at h
    split at h <;> cases h
    cases l
    case polarUhat | polarXhat | polarMsg | polarKinfo => simp [Spec.writes] at hl
    all_goals rfl

theorem execOn_readLocation {i : Instr} (h : execOn i s = .next t) {l : Location} (hst : l ≠ .status)
    (hl : ¬ Spec.writes i l) : readLocation t l = readLocation s l := by
  rcases execOn_cases i s t h with ⟨s', hrule, rfl⟩ | ⟨c, -, rfl⟩
  · exact (readLocation_complete _ s' hst).trans (commandRule_readLocation i hrule hl)
  · exact readLocation_complete c s hst

theorem completion_readLocation (h : completion s = .next t) {l : Location} (hst : l ≠ .status)
    (hl : ¬ Spec.wordWrites s.cmd l) : readLocation t l = readLocation s l := by
  rcases completion_cases h with ⟨i, hd, hexec⟩ | ⟨-, rfl⟩
  · exact execOn_readLocation hexec hst fun hw => hl ⟨i, hd, hw⟩
  · exact readLocation_complete _ s hst

/-- Settles O10: a rule's writes stay in its row of the table, and `CompletesFrom` has the rest. -/
theorem completionWritesOnlyTheWriteSet : Obligations.CompletionWritesOnlyTheWriteSet := by
  unfold Obligations.CompletionWritesOnlyTheWriteSet
  refine (onEveryCore_iff _).mpr fun L _ _ P _ s t =>
    ⟨fun i h l => execOn_readLocation h, fun h l => completion_readLocation h, fun h => ?_⟩
  have hc : CompletesFrom s t := h.elim (fun ⟨_, hexec⟩ => execOn_completesFrom hexec) completion_completesFrom
  exact ⟨hc.params, hc.irqEn, hc.cmd, hc.haz, hc.events, hc.rdata, hc.draws⟩

end Sys2Proof.Machine

/-! ### Multiplication by x and the polynomial product (R170, R177) -/

namespace Sys2Proof.Spec

open Function (Semiconj Semiconj₂)

@[simp] theorem xtimes_zero : xtimes 0#8 = 0#8 := rfl

/-- Multiplication by x is linear over GF(2). -/
theorem xtimes_xor (a b : Byte) : xtimes (a ^^^ b) = xtimes a ^^^ xtimes b := by
  simp only [xtimes, BitVec.getLsbD_xor, BitVec.shiftLeft_xor_distrib]
  cases a.getLsbD 7 <;> cases b.getLsbD 7
  case false.false => rfl
  case false.true => exact BitVec.xor_assoc ..
  case true.false => simp only [Bool.xor_false, if_true, Bool.false_eq_true, if_false]; ac_rfl
  case true.true =>
    simp only [Bool.xor_self, if_true, Bool.false_eq_true, if_false]
    rw [BitVec.xor_comm (b <<< 1), BitVec.xor_assoc, ← BitVec.xor_assoc 0x1D#8, BitVec.xor_self,
      BitVec.zero_xor]

theorem xtimes_iterate_xor (n : Nat) (a b : Byte) : xtimes^[n] (a ^^^ b) = xtimes^[n] a ^^^ xtimes^[n] b :=
  Semiconj₂.iterate (op := fun x y => x ^^^ y) xtimes_xor n a b

@[simp] theorem xtimes_iterate_zero (n : Nat) : xtimes^[n] 0#8 = 0#8 :=
  Function.iterate_fixed xtimes_zero n

@[simp] theorem one_product (b : Byte) : product 1#8 b = b := by
  revert b
  decide +kernel

/-- A factor x of the first operand comes out of the sum over the bits of the second. -/
theorem product_xtimes (a b : Byte) : product (xtimes a) b = xtimes (product a b) := by
  refine List.foldl_hom (init := 0#8) xtimes fun acc k => ?_
  split
  · rw [xtimes_xor, ← Function.iterate_succ_apply, Function.iterate_succ_apply']
  · rfl

theorem product_xtimes_iterate (n : Nat) (a b : Byte) :
    product (xtimes^[n] a) b = xtimes^[n] (product a b) :=
  Semiconj.iterate_right (f := (product · b)) (product_xtimes · b) n a

@[simp] theorem zero_product (b : Byte) : product 0#8 b = 0#8 := by
  simp [product]

end Sys2Proof.Spec

/-! ### The EXP and LOG tables (R171, R172) -/

namespace Sys2Proof.Machine

open Spec (xtimes)

@[simp] theorem gfExp_mod (i : Nat) : gfExp (i % 255) = gfExp i := by
  simp [gfExp]

@[simp] theorem gfExp_zero : gfExp 0 = 1#8 := rfl

@[simp] theorem gfExp_add_period (i : Nat) : gfExp (i + 255) = gfExp i := by
  simp [gfExp]

theorem gfExp_succ_of_lt : ∀ i, i < 255 → gfExp (i + 1) = xtimes (gfExp i) := by
  decide +kernel

theorem gfExp_succ (i : Nat) : gfExp (i + 1) = xtimes (gfExp i) := by
  have h := gfExp_succ_of_lt (i % 255) (Nat.mod_lt i (by decide))
  rwa [gfExp_mod, ← gfExp_mod, Nat.mod_add_mod, gfExp_mod] at h

/-- EXP[i] is α^i (R171). -/
theorem gfExp_eq_iterate (i : Nat) : gfExp i = xtimes^[i] 1#8 := by
  induction i with
  | zero => rfl
  | succ i ih => rw [gfExp_succ, ih, Function.iterate_succ_apply']

theorem gfExp_add (i j : Nat) : gfExp (i + j) = xtimes^[i] (gfExp j) := by
  rw [gfExp_eq_iterate, gfExp_eq_iterate, Function.iterate_add_apply]

theorem gfLog_gfExp_of_lt : ∀ i, i < 255 → gfLog (gfExp i) = i := by
  decide +kernel

/-- LOG inverts EXP (R172), whose exponents count modulo 255. -/
@[simp] theorem gfLog_gfExp (i : Nat) : gfLog (gfExp i) = i % 255 := by
  rw [← gfExp_mod, gfLog_gfExp_of_lt _ (Nat.mod_lt i (by decide))]

theorem gfLog_lt : ∀ a : Byte, a ≠ 0#8 → gfLog a < 255 := by
  decide +kernel

theorem gfExp_gfLog : ∀ a : Byte, a ≠ 0#8 → gfExp (gfLog a) = a := by
  decide +kernel

theorem gfExp_ne_zero_of_lt : ∀ i, i < 255 → gfExp i ≠ 0#8 := by
  decide +kernel

@[simp] theorem gfExp_ne_zero (i : Nat) : gfExp i ≠ 0#8 := by
  rw [← gfExp_mod]
  exact gfExp_ne_zero_of_lt _ (Nat.mod_lt i (by decide))

theorem gfExp_eq_gfExp_iff {i j : Nat} : gfExp i = gfExp j ↔ i % 255 = j % 255 := by
  constructor <;> intro h
  · rw [← gfLog_gfExp, h, gfLog_gfExp]
  · rw [← gfExp_mod, h, gfExp_mod]

/-- α generates the multiplicative group (R171): a byte is 0 or a power of α with an exponent below 255. -/
theorem eq_zero_or_eq_gfExp (a : Byte) : a = 0#8 ∨ ∃ i < 255, a = gfExp i := by
  by_cases h : a = 0#8
  · exact .inl h
  · exact .inr ⟨gfLog a, gfLog_lt a h, (gfExp_gfLog a h).symm⟩

/-- Settles O23: EXP steps by multiplication by x, and LOG being its left inverse makes its powers distinct. -/
theorem tablesAreTheConstructedOnes : Obligations.TablesAreTheConstructedOnes := by
  unfold Obligations.TablesAreTheConstructedOnes
  refine ⟨fun i _ => gfExp_eq_iterate i, fun i hi _ => ?_, gfLog_gfExp_of_lt, gfLog_lt,
    fun i j hi hj => ⟨gfExp_ne_zero i, fun h => ?_⟩⟩
  · rw [← gfExp_add_period (i - 255), Nat.sub_add_cancel hi]
  · rw [← gfLog_gfExp_of_lt i hi, h, gfLog_gfExp_of_lt j hj]

end Sys2Proof.Machine

/-! ### gfmul (R173, R177) -/

namespace Sys2Proof.Machine

open Spec (xtimes)

@[simp] theorem gfmul_zero (a : Byte) : gfmul a 0#8 = 0#8 := if_pos (.inr rfl)

@[simp] theorem zero_gfmul (a : Byte) : gfmul 0#8 a = 0#8 := if_pos (.inl rfl)

theorem gfmul_comm (a b : Byte) : gfmul a b = gfmul b a := by
  simp only [gfmul, Or.comm, Nat.add_comm]

/-- On powers of α, gfmul adds the exponents. -/
@[simp] theorem gfmul_gfExp_gfExp (i j : Nat) : gfmul (gfExp i) (gfExp j) = gfExp (i + j) := by
  simp [gfmul]

/-- gfmul by α^i is i multiplications by x, which are linear. -/
theorem gfExp_gfmul (i : Nat) (b : Byte) : gfmul (gfExp i) b = xtimes^[i] b := by
  obtain rfl | ⟨j, -, rfl⟩ := eq_zero_or_eq_gfExp b
  · rw [gfmul_zero, Spec.xtimes_iterate_zero]
  · rw [gfmul_gfExp_gfExp, gfExp_add]

@[simp] theorem one_gfmul (a : Byte) : gfmul 1#8 a = a := gfExp_gfmul 0 a

@[simp] theorem gfmul_one (a : Byte) : gfmul a 1#8 = a := by
  rw [gfmul_comm, one_gfmul]

theorem gfmul_xor (a b c : Byte) : gfmul a (b ^^^ c) = gfmul a b ^^^ gfmul a c := by
  obtain rfl | ⟨i, -, rfl⟩ := eq_zero_or_eq_gfExp a
  · simp only [zero_gfmul, BitVec.xor_self]
  · simp only [gfExp_gfmul, Spec.xtimes_iterate_xor]

theorem gfmul_assoc (a b c : Byte) : gfmul (gfmul a b) c = gfmul a (gfmul b c) := by
  obtain rfl | ⟨i, -, rfl⟩ := eq_zero_or_eq_gfExp a
  · simp only [zero_gfmul]
  obtain rfl | ⟨j, -, rfl⟩ := eq_zero_or_eq_gfExp b
  · simp only [zero_gfmul, gfmul_zero]
  · rw [gfmul_gfExp_gfExp, gfExp_gfmul, gfExp_gfmul, gfExp_gfmul, Function.iterate_add_apply]

/-- The table product is the polynomial product (R177): both take α^i out of the first operand as i
multiplications by x. -/
theorem gfmul_eq_product (a b : Byte) : gfmul a b = Spec.product a b := by
  obtain rfl | ⟨i, -, rfl⟩ := eq_zero_or_eq_gfExp a
  · rw [zero_gfmul, Spec.zero_product]
  · calc gfmul (gfExp i) b
        = xtimes^[i] b := gfExp_gfmul i b
      _ = xtimes^[i] (Spec.product 1#8 b) := by rw [Spec.one_product]
      _ = Spec.product (xtimes^[i] 1#8) b := (Spec.product_xtimes_iterate i 1#8 b).symm
      _ = Spec.product (gfExp i) b := by rw [gfExp_eq_iterate]

/-- Settles O24, from multiplication by a power of α being repeated multiplication by x. -/
theorem gfmulIsPolynomialMultiplication : Obligations.GfmulIsPolynomialMultiplication := by
  unfold Obligations.GfmulIsPolynomialMultiplication
  exact ⟨gfmul_eq_product, gfmul_comm, gfmul_assoc, gfmul_xor, fun a => ⟨gfmul_one a, gfmul_zero a⟩⟩

end Sys2Proof.Machine

/-! ### gfinv and gfdiv (R174, R178, R180) -/

namespace Sys2Proof.Machine

theorem gfinv_gfExp {i : Nat} (hi : i < 255) : gfinv (gfExp i) = gfExp (255 - i) := by
  rw [gfinv, gfLog_gfExp_of_lt i hi]

theorem gfmul_gfinv {a : Byte} (ha : a ≠ 0#8) : gfmul a (gfinv a) = 1#8 := by
  obtain rfl | ⟨i, hi, rfl⟩ := eq_zero_or_eq_gfExp a
  · exact absurd rfl ha
  · rw [gfinv_gfExp hi, gfmul_gfExp_gfExp, Nat.add_sub_cancel' hi.le]
    rfl

theorem gfinv_gfinv {a : Byte} (ha : a ≠ 0#8) : gfinv (gfinv a) = a := by
  obtain rfl | ⟨i, hi, rfl⟩ := eq_zero_or_eq_gfExp a
  · exact absurd rfl ha
  · rw [gfinv_gfExp hi, gfinv, gfLog_gfExp, gfExp_eq_gfExp_iff]
    omega

@[simp] theorem gfdiv_zero (a : Byte) : gfdiv a 0#8 = none := if_pos rfl

theorem zero_gfdiv {b : Byte} (hb : b ≠ 0#8) : gfdiv 0#8 b = some 0#8 := by
  rw [gfdiv, if_neg hb, if_pos rfl]

theorem gfdiv_of_ne_zero {a b : Byte} (ha : a ≠ 0#8) (hb : b ≠ 0#8) :
    gfdiv a b = some (gfExp ((gfLog a + 255 - gfLog b) % 255)) := by
  rw [gfdiv, if_neg hb, if_neg ha]

/-- On powers of α, gfdiv takes back the exponent that gfmul added. -/
theorem gfdiv_gfmul (a : Byte) {b : Byte} (hb : b ≠ 0#8) : gfdiv (gfmul a b) b = some a := by
  obtain rfl | ⟨i, hi, rfl⟩ := eq_zero_or_eq_gfExp a
  · rw [zero_gfmul, zero_gfdiv hb]
  obtain rfl | ⟨j, hj, rfl⟩ := eq_zero_or_eq_gfExp b
  · exact absurd rfl hb
  · rw [gfmul_gfExp_gfExp, gfdiv_of_ne_zero (gfExp_ne_zero _) hb, gfLog_gfExp, gfLog_gfExp,
      Option.some_inj, gfExp_eq_gfExp_iff]
    omega

/-- Settles O25: on powers of α the inverse and the division are subtractions modulo 255. -/
theorem gfinvAndGfdivUndoMultiplication : Obligations.GfinvAndGfdivUndoMultiplication := by
  unfold Obligations.GfinvAndGfdivUndoMultiplication
  exact ⟨fun a ha => ⟨gfmul_gfinv ha, gfinv_gfinv ha⟩, fun a b => ⟨gfdiv_zero a, fun hb =>
    ⟨gfdiv_gfmul a hb, zero_gfdiv hb, fun ha => gfdiv_of_ne_zero ha hb⟩⟩⟩

end Sys2Proof.Machine

/-! ### GF.MUL and GF.INV (R175, R176) -/

namespace Sys2Proof.Machine

variable {L : Type} {P : LlrParam L} {s : State L P}

theorem gfInvRule_of_eq_zero (h : s.gfA = 0#8) : gfInvRule s = .error .zeroOperand := if_pos h

theorem gfInvRule_of_ne_zero (h : s.gfA ≠ 0#8) : gfInvRule s = .ok { s with gfR := gfinv s.gfA } := if_neg h

variable [DecidableEq L] [Inhabited L]

theorem execOn_gfMul (s : State L P) :
    execOn .gfMul s = .next (complete .ok { s with gfR := gfmul s.gfA s.gfB }) := rfl

theorem execOn_gfInv_of_eq_zero (h : s.gfA = 0#8) : execOn .gfInv s = .next (complete .zeroOperand s) := by
  rw [execOn_eq_finish, commandRule, gfInvRule_of_eq_zero h]
  rfl

theorem execOn_gfInv_of_ne_zero (h : s.gfA ≠ 0#8) :
    execOn .gfInv s = .next (complete .ok { s with gfR := gfinv s.gfA }) := by
  rw [execOn_eq_finish, commandRule, gfInvRule_of_ne_zero h]
  rfl

/-- Settles O26: the rule writes gfmul, which is the polynomial product. -/
theorem gfMulWritesTheProduct : Obligations.GfMulWritesTheProduct := by
  unfold Obligations.GfMulWritesTheProduct
  refine (onEveryCore_iff _).mpr fun L _ _ P _ s => ?_
  rw [machineOn_exec, execOn_gfMul, gfmul_eq_product]
  rfl

/-- Settles O27, with gfinv as the inverse. -/
theorem gfInvWritesTheInverseOrRaises : Obligations.GfInvWritesTheInverseOrRaises := by
  unfold Obligations.GfInvWritesTheInverseOrRaises
  refine (onEveryCore_iff _).mpr fun L _ _ P _ s =>
    ⟨execOn_gfInv_of_eq_zero, fun ha => ⟨gfinv s.gfA, ?_, execOn_gfInv_of_ne_zero ha⟩⟩
  rw [← gfmul_eq_product, gfmul_gfinv ha]

end Sys2Proof.Machine

/-! ### Packed bits under exclusive OR -/

namespace Sys2Proof.Machine

@[simp] theorem keepBits_xor {w : Nat} (a b : BitVec w) (n : Nat) :
    keepBits (a ^^^ b) n = keepBits a n ^^^ keepBits b n := by
  refine BitVec.eq_of_getLsbD_eq fun i _ => ?_
  simp only [getLsbD_keepBits, BitVec.getLsbD_xor, Bool.and_xor_distrib_right]

theorem getLsbD_one_shiftLeft (w k i : Nat) : (1#w <<< k).getLsbD i = (decide (i < w) && decide (i = k)) := by
  rw [← BitVec.twoPow_eq, BitVec.getLsbD_twoPow]
  grind

theorem keepBits_one_shiftLeft {w k n : Nat} (hk : k < n) : keepBits (1#w <<< k) n = 1#w <<< k := by
  refine ((keepBits_eq_self_iff _ n).mpr fun i hi => ?_).symm
  rw [getLsbD_one_shiftLeft, decide_eq_false (by omega : i ≠ k), Bool.and_false]

theorem packBits_zipWith_xor (w : Nat) {a b : List Bool} (h : a.length = b.length) :
    packBits w (List.zipWith (· ^^ ·) a b) = packBits w a ^^^ packBits w b := by
  refine BitVec.eq_of_getLsbD_eq fun i hi => ?_
  rw [BitVec.getLsbD_xor, getLsbD_packBits, getLsbD_packBits, getLsbD_packBits, decide_eq_true hi]
  by_cases ha : i < a.length
  · simp [ha, h ▸ ha]
  · simp [ha, h ▸ ha]

theorem packBits_bitList {w : Nat} (v : BitVec w) (n : Nat) : packBits w (bitList v n) = keepBits v n := by
  refine BitVec.eq_of_getLsbD_eq fun i hi => ?_
  rw [getLsbD_packBits, getLsbD_keepBits, decide_eq_true hi, Bool.true_and]
  by_cases hn : i < n
  · rw [getD_bitList v n i hn, decide_eq_true hn, Bool.and_true]
  · rw [List.getD_eq_default _ _ (by simpa using hn), decide_eq_false hn, Bool.and_false]

theorem packBits_flipAt (w : Nat) (l : List Bool) {k : Nat} (hk : k < l.length) :
    packBits w (flipAt l k) = packBits w l ^^^ (1#w <<< k) := by
  refine BitVec.eq_of_getLsbD_eq fun i hi => ?_
  rw [BitVec.getLsbD_xor, getLsbD_packBits, getLsbD_packBits, getLsbD_one_shiftLeft, decide_eq_true hi]
  by_cases hik : i = k
  · subst hik
    simp [flipAt, hk]
  · simp [flipAt, hik, List.getElem?_set_ne (Ne.symm hik)]

end Sys2Proof.Machine

/-! ### The Hamming checks and the code they define (R200 to R203) -/

namespace Sys2Proof.Machine

theorem hamOffset_le_one (ext : Bool) : hamOffset ext ≤ 1 := by
  cases ext <;> decide

/-- The checks s1, s2, s4 of R203 on a word, as the bits of the syndrome. -/
def hamChecks (ext : Bool) (r : Byte) : BitVec 3 :=
  let w := fun k => r.getLsbD (k + hamOffset ext)
  packBits 3 [w 0 ^^ w 2 ^^ w 4 ^^ w 6, w 1 ^^ w 2 ^^ w 5 ^^ w 6, w 3 ^^ w 4 ^^ w 5 ^^ w 6]

/-- The bits of a word at the data positions (R205). -/
def hamDataBits (ext : Bool) (c : Byte) : BitVec 4 :=
  let w := fun k => c.getLsbD (k + hamOffset ext)
  packBits 4 [w 2, w 4, w 5, w 6]

variable (ext : Bool)

/-- The checks are linear, so an error shows in the syndrome alike on every codeword. -/
theorem hamChecks_xor (a b : Byte) : hamChecks ext (a ^^^ b) = hamChecks ext a ^^^ hamChecks ext b := by
  have h4 (p q s t p' q' s' t' : Bool) : ((p ^^ p') ^^ (q ^^ q') ^^ (s ^^ s') ^^ (t ^^ t')) =
      ((p ^^ q ^^ s ^^ t) ^^ (p' ^^ q' ^^ s' ^^ t')) := by
    simp only [Bool.xor_assoc, Bool.xor_left_comm]
  simp only [hamChecks, BitVec.getLsbD_xor, h4, ← packBits_zipWith_xor, List.length_cons, List.zipWith_cons_cons,
    List.zipWith_nil_right]

theorem hamDataBits_xor (a b : Byte) :
    hamDataBits ext (a ^^^ b) = hamDataBits ext a ^^^ hamDataBits ext b := by
  simp only [hamDataBits, BitVec.getLsbD_xor]
  exact packBits_zipWith_xor 4 (a := [_, _, _, _]) (b := [_, _, _, _]) rfl

/-- The syndrome of a single error names its position; the overall parity bit's is 0. -/
theorem hamChecks_one_shiftLeft :
    ∀ ext, ∀ k < 8, hamChecks ext (1#8 <<< k) = BitVec.ofNat 3 (k + 1 - hamOffset ext) := by
  decide

theorem keepBits_hamEncode (d : BitVec 4) :
    keepBits (hamEncode ext d) (7 + hamOffset ext) = hamEncode ext d := by
  cases ext <;> exact (packBits_keepBits 8 _ _ (by simp [hamCode7, hamOffset])).symm

theorem hamChecks_hamEncode : ∀ ext d, hamChecks ext (hamEncode ext d) = 0#3 := by
  decide

theorem hamDataBits_hamEncode : ∀ ext d, hamDataBits ext (hamEncode ext d) = d := by
  decide

end Sys2Proof.Machine

/-! ### HAM.DEC by the syndrome (R203 to R206) -/

namespace Sys2Proof.Machine

variable (ext : Bool)

theorem toNat_packBits_three :
    ∀ a b c : Bool, (packBits 3 [a, b, c]).toNat = a.toNat + 2 * b.toNat + 4 * c.toNat := by
  decide

theorem hamSyndrome_bitList (rx : Byte) :
    hamSyndrome ext (bitList rx (7 + hamOffset ext)) = (hamChecks ext rx).toNat := by
  have hbit (k : Nat) (hk : k < 7) : (bitList rx (7 + hamOffset ext)).getD (k + hamOffset ext) false =
      rx.getLsbD (k + hamOffset ext) := getD_bitList rx _ _ (Nat.add_lt_add_right hk _)
  rw [hamChecks, toNat_packBits_three, hamSyndrome]
  simp only [hbit, Nat.reduceLT]

theorem hamMessage_eq_hamDataBits (c : List Bool) : hamMessage ext c = hamDataBits ext (packBits 8 c) := by
  simp only [hamMessage, hamDataBits, getLsbD_packBits]
  cases ext <;> rfl

/-- The bits that the decoder flips for a syndrome (R204). -/
def hamFlip (syn : BitVec 3) : Byte := if syn = 0#3 then 0#8 else 1#8 <<< (syn.toNat - 1 + hamOffset ext)

/-- The word HAM.DEC corrects to: HAM_RX without the bits outside the word, with the syndrome's position flipped. -/
def hamCorrected (rx : Byte) : Byte :=
  keepBits rx (7 + hamOffset ext) ^^^ hamFlip ext (hamChecks ext rx)

theorem hamCorrected_eq_ite (rx : Byte) :
    hamCorrected ext rx = if hamChecks ext rx = 0#3 then keepBits rx (7 + hamOffset ext)
      else keepBits rx (7 + hamOffset ext) ^^^ (1#8 <<< ((hamChecks ext rx).toNat - 1 + hamOffset ext)) := by
  rw [hamCorrected, hamFlip, apply_ite (keepBits rx (7 + hamOffset ext) ^^^ ·), BitVec.xor_zero]

/-- HAM_DSTAT for a syndrome and a corrected word (R205, R206). -/
def hamStatus (syn : BitVec 3) (c : Byte) : HamDstat :=
  { syn := syn
    errv := decide (syn ≠ 0#3)
    errpos := if syn = 0#3 then 0#3 else BitVec.ofNat 3 (syn.toNat - 1 + hamOffset ext)
    oor := false
    msg := hamDataBits ext c }

theorem toNat_errpos_hamStatus (syn : BitVec 3) (c : Byte) :
    (hamStatus ext syn c).errpos.toNat = if syn = 0#3 then 0 else syn.toNat - 1 + hamOffset ext := by
  have hsyn := syn.isLt
  have hext := hamOffset_le_one ext
  dsimp only [hamStatus]
  split
  · rfl
  · rw [BitVec.toNat_ofNat, Nat.mod_eq_of_lt (by omega)]

/-- The bound test of R204 always holds: a syndrome is below 8 and points into the word. -/
theorem hamDecode_eq (rx : Byte) :
    hamDecode ext rx = (hamCorrected ext rx, hamStatus ext (hamChecks ext rx) (hamCorrected ext rx)) := by
  have hidx : (hamChecks ext rx).toNat - 1 + hamOffset ext < 7 + hamOffset ext := by
    have := (hamChecks ext rx).isLt
    omega
  have hsyn : (hamChecks ext rx).toNat = 0 ↔ hamChecks ext rx = 0#3 := BitVec.toNat_inj (y := 0#3)
  simp only [hamDecode, hamSyndrome_bitList, hamMessage_eq_hamDataBits, hamStatus, hamCorrected, hamFlip,
    ne_eq, hsyn, hidx, decide_true, Bool.and_true, Bool.not_true, Bool.and_false, BitVec.ofNat_toNat,
    BitVec.setWidth_eq]
  by_cases h : hamChecks ext rx = 0#3
  · simp [h, packBits_bitList]
  · simp [h, packBits_flipAt, packBits_bitList, hidx]

/-- `r` is the received word, HAM_RX without the bits outside the word. -/
theorem hamDecoded_of_hamDecode {L : Type} {P : LlrParam L} {rx r : Byte} {t : State L P}
    (hr : keepBits rx (7 + hamOffset ext) = r) (hcorr : t.hamCorr = (hamDecode ext rx).1)
    (hdstat : t.hamDstat = (hamDecode ext rx).2) : Spec.hamDecoded (hamOffset ext) r t := by
  subst hr
  rw [hamDecode_eq] at hcorr hdstat
  have hbit (k : Nat) (hk : k < 7) : (keepBits rx (7 + hamOffset ext)).getLsbD (k + hamOffset ext) =
      rx.getLsbD (k + hamOffset ext) := by
    rw [getLsbD_keepBits, decide_eq_true (Nat.add_lt_add_right hk _), Bool.and_true]
  simp only [Spec.hamDecoded, hcorr, hdstat, hbit, Nat.reduceLT]
  exact ⟨getLsbD_packBits 3 _ 0, getLsbD_packBits 3 _ 1, getLsbD_packBits 3 _ 2, hamCorrected_eq_ite ext rx, rfl,
    toNat_errpos_hamStatus ext _ _, rfl, getLsbD_packBits 4 _ 0, getLsbD_packBits 4 _ 1, getLsbD_packBits 4 _ 2,
    getLsbD_packBits 4 _ 3⟩

end Sys2Proof.Machine

/-! ### The Hamming commands -/

namespace Sys2Proof.Machine

variable {L : Type} [DecidableEq L] [Inhabited L] {P : LlrParam L}

/-- HAM.ENC and HAM.ENC.X by their flag F. -/
def hamEncInstr (ext : Bool) : Instr := if ext then .hamEncX else .hamEnc

/-- HAM.DEC and HAM.DEC.X by their flag F. -/
def hamDecInstr (ext : Bool) : Instr := if ext then .hamDecX else .hamDec

theorem execOn_hamEncInstr (ext : Bool) (s : State L P) :
    execOn (hamEncInstr ext) s = .next (complete .ok { s with hamCw := hamEncode ext s.hamDin }) := by
  cases ext <;> rfl

theorem execOn_hamDecInstr (ext : Bool) (s : State L P) :
    execOn (hamDecInstr ext) s = .next (complete .ok
      { s with hamCorr := (hamDecode ext s.hamRx).1, hamDstat := (hamDecode ext s.hamRx).2 }) := by
  cases ext <;> rfl

/-- Settles O28: each bit of the packed word is its element of the list. -/
theorem hamEncWritesTheCodeword : Obligations.HamEncWritesTheCodeword := by
  unfold Obligations.HamEncWritesTheCodeword
  refine (onEveryCore_iff _).mpr fun L _ _ P _ s =>
    ⟨⟨hamEncode false s.hamDin, execOn_hamEncInstr false s, fun k hk => ?_⟩,
      ⟨hamEncode true s.hamDin, execOn_hamEncInstr true s, fun k hk => ?_⟩⟩
  · exact (getLsbD_packBits 8 _ k).trans (by rw [decide_eq_true hk]; rfl)
  · refine (getLsbD_packBits 8 _ k).trans ?_
    simp only [hamCode7, xorBits, List.foldl_cons, List.foldl_nil, decide_eq_true hk, Bool.true_and,
      Bool.false_xor, Bool.xor_assoc]

/-- Settles O29, from the decoder's outputs as functions of the syndrome. -/
theorem hamDecCorrectsAtTheSyndrome : Obligations.HamDecCorrectsAtTheSyndrome := by
  unfold Obligations.HamDecCorrectsAtTheSyndrome
  exact (onEveryCore_iff _).mpr fun L _ _ P _ s =>
    ⟨⟨_, execOn_hamDecInstr false s, rfl, hamDecoded_of_hamDecode false rfl rfl rfl⟩,
      ⟨_, execOn_hamDecInstr true s, rfl, hamDecoded_of_hamDecode true BitVec.and_allOnes rfl rfl⟩⟩

/-! #### A codeword sent and received (R207) -/

section Trip

variable (ext : Bool) (p : Params) (d : BitVec 4) (s : State L P)

/-- HAM.ENC of `d`, and HAM.DEC of its codeword with `err` added, in one variant. -/
def hamTripOn (err : Byte) : State L P × State L P :=
  Spec.hamTrip (machineOn L P p) (hamEncInstr ext) (hamDecInstr ext) d err s

theorem hamTripOn_hamCw (err : Byte) : (hamTripOn ext p d s err).1.hamCw = hamEncode ext d := by
  cases ext <;> rfl

theorem hamTripOn_decoded (err : Byte) :
    let t := (hamTripOn ext p d s err).2
    (t.hamCorr, t.hamDstat) = hamDecode ext (hamEncode ext d ^^^ err) := by
  cases ext <;> rfl

/-- The syndrome is the error's, since a codeword's own is 0. -/
theorem hamChecks_hamEncode_xor (err : Byte) : hamChecks ext (hamEncode ext d ^^^ err) = hamChecks ext err := by
  rw [hamChecks_xor, hamChecks_hamEncode, BitVec.zero_xor]

theorem hamTripOn_hamCorr {err : Byte} (herr : keepBits err (7 + hamOffset ext) = err) :
    (hamTripOn ext p d s err).2.hamCorr = hamEncode ext d ^^^ err ^^^ hamFlip ext (hamChecks ext err) := by
  refine (congrArg Prod.fst (hamTripOn_decoded ext p d s err)).trans ?_
  rw [hamDecode_eq, hamCorrected, hamChecks_hamEncode_xor, keepBits_xor, keepBits_hamEncode, herr]

theorem hamTripOn_hamDstat (err : Byte) :
    (hamTripOn ext p d s err).2.hamDstat =
      hamStatus ext (hamChecks ext err) (hamTripOn ext p d s err).2.hamCorr := by
  have h := hamTripOn_decoded ext p d s err
  rw [hamDecode_eq, hamChecks_hamEncode_xor] at h
  obtain ⟨hcorr, hdstat⟩ := Prod.mk.inj h
  rw [hdstat, hcorr]

/-- An error that no check and no data position sees leaves the message, and is left in the word. -/
theorem hamTripOn_of_hamChecks_eq_zero {err : Byte} (herr : keepBits err (7 + hamOffset ext) = err)
    (hsyn : hamChecks ext err = 0#3) (hdata : hamDataBits ext err = 0#4) :
    let cu := hamTripOn ext p d s err
    cu.2.hamDstat.syn = 0#3 ∧ cu.2.hamDstat.errv = false ∧ cu.2.hamCorr = cu.1.hamCw ^^^ err ∧
      cu.2.hamDstat.msg = d := by
  have hcorr : (hamTripOn ext p d s err).2.hamCorr = hamEncode ext d ^^^ err := by
    rw [hamTripOn_hamCorr ext p d s herr, hsyn]
    exact BitVec.xor_zero
  have hmsg : hamDataBits ext (hamEncode ext d ^^^ err) = d := by
    rw [hamDataBits_xor, hamDataBits_hamEncode, hdata, BitVec.xor_zero]
  dsimp only
  rw [hamTripOn_hamDstat, hcorr, hamTripOn_hamCw, hsyn]
  exact ⟨rfl, rfl, rfl, hmsg⟩

theorem hamTripOn_zero :
    let cu := hamTripOn ext p d s 0#8
    cu.2.hamDstat.syn = 0#3 ∧ cu.2.hamDstat.errv = false ∧ cu.2.hamCorr = cu.1.hamCw ∧ cu.2.hamDstat.msg = d := by
  have h := hamTripOn_of_hamChecks_eq_zero ext p d s (err := 0#8) BitVec.zero_and
    (by cases ext <;> rfl) (by cases ext <;> rfl)
  dsimp only at h
  rwa [BitVec.xor_zero] at h

/-- A single error that a check sees is at the position the syndrome names, so the decoder flips it back. -/
theorem hamTripOn_one_shiftLeft {k : Nat} (hlo : hamOffset ext ≤ k) (hhi : k < 7 + hamOffset ext) :
    let cu := hamTripOn ext p d s (1#8 <<< k)
    cu.2.hamDstat.syn.toNat = k + 1 - hamOffset ext ∧ cu.2.hamDstat.errv = true ∧
      cu.2.hamDstat.errpos.toNat = k ∧ cu.2.hamCorr = cu.1.hamCw ∧ cu.2.hamDstat.msg = d := by
  have hext := hamOffset_le_one ext
  have hsyn : (hamChecks ext (1#8 <<< k)).toNat = k + 1 - hamOffset ext := by
    rw [hamChecks_one_shiftLeft ext k (by omega), BitVec.toNat_ofNat, Nat.mod_eq_of_lt (by omega)]
  have hne : hamChecks ext (1#8 <<< k) ≠ 0#3 := by
    intro h
    rw [h, BitVec.toNat_ofNat] at hsyn
    omega
  have hpos : (hamChecks ext (1#8 <<< k)).toNat - 1 + hamOffset ext = k := by omega
  have hcorr : (hamTripOn ext p d s (1#8 <<< k)).2.hamCorr = hamEncode ext d := by
    rw [hamTripOn_hamCorr ext p d s (keepBits_one_shiftLeft hhi), hamFlip, if_neg hne, hpos, BitVec.xor_assoc,
      BitVec.xor_self, BitVec.xor_zero]
  dsimp only
  rw [hamTripOn_hamDstat, toNat_errpos_hamStatus, if_neg hne, hcorr, hamTripOn_hamCw]
  exact ⟨hsyn, decide_eq_true hne, hpos, rfl, hamDataBits_hamEncode ext d⟩

/-- Two errors have different syndromes, so theirs together is not 0. -/
theorem hamTripOn_syn_ne_zero {k l : Nat} (hkl : k < l) (hl : l < 7 + hamOffset ext) :
    (hamTripOn ext p d s ((1#8 <<< k) ^^^ (1#8 <<< l))).2.hamDstat.syn ≠ 0#3 := by
  have hext := hamOffset_le_one ext
  rw [hamTripOn_hamDstat, hamStatus, hamChecks_xor, hamChecks_one_shiftLeft ext k (by omega),
    hamChecks_one_shiftLeft ext l (by omega), Ne, BitVec.xor_eq_zero_iff, ← BitVec.toNat_inj,
    BitVec.toNat_ofNat, BitVec.toNat_ofNat]
  omega

end Trip

/-- Settles O30: the syndrome of a received codeword is that of its error, which is linear and names a single error's
position. -/
theorem hammingCorrectionCapability : Obligations.HammingCorrectionCapability := by
  unfold Obligations.HammingCorrectionCapability
  exact (onEveryCore_iff _).mpr fun L _ _ P p s d => ⟨hamTripOn_zero false p d s, hamTripOn_zero true p d s,
    fun k => hamTripOn_one_shiftLeft false p d s (Nat.zero_le k),
    fun k => hamTripOn_one_shiftLeft true p d s,
    hamTripOn_of_hamChecks_eq_zero true p d s (err := 1#8) (by decide) (by decide) (by decide),
    fun k l => hamTripOn_syn_ne_zero false p d s, fun k l => hamTripOn_syn_ne_zero true p d s⟩

end Sys2Proof.Machine

/-! ### Sums over GF(2^8) -/

namespace Sys2Proof.Spec

@[simp] theorem xorSum_zero (f : Nat → Byte) : xorSum 0 f = 0#8 := rfl

theorem xorSum_succ (n : Nat) (f : Nat → Byte) : xorSum (n + 1) f = xorSum n f ^^^ f n := by
  rw [xorSum, List.range_succ, List.foldl_append]
  rfl

theorem xorSum_congr {n : Nat} {f g : Nat → Byte} (h : ∀ i, i < n → f i = g i) : xorSum n f = xorSum n g :=
  List.foldl_ext _ _ _ fun acc i hi => by rw [h i (List.mem_range.mp hi)]

/-- A sum split at its first term. -/
theorem xorSum_succ' (n : Nat) (f : Nat → Byte) : xorSum (n + 1) f = f 0 ^^^ xorSum n fun i => f (i + 1) := by
  induction n with
  | zero => exact BitVec.xor_comm _ _
  | succ n ih => rw [xorSum_succ, ih, BitVec.xor_assoc, ← xorSum_succ n fun i => f (i + 1)]

theorem foldl_xor_range (n : Nat) (f : Nat → Byte) (d : Byte) :
    (List.range n).foldl (fun acc k => acc ^^^ f k) d = d ^^^ xorSum n f := by
  have h := List.foldl_hom (fun x => d ^^^ x) (g₁ := fun acc k => acc ^^^ f k) (g₂ := fun acc k => acc ^^^ f k)
    (l := List.range n) (init := 0#8) fun x k => BitVec.xor_assoc d x (f k)
  rwa [BitVec.xor_zero] at h

theorem xorSum_xor (n : Nat) (f g : Nat → Byte) :
    (xorSum n fun i => f i ^^^ g i) = xorSum n f ^^^ xorSum n g := by
  induction n with
  | zero => exact (BitVec.xor_self (x := 0#8)).symm
  | succ n ih => rw [xorSum_succ, xorSum_succ, xorSum_succ, ih]; ac_rfl

/-- Terms that are 0 at the end of a sum do not count. -/
theorem xorSum_of_le {m n : Nat} (hmn : m ≤ n) {f : Nat → Byte} (hf : ∀ i, m ≤ i → i < n → f i = 0#8) :
    xorSum n f = xorSum m f := by
  induction n, hmn using Nat.le_induction with
  | base => rfl
  | succ n hn ih =>
    rw [xorSum_succ, hf n hn (Nat.lt_succ_self n), BitVec.xor_zero,
      ih fun i hi hin => hf i hi (Nat.lt_succ_of_lt hin)]

/-- A sum with one term. -/
theorem xorSum_ite_eq {n p : Nat} (hp : p < n) (c : Byte) : (xorSum n fun q => if q = p then c else 0#8) = c := by
  rw [xorSum_of_le (m := p + 1) hp fun i hi _ => if_neg (by omega), xorSum_succ, if_pos rfl,
    xorSum_of_le (Nat.zero_le p) fun i _ hi => if_neg hi.ne, xorSum_zero, BitVec.zero_xor]

end Sys2Proof.Spec

namespace Sys2Proof.Machine

open Spec (xorSum xorSum_succ)

theorem xor_gfmul (a b c : Byte) : gfmul (a ^^^ b) c = gfmul a c ^^^ gfmul b c := by
  rw [gfmul_comm, gfmul_xor, gfmul_comm c a, gfmul_comm c b]

theorem gfmul_xorSum (a : Byte) (n : Nat) (f : Nat → Byte) :
    gfmul a (xorSum n f) = xorSum n fun i => gfmul a (f i) := by
  induction n with
  | zero => exact gfmul_zero a
  | succ n ih => rw [xorSum_succ, xorSum_succ, gfmul_xor, ih]

@[simp] theorem alphaPow_eq_gfExp (e : Nat) : Spec.alphaPow e = gfExp e := by
  rw [Spec.alphaPow, ← gfExp_eq_iterate, gfExp_mod]

end Sys2Proof.Machine

/-! ### Polynomials by their coefficients -/

namespace Sys2Proof.Machine

open Spec (xorSum xorSum_succ xorSum_succ' xorSum_congr)

theorem getD_polyXor (p q : List Byte) (j : Nat) :
    (polyXor p q).getD j 0#8 = p.getD j 0#8 ^^^ q.getD j 0#8 := by
  induction p, q using polyXor.induct generalizing j with
  | case1 q => simp [polyXor]
  | case2 p h => cases p <;> simp [polyXor]
  | case3 a p b q ih =>
    cases j with
    | zero => rfl
    | succ j => exact ih j

theorem getD_polyScale (c : Byte) (p : List Byte) (j : Nat) :
    (polyScale c p).getD j 0#8 = gfmul c (p.getD j 0#8) := by
  rw [polyScale, ← gfmul_zero c, List.getD_map, gfmul_zero]

@[simp] theorem length_polyScale (c : Byte) (p : List Byte) : (polyScale c p).length = p.length :=
  List.length_map _

theorem all_eq_zero_iff (p : List Byte) :
    (p.all fun c => c == 0#8) = true ↔ ∀ k, p.getD k 0#8 = 0#8 := by
  induction p with
  | nil => simp
  | cons a p ih =>
    rw [List.all_cons, Bool.and_eq_true, beq_iff_eq, ih]
    exact ⟨fun ⟨ha, hp⟩ => fun | 0 => ha | k + 1 => hp k, fun h => ⟨h 0, fun k => h (k + 1)⟩⟩

/-- The degree is the place of a non-zero coefficient with none above it, if there is one at all (R245). -/
theorem polyDegree_spec {p : List Byte} (h : ∃ k, p.getD k 0#8 ≠ 0#8) :
    p.getD (polyDegree p) 0#8 ≠ 0#8 ∧ ∀ k, polyDegree p < k → p.getD k 0#8 = 0#8 := by
  induction p with
  | nil => simp at h
  | cons a p ih =>
    rw [polyDegree]
    split
    next hall =>
      have hp := (all_eq_zero_iff p).mp hall
      obtain ⟨_ | k, hk⟩ := h
      · exact ⟨hk, fun | k + 1, _ => hp k⟩
      · exact absurd (hp k) hk
    next hall =>
      rw [all_eq_zero_iff, not_forall] at hall
      obtain ⟨hne, hzero⟩ := ih hall
      exact ⟨hne, fun | k + 1, hk => hzero k (Nat.lt_of_succ_lt_succ hk)⟩

/-! #### Evaluation, lowest degree first -/

section Evaluation

variable (x : Byte)

@[simp] theorem chienValue_nil : chienValue [] x = 0#8 := rfl

@[simp] theorem chienValue_cons (a : Byte) (p : List Byte) :
    chienValue (a :: p) x = gfmul (chienValue p x) x ^^^ a := by
  rw [chienValue, horner, List.reverse_cons, List.foldl_append]
  rfl

theorem chienValue_polyXor (p q : List Byte) :
    chienValue (polyXor p q) x = chienValue p x ^^^ chienValue q x := by
  induction p, q using polyXor.induct with
  | case1 q => rw [polyXor, chienValue_nil, BitVec.zero_xor]
  | case2 p h => cases p <;> simp [polyXor]
  | case3 a p b q ih =>
    simp only [polyXor, chienValue_cons, ih, xor_gfmul]
    ac_rfl

theorem chienValue_polyScale (c : Byte) (p : List Byte) :
    chienValue (polyScale c p) x = gfmul c (chienValue p x) := by
  induction p with
  | nil => exact (gfmul_zero c).symm
  | cons a p ih =>
    rw [polyScale] at ih ⊢
    rw [List.map_cons, chienValue_cons, chienValue_cons, ih, gfmul_xor, gfmul_assoc]

theorem chienValue_polyMul (p q : List Byte) :
    chienValue (polyMul p q) x = gfmul (chienValue p x) (chienValue q x) := by
  induction p with
  | nil => exact (zero_gfmul _).symm
  | cons a p ih =>
    rw [polyMul, chienValue_polyXor, chienValue_polyScale, chienValue_cons, chienValue_cons, ih, xor_gfmul,
      BitVec.xor_zero, BitVec.xor_comm, gfmul_assoc, gfmul_assoc, gfmul_comm x]

theorem chienValue_eq_zero {p : List Byte} (h : ∀ k, p.getD k 0#8 = 0#8) : chienValue p x = 0#8 := by
  induction p with
  | nil => rfl
  | cons a p ih => rw [chienValue_cons, ih fun k => h (k + 1), show a = 0#8 from h 0, zero_gfmul, BitVec.xor_zero]

/-- A constant polynomial. -/
theorem chienValue_eq_getD_zero {p : List Byte} (h : ∀ k, p.getD (k + 1) 0#8 = 0#8) :
    chienValue p x = p.getD 0 0#8 := by
  cases p with
  | nil => rfl
  | cons a p => rw [chienValue_cons, chienValue_eq_zero x h, zero_gfmul, BitVec.zero_xor, List.getD_cons_zero]

end Evaluation

theorem chienValue_append (p q : List Byte) (e : Nat) :
    chienValue (p ++ q) (gfExp e) =
      chienValue p (gfExp e) ^^^ gfmul (gfExp (e * p.length)) (chienValue q (gfExp e)) := by
  induction p with
  | nil => rw [List.nil_append, chienValue_nil, BitVec.zero_xor, List.length_nil, Nat.mul_zero, gfExp_zero, one_gfmul]
  | cons a p ih =>
    rw [List.cons_append, chienValue_cons, chienValue_cons, ih, xor_gfmul, gfmul_comm (gfmul _ _) (gfExp e),
      ← gfmul_assoc, gfmul_gfExp_gfExp, List.length_cons, Nat.mul_succ, Nat.add_comm e]
    ac_rfl

/-- Λ(α^e) as a sum of coefficients times powers (R250). -/
theorem chienValue_gfExp (p : List Byte) (e : Nat) :
    chienValue p (gfExp e) = xorSum p.length fun j => gfmul (p.getD j 0#8) (gfExp (j * e)) := by
  induction p with
  | nil => rfl
  | cons a p ih =>
    rw [chienValue_cons, List.length_cons, xorSum_succ', ih, gfmul_comm, gfmul_xorSum, BitVec.xor_comm]
    congr 1
    · simp
    · refine xorSum_congr fun j _ => ?_
      rw [List.getD_cons_succ, gfmul_comm, gfmul_assoc, gfmul_gfExp_gfExp, Nat.succ_mul]

/-! #### Evaluation of a word (R230, R240) -/

theorem wordAt_eq (r : Nat → Byte) (n i : Nat) :
    Spec.wordAt r n i = xorSum n fun p => gfmul (r p) (gfExp (i * (n - 1 - p))) :=
  xorSum_congr fun p _ => by rw [← gfmul_eq_product, alphaPow_eq_gfExp]

theorem wordAt_succ (r : Nat → Byte) (n i : Nat) :
    Spec.wordAt r (n + 1) i = gfmul (Spec.wordAt r n i) (gfExp i) ^^^ r n := by
  rw [wordAt_eq, wordAt_eq, xorSum_succ, gfmul_comm _ (gfExp i), gfmul_xorSum]
  congr 1
  · refine xorSum_congr fun p hp => ?_
    rw [gfmul_comm (gfExp i), gfmul_assoc, gfmul_gfExp_gfExp, ← Nat.mul_succ]
    congr 3
    omega
  · simp

/-- Horner's rule evaluates the word's polynomial (R240). -/
theorem horner_gfExp (r : Nat → Byte) (n i : Nat) :
    horner (gfExp i) ((List.range n).map r) = Spec.wordAt r n i := by
  induction n with
  | zero => rfl
  | succ n ih =>
    rw [wordAt_succ, ← ih, List.range_succ, List.map_append, horner, List.foldl_append]
    rfl

/-- The word's polynomial at α^i is α^(i·(n−1)) times the polynomial with the symbols as ascending coefficients
at α^(−i) = α^e. -/
theorem wordAt_eq_chienValue (r : Nat → Byte) (n : Nat) {i e : Nat} (hie : (i + e) % 255 = 0) :
    Spec.wordAt r n i = gfmul (gfExp (i * (n - 1))) (chienValue ((List.range n).map r) (gfExp e)) := by
  rw [wordAt_eq, chienValue_gfExp, gfmul_xorSum, List.length_map, List.length_range]
  refine xorSum_congr fun p hp => ?_
  have hexp : p * e + i * (n - 1) = i * (n - 1 - p) + (i + e) * p := by
    obtain ⟨m, rfl⟩ := Nat.exists_eq_add_of_lt hp
    simp only [Nat.add_sub_cancel, Nat.add_sub_cancel_left]
    ring
  have hmod : (i * (n - 1 - p) + (i + e) * p) % 255 = i * (n - 1 - p) % 255 := by
    rw [Nat.add_mod, Nat.mul_mod (i + e), hie, Nat.zero_mul, Nat.zero_mod, Nat.add_zero, Nat.mod_mod]
  rw [gfmul_comm (gfExp _), gfmul_assoc, gfmul_gfExp_gfExp, hexp, gfExp_eq_gfExp_iff.mpr hmod]
  simp [hp]

/-- A change by c at one position changes the value by that position's share (R241). -/
theorem wordAt_ite (r : Nat → Byte) {n p : Nat} (hp : p < n) (c : Byte) (i : Nat) :
    Spec.wordAt (fun q => if q = p then r q ^^^ c else r q) n i =
      Spec.wordAt r n i ^^^ gfmul c (gfExp (i * (n - 1 - p))) := by
  rw [wordAt_eq, wordAt_eq, ← Spec.xorSum_ite_eq hp (gfmul c _), ← Spec.xorSum_xor]
  refine xorSum_congr fun q _ => ?_
  split
  next h => rw [h, xor_gfmul]
  next h => rw [BitVec.xor_zero]

end Sys2Proof.Machine

/-! ### Berlekamp–Massey (R245, R246) -/

namespace Sys2Proof.Machine

open Spec (xorSum xorSum_succ' xorSum_congr)

/-- Σ Λ_j·S_(k−j), the discrepancy of Λ at syndrome k: 0 where the syndromes satisfy Λ's recurrence. -/
def recurrenceSum (syn lam : List Byte) (k : Nat) : Byte :=
  xorSum lam.length fun j => gfmul (lam.getD j 0#8) (syn.getD (k - j) 0#8)

variable (syn : List Byte)

/-- Zeros may be appended. -/
theorem recurrenceSum_of_le {lam : List Byte} {n : Nat} (h : lam.length ≤ n) (k : Nat) :
    recurrenceSum syn lam k = xorSum n fun j => gfmul (lam.getD j 0#8) (syn.getD (k - j) 0#8) :=
  (Spec.xorSum_of_le h fun j hj _ => by rw [List.getD_eq_default _ _ hj, zero_gfmul]).symm

theorem recurrenceSum_polyXor (p q : List Byte) (k : Nat) :
    recurrenceSum syn (polyXor p q) k = recurrenceSum syn p k ^^^ recurrenceSum syn q k := by
  rw [recurrenceSum_of_le syn (length_polyXor p q).le, recurrenceSum_of_le syn (le_max_left _ q.length),
    recurrenceSum_of_le syn (le_max_right p.length _), ← Spec.xorSum_xor]
  exact xorSum_congr fun j _ => by rw [getD_polyXor, xor_gfmul]

theorem recurrenceSum_polyScale (c : Byte) (p : List Byte) (k : Nat) :
    recurrenceSum syn (polyScale c p) k = gfmul c (recurrenceSum syn p k) := by
  rw [recurrenceSum, recurrenceSum, length_polyScale, gfmul_xorSum]
  exact xorSum_congr fun j _ => by rw [getD_polyScale, gfmul_assoc]

/-- A factor x shifts the recurrence by one syndrome. -/
theorem recurrenceSum_cons_zero (p : List Byte) (k : Nat) :
    recurrenceSum syn (0#8 :: p) (k + 1) = recurrenceSum syn p k := by
  rw [recurrenceSum, List.length_cons, xorSum_succ', List.getD_cons_zero, zero_gfmul, BitVec.zero_xor]
  exact xorSum_congr fun j _ => by rw [List.getD_cons_succ, Nat.add_sub_add_right]

/-- The loop's discrepancy is the recurrence's, since Λ_0 = 1. -/
theorem bmDiscrepancy_eq {lam : List Byte} (h : lam.getD 0 0#8 = 1#8) (i : Nat) :
    bmDiscrepancy syn i lam = recurrenceSum syn lam i := by
  obtain _ | ⟨a, p⟩ := lam
  · simp at h
  · obtain rfl : a = 1#8 := h
    rw [recurrenceSum, List.length_cons, xorSum_succ', List.getD_cons_zero, one_gfmul]
    exact Spec.foldl_xor_range _ _ _

/-! #### One iteration -/

theorem polyXor_comm (p q : List Byte) : polyXor p q = polyXor q p := by
  induction p, q using polyXor.induct with
  | case1 q => cases q <;> rfl
  | case2 p h => cases p <;> rfl
  | case3 a p b q ih => rw [polyXor, polyXor, ih, BitVec.xor_comm]

theorem polyScale_gfinv {d : Byte} (hd : d ≠ 0#8) (p : List Byte) : polyScale d (polyScale (gfinv d) p) = p := by
  rw [polyScale, polyScale, List.map_map]
  refine (List.map_congr_left fun a _ => ?_).trans (List.map_id p)
  rw [Function.comp_apply, ← gfmul_assoc, gfmul_gfinv hd, one_gfmul, id]

theorem bmStep_of_eq_zero {st : BmState} {i : Nat} (hd : bmDiscrepancy syn i st.lam = 0#8) :
    bmStep syn st i = { lam := st.lam, old := 0#8 :: st.old } := by
  rw [bmStep, if_pos hd]

/-- With or without the swap, the new locator is Λ ⊕ Δ·x·B. -/
theorem bmStep_of_ne_zero {st : BmState} {i : Nat} (hd : bmDiscrepancy syn i st.lam ≠ 0#8) :
    bmStep syn st i =
      { lam := polyXor st.lam (polyScale (bmDiscrepancy syn i st.lam) (0#8 :: st.old))
        old := if st.lam.length ≤ st.old.length then polyScale (gfinv (bmDiscrepancy syn i st.lam)) st.lam
          else 0#8 :: st.old } := by
  simp only [bmStep, if_neg hd, List.length_cons, Nat.lt_succ_iff, gt_iff_lt]
  split
  · rw [polyScale_gfinv hd, polyXor_comm]
  · rfl

theorem bmLoop_succ (n : Nat) : bmLoop syn (n + 1) = bmStep syn (bmLoop syn n) n := by
  rw [bmLoop, List.range_succ, List.foldl_append]
  rfl

/-! #### The loop's invariant -/

/-- What holds at the start of iteration `i`: R246, the lengths of Λ and B moving together, Λ generating the
syndromes before i, and the discrepancy of B being 1 at the syndrome before i and 0 before that, wherever B's
recurrence reaches. -/
structure BmInvariant (i : Nat) (st : BmState) : Prop where
  length_add : st.lam.length + st.old.length = i + 2
  length_le : st.lam.length ≤ i + 1
  head : st.lam.getD 0 0#8 = 1#8
  lam_sum : ∀ k, st.lam.length ≤ k + 1 → k < i → recurrenceSum syn st.lam k = 0#8
  old_sum : ∀ k, st.old.length ≤ k + 1 → k < i →
    recurrenceSum syn st.old k = if k + 1 = i then 1#8 else 0#8

namespace BmInvariant

variable {syn} {i : Nat} {st : BmState}

theorem discrepancy_eq (h : BmInvariant syn i st) : bmDiscrepancy syn i st.lam = recurrenceSum syn st.lam i :=
  bmDiscrepancy_eq syn h.head i

theorem length_pos (h : BmInvariant syn i st) : 0 < st.lam.length := by
  refine List.length_pos_of_ne_nil fun hnil => ?_
  have hhead := h.head
  rw [hnil] at hhead
  cases hhead

/-- B's part at the next iteration, where B is multiplied by x. -/
theorem cons_old_sum (h : BmInvariant syn i st) (k : Nat) (hk : st.old.length ≤ k) (hki : k ≤ i) :
    recurrenceSum syn (0#8 :: st.old) k = if k = i then 1#8 else 0#8 := by
  have hadd := h.length_add
  have hle := h.length_le
  obtain ⟨m, rfl⟩ := Nat.exists_eq_add_one_of_ne_zero (n := k) (by omega)
  rw [recurrenceSum_cons_zero, h.old_sum m hk (by omega)]

/-- The new locator: its discrepancy at i is Δ ⊕ Δ·1, and before i both parts have none. -/
theorem step_lam_sum (h : BmInvariant syn i st) (k : Nat)
    (hlen : max st.lam.length (st.old.length + 1) ≤ k + 1) (hk : k < i + 1) :
    recurrenceSum syn (polyXor st.lam (polyScale (recurrenceSum syn st.lam i) (0#8 :: st.old))) k = 0#8 := by
  rw [recurrenceSum_polyXor, recurrenceSum_polyScale, h.cons_old_sum k (by omega) (by omega)]
  split
  next hki => rw [hki, gfmul_one, BitVec.xor_self]
  next hki => rw [h.lam_sum k (by omega) (by omega), gfmul_zero, BitVec.xor_self]

/-- After a swap B is Δ⁻¹·Λ, whose discrepancy at i is 1. -/
theorem scaled_lam_sum (h : BmInvariant syn i st) (hd : recurrenceSum syn st.lam i ≠ 0#8) (k : Nat)
    (hlen : st.lam.length ≤ k + 1) (hk : k < i + 1) :
    recurrenceSum syn (polyScale (gfinv (recurrenceSum syn st.lam i)) st.lam) k =
      if k + 1 = i + 1 then 1#8 else 0#8 := by
  rw [recurrenceSum_polyScale, gfmul_comm]
  split
  next hki => rw [Nat.add_right_cancel hki, gfmul_gfinv hd]
  next hki => rw [h.lam_sum k hlen (by omega), zero_gfmul]

theorem step_of_eq_zero (h : BmInvariant syn i st) (hd : recurrenceSum syn st.lam i = 0#8) :
    BmInvariant syn (i + 1) { lam := st.lam, old := 0#8 :: st.old } := by
  have hadd := h.length_add
  have hle := h.length_le
  refine ⟨by simp; omega, by simp; omega, h.head, fun k hlen hk => ?_, fun k hlen hk => ?_⟩
  · rcases Nat.lt_succ_iff_lt_or_eq.mp hk with hk | rfl
    · exact h.lam_sum k hlen hk
    · exact hd
  · simpa using h.cons_old_sum k (by simpa using hlen) (by omega)

theorem step_of_ne_zero (h : BmInvariant syn i st) (hd : recurrenceSum syn st.lam i ≠ 0#8) :
    BmInvariant syn (i + 1)
      { lam := polyXor st.lam (polyScale (recurrenceSum syn st.lam i) (0#8 :: st.old))
        old := if st.lam.length ≤ st.old.length then polyScale (gfinv (recurrenceSum syn st.lam i)) st.lam
          else 0#8 :: st.old } := by
  have hadd := h.length_add
  have hle := h.length_le
  have hpos := h.length_pos
  have hlen : (polyXor st.lam (polyScale (recurrenceSum syn st.lam i) (0#8 :: st.old))).length =
      max st.lam.length (st.old.length + 1) := by
    rw [length_polyXor, length_polyScale, List.length_cons]
  refine ⟨?_, by rw [hlen]; omega, ?_, fun k hk hki => h.step_lam_sum k (hlen ▸ hk) hki, fun k => ?_⟩
  · simp only [hlen, length_polyScale, List.length_cons, apply_ite List.length]
    split <;> omega
  · rw [getD_polyXor, getD_polyScale, List.getD_cons_zero, gfmul_zero, BitVec.xor_zero, h.head]
  · dsimp only
    split
    · simpa using h.scaled_lam_sum hd k
    · simpa [Nat.lt_succ_iff] using h.cons_old_sum k

theorem step (h : BmInvariant syn i st) : BmInvariant syn (i + 1) (bmStep syn st i) := by
  by_cases hd : bmDiscrepancy syn i st.lam = 0#8
  · rw [bmStep_of_eq_zero syn hd]
    exact h.step_of_eq_zero (h.discrepancy_eq ▸ hd)
  · rw [bmStep_of_ne_zero syn hd]
    rw [h.discrepancy_eq] at hd ⊢
    exact h.step_of_ne_zero hd

end BmInvariant

theorem bmLoop_invariant (n : Nat) : BmInvariant syn n (bmLoop syn n) := by
  induction n with
  | zero =>
    exact ⟨rfl, le_rfl, rfl, fun k _ hk => absurd hk k.not_lt_zero, fun k _ hk => absurd hk k.not_lt_zero⟩
  | succ n ih => rw [bmLoop_succ]; exact ih.step

/-- With discrepancy 0 the iteration leaves Λ. -/
theorem bmLoop_lam_of_eq_zero {n : Nat} (hd : recurrenceSum syn (bmLoop syn n).lam n = 0#8) :
    (bmLoop syn (n + 1)).lam = (bmLoop syn n).lam := by
  rw [bmLoop_succ, bmStep_of_eq_zero]
  rwa [(bmLoop_invariant syn n).discrepancy_eq]

theorem length_bmLoop_lam_of_ne_zero {n : Nat} (hd : recurrenceSum syn (bmLoop syn n).lam n ≠ 0#8) :
    (bmLoop syn (n + 1)).lam.length = max (bmLoop syn n).lam.length (n + 3 - (bmLoop syn n).lam.length) := by
  have hinv := bmLoop_invariant syn n
  have hadd := hinv.length_add
  rw [bmLoop_succ, bmStep_of_ne_zero syn (hinv.discrepancy_eq.symm ▸ hd)]
  simp only [length_polyXor, length_polyScale, List.length_cons]
  omega

/-- Settles O34, by the loop's invariant and the two cases of an iteration. -/
theorem berlekampMasseyLoopInvariant : Obligations.BerlekampMasseyLoopInvariant := by
  unfold Obligations.BerlekampMasseyLoopInvariant
  exact fun syn i => ⟨(bmLoop_invariant syn i).length_le, (bmLoop_invariant syn i).head,
    bmLoop_lam_of_eq_zero syn, length_bmLoop_lam_of_ne_zero syn⟩

/-- Settles O35: it is a part of the loop's invariant. -/
theorem berlekampMasseyGeneratesTheSyndromes : Obligations.BerlekampMasseyGeneratesTheSyndromes := by
  unfold Obligations.BerlekampMasseyGeneratesTheSyndromes
  exact fun syn n k => (bmLoop_invariant syn n).lam_sum k

end Sys2Proof.Machine

/-! ### The input checks of the Reed–Solomon commands (R231) -/

namespace Sys2Proof.Machine

section Checks

variable {L : Type} {P : LlrParam L} (s : State L P)

theorem rsWordOk_iff_wordLegal : rsWordOk s = true ↔ Spec.wordLegal s := rsWordOk_iff s

theorem rsBmOk_iff : rsBmOk s = true ↔ s.rsNsym.toNat ≤ s.params.nsymMax := decide_eq_true_iff

theorem rsChienOk_iff_chienLegal : rsChienOk s = true ↔ Spec.chienLegal s := by
  rw [rsChienOk, Bool.and_eq_true, rsWordOk_iff_wordLegal, decide_eq_true_iff]
  rfl

theorem rsEncRule_eq_input_iff : rsEncRule s = .error .input ↔ ¬ Spec.wordLegal s := by
  rw [← rsWordOk_iff_wordLegal, rsEncRule]
  split <;> simp [*]

theorem rsSyndRule_eq_input_iff : rsSyndRule s = .error .input ↔ ¬ Spec.wordLegal s := by
  rw [← rsWordOk_iff_wordLegal, rsSyndRule]
  split <;> simp [*]

theorem rsBmRule_eq_input_iff : rsBmRule s = .error .input ↔ ¬ s.rsNsym.toNat ≤ s.params.nsymMax := by
  rw [← rsBmOk_iff, rsBmRule]
  split
  · dsimp only
    split <;> simp [*]
  · simp [*]

theorem rsChienRule_eq_input_iff : rsChienRule s = .error .input ↔ ¬ Spec.chienLegal s := by
  rw [← rsChienOk_iff_chienLegal, rsChienRule]
  split
  · dsimp only
    split <;> simp [*]
  · simp [*]

end Checks

variable {L : Type} [DecidableEq L] [Inhabited L] {P : LlrParam L} {s : State L P}

theorem execOn_of_ok {i : Instr} {s' : State L P} (h : commandRule i s = .ok s') :
    execOn i s = .next (complete .ok s') := by
  rw [execOn_eq_finish, h]
  rfl

theorem execOn_of_error {i : Instr} {c : ErrCode} (h : commandRule i s = .error c) :
    execOn i s = .next (complete c s) := by
  rw [execOn_eq_finish, h]
  rfl

/-- A command whose rule raises INPUT exactly on illegal operands completes so. -/
theorem execOn_input_of_iff (i : Instr) {legal : Prop} (h : commandRule i s = .error .input ↔ ¬ legal) :
    (¬ legal → execOn i s = .next { s with status := Spec.completed .input s }) ∧
      (legal → ∀ t, execOn i s = .next t → t.status.err ≠ .input) := by
  refine ⟨fun hi => execOn_of_error (h.mpr hi), fun hl t ht => ?_⟩
  rcases execOn_cases i s t ht with ⟨s', -, rfl⟩ | ⟨c, hc, rfl⟩
  · exact ErrCode.noConfusion
  · rintro rfl
    exact h.mp hc hl

/-- Settles O31: the rule of each of the four commands raises INPUT exactly when its check fails. -/
theorem rsInputChecks : Obligations.RsInputChecks := by
  unfold Obligations.RsInputChecks
  exact (onEveryCore_iff _).mpr fun L _ _ P _ s =>
    ⟨execOn_input_of_iff .rsEnc (rsEncRule_eq_input_iff s), execOn_input_of_iff .rsSynd (rsSyndRule_eq_input_iff s),
      execOn_input_of_iff .rsBm (rsBmRule_eq_input_iff s), execOn_input_of_iff .rsChien (rsChienRule_eq_input_iff s)⟩

end Sys2Proof.Machine

/-! ### Lists read from arrays and written to them -/

namespace Sys2Proof.Machine

variable {α : Type} [Inhabited α]

theorem cellList_zero (c : Cells α) (n : Nat) : cellList c 0 n = (List.range n).map (cellGet c) := by
  simp only [cellList, Nat.zero_add]

variable [DecidableEq α]

/-- An array of which a list was written right behind its first elements reads as those, then the list. -/
theorem cellList_cellSetFrom_append {valid : Nat → Bool} {c : Cells α} {base : Nat} {vs : List α}
    (hv : ∀ k, k < vs.length → valid (base + k) = true) (hc : cellsWf valid c = true) :
    cellList (cellSetFrom c base vs) 0 (base + vs.length) = cellList c 0 base ++ vs := by
  refine List.ext_getElem (by simp) fun k hk _ => ?_
  rw [length_cellList] at hk
  simp only [cellList_zero, List.getElem_map, List.getElem_range]
  by_cases hkb : k < base
  · rw [cellGet_cellSetFrom_of_outside _ _ _ _ (.inl hkb), List.getElem_append_left (by simpa using hkb)]
    simp
  · obtain ⟨m, rfl⟩ := Nat.exists_eq_add_of_le (not_lt.mp hkb)
    have hm : m < vs.length := by omega
    rw [cellGet_cellSetFrom valid c base vs m default hm hv hc]
    simp [hm]

/-- The list written from index 0 is what the array's first elements read as. -/
theorem cellList_cellSetFrom {valid : Nat → Bool} {c : Cells α} {vs : List α} {n : Nat} (hn : vs.length = n)
    (hv : ∀ k, k < n → valid k = true) (hc : cellsWf valid c = true) :
    cellList (cellSetFrom c 0 vs) 0 n = vs := by
  subst hn
  have h := cellList_cellSetFrom_append (base := 0) (fun k hk => by simpa using hv k hk) hc
  rwa [Nat.zero_add] at h

theorem cellGet_cellSetFrom_zero {valid : Nat → Bool} {c : Cells α} {vs : List α} {k : Nat} (d : α)
    (hk : k < vs.length) (hv : ∀ k, k < vs.length → valid k = true) (hc : cellsWf valid c = true) :
    cellGet (cellSetFrom c 0 vs) k = vs.getD k d := by
  have h := cellGet_cellSetFrom valid c 0 vs k d hk (by simpa using hv) hc
  rwa [Nat.zero_add] at h

theorem cellGet_cellSetFrom_map_range {valid : Nat → Bool} {c : Cells α} {n k : Nat} (f : Nat → α) (hk : k < n)
    (hv : ∀ k, k < n → valid k = true) (hc : cellsWf valid c = true) :
    cellGet (cellSetFrom c 0 ((List.range n).map f)) k = f k := by
  rw [cellGet_cellSetFrom_zero default (by simpa using hk) (by simpa using hv) hc]
  simp [hk]

end Sys2Proof.Machine

namespace Sys2Proof.Machine

variable {L : Type} [DecidableEq L] [Inhabited L] {P : LlrParam L} {s : State L P}

/-- The Reed–Solomon arrays of a state that meets the invariant are in canonical form. -/
theorem rsArrays_wf (hs : s.inv = true) :
    cellsWf validSymbol s.mem.rsBuf = true ∧ cellsWf (validSyn s.params) s.mem.rsSyn = true ∧
      cellsWf (validLambda s.params) s.mem.rsLambda = true ∧ cellsWf validSymbol s.mem.rsPos = true := by
  obtain ⟨-, hm, -⟩ := (state_inv_iff s).mp hs
  obtain ⟨hbuf, hsyn, hlam, hpos, -⟩ := (memory_wf_iff _ _).mp hm
  exact ⟨hbuf, hsyn, hlam, hpos⟩

end Sys2Proof.Machine

/-! ### RS.ENC (R232 to R234) -/

namespace Sys2Proof.Machine

theorem chienValue_rsGenerator {n i e : Nat} (hi : i < n) (hie : (i + e) % 255 = 0) :
    chienValue (rsGenerator n) (gfExp e) = 0#8 := by
  induction n, hi using Nat.le_induction with
  | base =>
    have hroot : gfExp (i + e) = 1#8 := by rw [← gfExp_mod, hie, gfExp_zero]
    rw [rsGenerator, chienValue_polyMul]
    simp [hroot]
  | succ n hn ih => rw [rsGenerator, chienValue_polyMul, ih, zero_gfmul]

/-- The generator is monic. -/
theorem rsGenerator_eq_cons (n : Nat) : ∃ tail, rsGenerator n = 1#8 :: tail := by
  induction n with
  | zero => exact ⟨[], rfl⟩
  | succ n ih =>
    obtain ⟨tail, h⟩ := ih
    rw [rsGenerator, h]
    simp [polyMul, polyScale, polyXor]

/-- A division step at a root of the divisor, in the ascending reading: the symbol that leaves is worth what the step
adds to the rest, times x. -/
theorem chienValue_rsDivideStep {x : Byte} {tail : List Byte} (hg : chienValue (1#8 :: tail) x = 0#8)
    (coef : Byte) (rest : List Byte) :
    gfmul (chienValue (rsDivideStep (1#8 :: tail) coef rest) x) x = chienValue (coef :: rest) x := by
  have htail : gfmul (chienValue tail x) x = 1#8 := by
    rwa [chienValue_cons, BitVec.xor_eq_zero_iff] at hg
  rw [chienValue_cons, rsDivideStep, List.tail_cons]
  split
  next h =>
    have hscale : (tail.map fun b => gfmul b coef) = polyScale coef tail :=
      List.map_congr_left fun b _ => gfmul_comm b coef
    rw [hscale, chienValue_polyXor, chienValue_polyScale, xor_gfmul, gfmul_assoc, htail, gfmul_one]
  next h => rw [not_not.mp h, BitVec.xor_zero]

/-- The division's remainder is worth the dividend at a root of the divisor, up to a power of x. -/
theorem chienValue_rsDivide {e : Nat} {tail : List Byte} (hg : chienValue (1#8 :: tail) (gfExp e) = 0#8)
    (k : Nat) (buf : List Byte) :
    gfmul (gfExp (e * k)) (chienValue (rsDivide (1#8 :: tail) k buf) (gfExp e)) = chienValue buf (gfExp e) := by
  induction k generalizing buf with
  | zero => rw [Nat.mul_zero, gfExp_zero, one_gfmul, rsDivide]
  | succ k ih =>
    cases buf with
    | nil => exact gfmul_zero _
    | cons coef rest =>
      rw [rsDivide, ← chienValue_rsDivideStep hg, gfmul_comm _ (gfExp e), ← ih (rsDivideStep _ coef rest),
        ← gfmul_assoc, gfmul_gfExp_gfExp, Nat.mul_succ, Nat.add_comm e]

/-- The message with its parity vanishes at the inverses of the generator's roots, read ascending. -/
theorem chienValue_append_rsParity {nsym i e : Nat} (hi : i < nsym) (hie : (i + e) % 255 = 0) (msg : List Byte) :
    chienValue (msg ++ rsParity nsym msg) (gfExp e) = 0#8 := by
  obtain ⟨tail, htail⟩ := rsGenerator_eq_cons nsym
  have hg := chienValue_rsGenerator hi hie
  rw [htail] at hg
  rw [chienValue_append, rsParity, htail, chienValue_rsDivide hg, chienValue_append,
    chienValue_eq_zero _ (List.getElem?_getD_replicate_default_eq 0#8 nsym), gfmul_zero, BitVec.xor_zero,
    BitVec.xor_self]

end Sys2Proof.Machine

/-! ### What each Reed–Solomon command leaves -/

namespace Sys2Proof.Machine

theorem cellList_rsBuf {L : Type} {P : LlrParam L} (s : State L P) (n : Nat) :
    cellList s.mem.rsBuf 0 n = (List.range n).map (Spec.buf s) :=
  cellList_zero _ _

variable {L : Type} [DecidableEq L] [Inhabited L] {P : LlrParam L} {s : State L P}

theorem validSymbol_of_lt {n k : Nat} (hn : n ≤ 255) (hk : k < n) : validSymbol k = true :=
  decide_eq_true (by omega)

theorem execOn_rsEnc (h : Spec.wordLegal s) :
    execOn .rsEnc s = .next (complete .ok (s.withMem { s.mem with
      rsBuf := cellSetFrom s.mem.rsBuf (rsK s) (rsParity (rsNsym s) (cellList s.mem.rsBuf 0 (rsK s))) })) :=
  execOn_of_ok (if_pos ((rsWordOk_iff_wordLegal s).mpr h))

theorem execOn_rsSynd (h : Spec.wordLegal s) :
    let syn := (List.range (rsNsym s)).map (Spec.wordAt (Spec.buf s) (rsLength s))
    execOn .rsSynd s = .next (complete .ok { s.withMem { s.mem with rsSyn := cellSetFrom s.mem.rsSyn 0 syn } with
      rsSynz := syn.all fun y => y == 0#8 }) := by
  have hsyn : rsSyndromes (rsNsym s) (cellList s.mem.rsBuf 0 (rsLength s)) =
      (List.range (rsNsym s)).map (Spec.wordAt (Spec.buf s) (rsLength s)) := by
    simp only [rsSyndromes, cellList_rsBuf, horner_gfExp]
  refine execOn_of_ok ?_
  rw [← hsyn]
  exact if_pos ((rsWordOk_iff_wordLegal s).mpr h)

theorem syndromes_all_zero_iff (r : Nat → Byte) (n nsym : Nat) :
    (((List.range nsym).map (Spec.wordAt r n)).all fun y => y == 0#8) = true ↔
      ∀ i, i < nsym → Spec.wordAt r n i = 0#8 := by
  simp

/-- Settles O32: message and parity, read ascending, vanish at α^(−i). -/
theorem rsEncMakesACodeword : Obligations.RsEncMakesACodeword := by
  unfold Obligations.RsEncMakesACodeword
  refine (onEveryCore_iff _).mpr fun L _ _ P _ s hs hlegal => ⟨_, execOn_rsEnc hlegal, rfl, fun p hp => ?_,
    fun i hi => ?_⟩
  · refine cellGet_cellSetFrom_of_outside _ _ _ _ ?_
    rwa [length_rsParity]
  · obtain ⟨hbuf, -⟩ := rsArrays_wf hs
    have hword := cellList_cellSetFrom_append (base := rsK s)
      (vs := rsParity (rsNsym s) (cellList s.mem.rsBuf 0 (rsK s)))
      (fun k hk => validSymbol_of_lt hlegal.1 (by rw [length_rsParity] at hk; exact Nat.add_lt_add_left hk _)) hbuf
    have hie : (i + (255 - i % 255)) % 255 = 0 := by omega
    rw [length_rsParity, cellList_zero] at hword
    rw [wordAt_eq_chienValue _ _ hie]
    refine (congrArg (gfmul _) ?_).trans (gfmul_zero _)
    exact (congrArg (chienValue · _) hword).trans (chienValue_append_rsParity hi hie _)

/-- Settles O33: Horner's rule evaluates the word. -/
theorem rsSyndEvaluatesTheWord : Obligations.RsSyndEvaluatesTheWord := by
  unfold Obligations.RsSyndEvaluatesTheWord
  refine (onEveryCore_iff _).mpr fun L _ _ P _ s hs hlegal => ?_
  obtain ⟨-, hsyn, -⟩ := rsArrays_wf hs
  refine ⟨_, execOn_rsSynd hlegal, rfl, fun i hi => ?_, fun i (hi : rsNsym s ≤ i) => ?_,
    syndromes_all_zero_iff _ _ _⟩
  · exact cellGet_cellSetFrom_map_range _ hi (fun k hk => decide_eq_true (lt_of_lt_of_le hk hlegal.2)) hsyn
  · exact cellGet_cellSetFrom_of_outside _ _ _ _ (.inr (by simpa using hi))

/-! #### RS.BM -/

/-- The locator RS.BM computes (R245). -/
def bmLocator (s : State L P) : List Byte :=
  (bmLoop (cellList s.mem.rsSyn 0 (rsNsym s)) (rsNsym s)).lam

theorem execOn_rsBm_of_lt (h : s.rsNsym.toNat ≤ s.params.nsymMax) (hlt : rsNsym s < 2 * polyDegree (bmLocator s)) :
    execOn .rsBm s = .next (complete .tooManyErrors s) :=
  execOn_of_error ((if_pos ((rsBmOk_iff s).mpr h)).trans (if_pos hlt))

theorem execOn_rsBm_of_le (h : s.rsNsym.toNat ≤ s.params.nsymMax) (hle : 2 * polyDegree (bmLocator s) ≤ rsNsym s) :
    execOn .rsBm s = .next (complete .ok { s.withMem { s.mem with
        rsLambda := cellSetFrom s.mem.rsLambda 0
          (bmOutput (bmLocator s) (polyDegree (bmLocator s)) (rsNsym s)) } with
      rsErrs := BitVec.ofNat 8 (polyDegree (bmLocator s)) }) :=
  execOn_of_ok ((if_pos ((rsBmOk_iff s).mpr h)).trans (if_neg (not_lt.mpr hle)))

/-- Settles O36: errs is the degree of Λ, which has one since Λ_0 = 1. -/
theorem rsBmWritesTheLocatorOrRaises : Obligations.RsBmWritesTheLocatorOrRaises := by
  unfold Obligations.RsBmWritesTheLocatorOrRaises
  refine (onEveryCore_iff _).mpr fun L _ _ P _ s hs hlegal => ?_
  obtain ⟨-, -, hlam, -⟩ := rsArrays_wf hs
  have hhead : (bmLocator s).getD 0 0#8 = 1#8 := (bmLoop_invariant _ _).head
  obtain ⟨hne, hzero⟩ := polyDegree_spec ⟨0, ne_of_eq_of_ne hhead (by decide)⟩
  refine ⟨polyDegree (bmLocator s), hne, hzero, execOn_rsBm_of_lt hlegal, fun hle =>
    ⟨_, execOn_rsBm_of_le hlegal hle, rfl, fun j hj => ?_, fun j (hj : rsNsym s < j) => ?_⟩⟩
  · exact cellGet_cellSetFrom_map_range _ (Nat.lt_succ_of_le hj)
      (fun k hk => decide_eq_true ((Nat.le_of_lt_succ hk).trans hlegal)) hlam
  · exact cellGet_cellSetFrom_of_outside _ _ _ _ (.inr (by simpa using hj))

/-! #### RS.CHIEN -/

/-- The positions at whose inverse locator the polynomial in RS_LAMBDA vanishes (R250). -/
def errorPositions (s : State L P) : List Nat :=
  (List.range (rsLength s)).filter fun p => Spec.locatorAt (cellGet s.mem.rsLambda) (rsErrs s) (rsLength s) p == 0#8

theorem chienValue_chienPoint (c : Cells Byte) (errs n p : Nat) :
    chienValue (cellList c 0 (errs + 1)) (chienPoint n p) = Spec.locatorAt (cellGet c) errs n p := by
  rw [chienPoint, gfExp_mod, chienValue_gfExp, length_cellList, Spec.locatorAt]
  refine Spec.xorSum_congr fun j hj => ?_
  rw [getD_cellList _ _ _ _ _ hj, Nat.zero_add, gfmul_eq_product, alphaPow_eq_gfExp]

omit [DecidableEq L] [Inhabited L] in
theorem errorPositions_lt {p : Nat} (h : p ∈ errorPositions s) : p < rsLength s :=
  List.mem_range.mp (List.mem_filter.mp h).1

omit [DecidableEq L] [Inhabited L] in
theorem chienRoots_rsLambda :
    chienRoots (cellList s.mem.rsLambda 0 (rsErrs s + 1)) (rsLength s) = errorPositions s := by
  simp only [chienRoots, errorPositions, chienValue_chienPoint]

theorem execOn_rsChien_of_ne (h : Spec.chienLegal s) (hne : (errorPositions s).length ≠ rsErrs s) :
    execOn .rsChien s = .next (complete .locatorMismatch s) := by
  rw [← chienRoots_rsLambda] at hne
  exact execOn_of_error ((if_pos ((rsChienOk_iff_chienLegal s).mpr h)).trans (if_pos hne))

theorem execOn_rsChien_of_eq (h : Spec.chienLegal s) (heq : (errorPositions s).length = rsErrs s) :
    execOn .rsChien s = .next (complete .ok { s.withMem { s.mem with
        rsPos := cellSetFrom s.mem.rsPos 0 ((errorPositions s).map (BitVec.ofNat 8)) } with
      rsNpos := s.rsErrs }) := by
  refine execOn_of_ok ((if_pos ((rsChienOk_iff_chienLegal s).mpr h)).trans ?_)
  rw [chienRoots_rsLambda, heq]
  exact (if_neg (not_not.mpr rfl)).trans (by rw [rsErrs, BitVec.ofNat_toNat, BitVec.setWidth_eq])

/-- Settles O37: the Chien search evaluates Λ at the inverse locators, each position fitting a byte. -/
theorem rsChienFindsTheRootsOrRaises : Obligations.RsChienFindsTheRootsOrRaises := by
  unfold Obligations.RsChienFindsTheRootsOrRaises
  refine (onEveryCore_iff _).mpr fun L _ _ P _ s hs hlegal => ⟨execOn_rsChien_of_ne hlegal, fun heq =>
    ⟨_, execOn_rsChien_of_eq hlegal heq, rfl, fun k (hk : k < (errorPositions s).length) => ?_,
      fun k (hk : (errorPositions s).length ≤ k) => ?_⟩⟩
  · obtain ⟨-, -, -, hpos⟩ := rsArrays_wf hs
    have hlen : (errorPositions s).length ≤ 255 :=
      (List.length_filter_le _ _).trans ((List.length_range).trans_le hlegal.1.1)
    have hget := cellGet_cellSetFrom_zero (vs := (errorPositions s).map (BitVec.ofNat 8)) 0#8 (by simpa using hk)
      (fun m hm => validSymbol_of_lt hlen (by simpa using hm)) hpos
    refine (congrArg BitVec.toNat hget).trans ?_
    have hp : (errorPositions s).getD k 0 < 2 ^ 8 := by
      rw [List.getD_eq_getElem _ _ hk]
      exact (errorPositions_lt (List.getElem_mem hk)).trans (Nat.lt_succ_of_le hlegal.1.1)
    rw [List.getD_map, BitVec.toNat_ofNat, Nat.mod_eq_of_lt hp]
    rfl
  · exact cellGet_cellSetFrom_of_outside _ _ _ _ (.inr (by simpa using hk))

end Sys2Proof.Machine

/-! ### A single error through Berlekamp–Massey, Chien and Forney (R241, R265, R268) -/

namespace Sys2Proof.Machine

theorem gfmul_left_cancel {a b c : Byte} (ha : a ≠ 0#8) (h : gfmul a b = gfmul a c) : b = c := by
  have h' := congrArg (gfmul (gfinv a)) h
  rwa [← gfmul_assoc, ← gfmul_assoc, gfmul_comm (gfinv a), gfmul_gfinv ha, one_gfmul, one_gfmul] at h'

theorem recurrenceSum_one (syn : List Byte) (k : Nat) : recurrenceSum syn [1#8] k = syn.getD k 0#8 :=
  BitVec.zero_xor.trans (one_gfmul _)

theorem recurrenceSum_pair (syn : List Byte) (a b : Byte) (k : Nat) :
    recurrenceSum syn [a, b] (k + 1) = gfmul a (syn.getD (k + 1) 0#8) ^^^ gfmul b (syn.getD k 0#8) := by
  simp [recurrenceSum, Spec.xorSum_succ]

theorem getD_zero_polyMul (p : List Byte) (a b : Byte) :
    (polyMul p [a, b]).getD 0 0#8 = gfmul (p.getD 0 0#8) a := by
  cases p with
  | nil => exact (zero_gfmul a).symm
  | cons c p =>
    rw [polyMul, getD_polyXor, getD_polyScale, List.getD_cons_zero, List.getD_cons_zero, BitVec.xor_zero]
    rfl

theorem getD_succ_polyMul (p : List Byte) (a b : Byte) (k : Nat) :
    (polyMul p [a, b]).getD (k + 1) 0#8 = gfmul (p.getD (k + 1) 0#8) a ^^^ gfmul (p.getD k 0#8) b := by
  induction p generalizing k with
  | nil => simp [polyMul]
  | cons c p ih =>
    rw [polyMul, getD_polyXor, getD_polyScale, List.getD_cons_succ, List.getD_cons_succ]
    cases k with
    | zero => rw [getD_zero_polyMul, BitVec.xor_comm]; rfl
    | succ k => rw [ih]; simp

theorem getD_forneyOmega (syn lam : List Byte) {nsym k : Nat} (hk : k < nsym) :
    (forneyOmega syn lam nsym).getD k 0#8 = (polyMul syn lam).getD k 0#8 := by
  simp [forneyOmega, hk]

section SingleError

/-! The syndromes of an error e at the locator X = α^x. -/

variable {syn : List Byte} {n x : Nat} {e : Byte}

variable (he : e ≠ 0#8) (hsyn : ∀ i, i < n → syn.getD i 0#8 = gfmul e (gfExp (i * x)))

include hsyn

/-- Each syndrome is X times the one before. -/
theorem syndrome_succ {k : Nat} (hk : k + 1 < n) : syn.getD (k + 1) 0#8 = gfmul (syn.getD k 0#8) (gfExp x) := by
  rw [hsyn _ hk, hsyn k (by omega), gfmul_assoc, gfmul_gfExp_gfExp, Nat.succ_mul]

include he

/-- After two iterations the locator is 1 ⊕ X·x: its length is 2, and the recurrence at the second syndrome leaves
one choice for its coefficient. -/
theorem bmLoop_two_of_single (hn : 2 ≤ n) : (bmLoop syn 2).lam = [1#8, gfExp x] := by
  have hS0 : syn.getD 0 0#8 = e := by rw [hsyn 0 (by omega), Nat.zero_mul, gfExp_zero, gfmul_one]
  have hlen1 : (bmLoop syn 1).lam.length = 2 := by
    have hd : recurrenceSum syn (bmLoop syn 0).lam 0 ≠ 0#8 := by
      rwa [show (bmLoop syn 0).lam = [1#8] from rfl, recurrenceSum_one, hS0]
    exact length_bmLoop_lam_of_ne_zero syn hd
  have hlen2 : (bmLoop syn 2).lam.length = 2 := by
    by_cases hd : recurrenceSum syn (bmLoop syn 1).lam 1 = 0#8
    · rw [bmLoop_lam_of_eq_zero syn hd, hlen1]
    · rw [length_bmLoop_lam_of_ne_zero syn hd, hlen1]; rfl
  obtain ⟨-, -, hhead, hsum, -⟩ := bmLoop_invariant syn 2
  obtain ⟨a, c, hlam⟩ := List.length_eq_two.mp hlen2
  rw [hlam] at hhead hsum ⊢
  obtain rfl : a = 1#8 := hhead
  have hk := hsum 1 le_rfl one_lt_two
  rw [recurrenceSum_pair, one_gfmul, syndrome_succ hsyn (by omega), hS0, BitVec.xor_eq_zero_iff, gfmul_comm c] at hk
  rw [gfmul_left_cancel he hk]

/-- And no later iteration changes it. -/
theorem bmLoop_of_single {m : Nat} (hm : 2 ≤ m) (hmn : m ≤ n) : (bmLoop syn m).lam = [1#8, gfExp x] := by
  induction m, hm using Nat.le_induction with
  | base => exact bmLoop_two_of_single he hsyn hmn
  | succ m hm ih =>
    obtain ⟨k, rfl⟩ := Nat.exists_eq_add_one_of_ne_zero (n := m) (by omega)
    rw [bmLoop_lam_of_eq_zero, ih (by omega)]
    rw [ih (by omega), recurrenceSum_pair, one_gfmul, syndrome_succ hsyn (by omega), gfmul_comm (gfExp x),
      BitVec.xor_self]

omit he in
/-- The error evaluator is the constant e. -/
theorem chienValue_forneyOmega (hn : 0 < n) (y : Byte) :
    chienValue (forneyOmega syn [1#8, gfExp x] n) y = e := by
  rw [chienValue_eq_getD_zero, getD_forneyOmega _ _ hn, getD_zero_polyMul, hsyn 0 hn, Nat.zero_mul, gfExp_zero,
    gfmul_one, gfmul_one]
  intro k
  by_cases hk : k + 1 < n
  · rw [getD_forneyOmega _ _ hk, getD_succ_polyMul, syndrome_succ hsyn hk, gfmul_one, BitVec.xor_self]
  · exact List.getD_eq_default _ _ (by simpa [forneyOmega] using hk)

end SingleError

theorem polyDegree_pair {a b : Byte} (hb : b ≠ 0#8) : polyDegree [a, b] = 1 := by
  simp [polyDegree, hb]

/-- 1 ⊕ X·x vanishes at the inverse of one locator alone, X's own. -/
theorem chienValue_pair_eq_zero_iff {n p q : Nat} (hn : n ≤ 255) (hp : p < n) (hq : q < n) :
    chienValue [1#8, gfExp (n - 1 - p)] (chienPoint n q) = 0#8 ↔ q = p := by
  rw [chienPoint, gfExp_mod, chienValue_cons, chienValue_cons, chienValue_nil, zero_gfmul, BitVec.zero_xor,
    gfmul_gfExp_gfExp, BitVec.xor_eq_zero_iff, ← gfExp_zero, gfExp_eq_gfExp_iff]
  omega

theorem chienRoots_pair {n p : Nat} (hn : n ≤ 255) (hp : p < n) :
    chienRoots [1#8, gfExp (n - 1 - p)] n = [p] := by
  have hfilter : chienRoots [1#8, gfExp (n - 1 - p)] n = (List.range n).filter (· == p) :=
    List.filter_congr fun q hq => by
      rw [Bool.eq_iff_iff, beq_iff_eq, beq_iff_eq, chienValue_pair_eq_zero_iff hn hp (List.mem_range.mp hq)]
  rw [hfilter, List.filter_beq, List.count_eq_one_of_mem List.nodup_range (List.mem_range.mpr hp)]
  rfl

theorem forneyLocators_singleton {n p : Nat} (hn : n ≤ 255) (hp : p < n) :
    forneyLocators n [p] = [gfExp (n - 1 - p)] := by
  have hexp : (((n : Int) - 1 - p) % 255).toNat = n - 1 - p := by omega
  exact congrArg (fun x => [gfExp x]) hexp

theorem forneyDenominator_singleton (x : Byte) : forneyDenominator [x] 0 = 1#8 := by
  simp [forneyDenominator]

/-- The Forney reference puts a single error right (R265). -/
theorem forney_of_single {r syn : List Byte} {n nsym p : Nat} {e : Byte} (hr : r.length = n) (hn : n ≤ 255)
    (hp : p < n) (hnsym : 0 < nsym) (hsyn : ∀ i, i < nsym → syn.getD i 0#8 = gfmul e (gfExp (i * (n - 1 - p)))) :
    forney r syn [1#8, gfExp (n - 1 - p)] [p] nsym = (r.set p (r.getD p 0#8 ^^^ e), [some e]) := by
  have hmag : forneyMagnitude (forneyOmega syn [1#8, gfExp (n - 1 - p)] nsym) [gfExp (n - 1 - p)] 0 = some e := by
    rw [forneyMagnitude, chienValue_forneyOmega hsyn hnsym, forneyDenominator_singleton]
    simpa using gfdiv_gfmul e (b := 1#8) (by decide)
  simp only [forney, hr, forneyLocators_singleton hn hp, List.length_singleton, List.range_one, List.map_singleton,
    hmag]
  rfl

end Sys2Proof.Machine

/-! ### RUN in the decode sequence (R118, R266) -/

namespace Sys2Proof.Machine

variable {L : Type} [DecidableEq L] [Inhabited L] {P : LlrParam L} {s : State L P}

/-- What RUN of RS.SYND, RS.BM or RS.CHIEN leaves where it succeeds: an idle core, with the sizes and the word as they
were. -/
structure RanFrom (s t : State L P) : Prop where
  idle : t.status.busy = false
  params : t.params = s.params
  k_eq : rsK t = rsK s
  nsym_eq : rsNsym t = rsNsym s
  buf_eq : t.mem.rsBuf = s.mem.rsBuf

namespace RanFrom

variable {t u : State L P}

omit [DecidableEq L] [Inhabited L] in
theorem trans (h : RanFrom s t) (h' : RanFrom t u) : RanFrom s u :=
  ⟨h'.idle, h'.params.trans h.params, h'.k_eq.trans h.k_eq, h'.nsym_eq.trans h.nsym_eq,
    h'.buf_eq.trans h.buf_eq⟩

omit [DecidableEq L] [Inhabited L] in
theorem length_eq (h : RanFrom s t) : rsLength t = rsLength s := by
  rw [rsLength, h.k_eq, h.nsym_eq, rsLength]

omit [DecidableEq L] [Inhabited L] in
theorem wordLegal (h : RanFrom s t) (hs : Spec.wordLegal s) : Spec.wordLegal t :=
  ⟨h.length_eq.trans_le hs.1, h.nsym_eq.trans_le (hs.2.trans_eq (congrArg Params.nsymMax h.params.symm))⟩

end RanFrom

/-- The Host has just read STATUS, as at the end of RUN. -/
def State.withStatusRead (s : State L P) : State L P := { s with rdata := some (.word (statusWord s.status)) }

omit [DecidableEq L] [Inhabited L] in
theorem runResult_withStatusRead (s : State L P) : runResult s.withStatusRead = s.status.err.code := by
  obtain ⟨-, -, -, -, herr, -⟩ := statusWord_fields s.status
  exact herr

theorem run_eq_withStatusRead {i : Instr} {u : State L P} (hb : s.status.busy = false)
    (h : execOn i (launch (encode i) s) = .next u) (polls : Nat) : run i polls s = u.withStatusRead :=
  run_idle i polls s hb (decode_encode i) h

/-- The read of RS_SSTAT on an idle core answers SYNZ at bit 0 and changes nothing else. -/
theorem perform_rd_rsSstat (hb : s.status.busy = false) :
    perform (rd .rsSstat) s = { s with rdata := some (.word (flagBit s.rsSynz 0)) } :=
  (perform_host _ s).trans (regRead_current (.inl hb))

/-- RS.SYND and the read of SYNZ: the syndromes stand in RS_SYN, and SYNZ tells whether all are 0. -/
theorem run_rsSynd (hs : s.inv = true) (hb : s.status.busy = false) (h : Spec.wordLegal s) (polls : Nat) :
    let t := perform (rd .rsSstat) (run .rsSynd polls s)
    let syn := (List.range (rsNsym s)).map (Spec.wordAt (Spec.buf s) (rsLength s))
    RanFrom s t ∧ (answer t).getLsbD 0 = (syn.all fun y => y == 0#8) ∧ cellList t.mem.rsSyn 0 (rsNsym s) = syn ∧
      t.mem.rsLambda = s.mem.rsLambda ∧ t.mem.rsPos = s.mem.rsPos := by
  obtain ⟨-, hsyn, -⟩ := rsArrays_wf hs
  dsimp only
  rw [run_eq_withStatusRead hb (execOn_rsSynd (s := launch _ s) h), perform_rd_rsSstat rfl]
  exact ⟨⟨rfl, rfl, rfl, rfl, rfl⟩, (getElem_flagBit _ 0 (by decide)).trans (Bool.and_true _),
    cellList_cellSetFrom (by simp; rfl) (fun k hk => decide_eq_true (hk.trans_le h.2)) hsyn, rfl, rfl⟩

/-- RS_LAMBDA[0..errs] after RS.BM. -/
theorem cellList_bmOutput {p : Params} {c : Cells Byte} (lam : List Byte) {errs nsym : Nat} (herrs : errs ≤ nsym)
    (hnsym : nsym ≤ p.nsymMax) (hc : cellsWf (validLambda p) c = true) :
    cellList (cellSetFrom c 0 (bmOutput lam errs nsym)) 0 (errs + 1) =
      (List.range (errs + 1)).map fun j => lam.getD j 0#8 := by
  rw [cellList_zero]
  refine List.map_congr_left fun j hj => ?_
  have hj' : j ≤ errs := Nat.le_of_lt_succ (List.mem_range.mp hj)
  rw [bmOutput, cellGet_cellSetFrom_map_range _ (by omega)
    (fun k hk => decide_eq_true ((Nat.le_of_lt_succ hk).trans hnsym)) hc, if_pos hj']

/-- RS.BM on the syndromes of a single error e at the locator α^x. -/
theorem run_rsBm_of_single {e : Byte} {x : Nat} (hlam : cellsWf (validLambda s.params) s.mem.rsLambda = true)
    (hb : s.status.busy = false) (h : Spec.wordLegal s) (hnsym : 2 ≤ rsNsym s) (he : e ≠ 0#8)
    (hsyn : ∀ i, i < rsNsym s → (cellList s.mem.rsSyn 0 (rsNsym s)).getD i 0#8 = gfmul e (gfExp (i * x)))
    (polls : Nat) :
    let t := run .rsBm polls s
    RanFrom s t ∧ runResult t = ErrCode.ok.code ∧ rsErrs t = 1 ∧
      cellList t.mem.rsLambda 0 2 = [1#8, gfExp x] ∧ t.mem.rsSyn = s.mem.rsSyn ∧ t.mem.rsPos = s.mem.rsPos := by
  have hloc : bmLocator s = [1#8, gfExp x] := bmLoop_of_single he hsyn hnsym le_rfl
  have hdeg : polyDegree (bmLocator s) = 1 := by rw [hloc, polyDegree_pair (gfExp_ne_zero x)]
  have hexec := execOn_rsBm_of_le (s := launch (encode .rsBm) s) h.2 ((Nat.mul_le_mul_left 2 hdeg.le).trans hnsym)
  rw [show bmLocator (launch (encode .rsBm) s) = [1#8, gfExp x] from hloc, polyDegree_pair (gfExp_ne_zero x)] at hexec
  dsimp only
  rw [run_eq_withStatusRead hb hexec, runResult_withStatusRead]
  exact ⟨⟨rfl, rfl, rfl, rfl, rfl⟩, rfl, rfl, cellList_bmOutput _ (one_le_two.trans hnsym) h.2 hlam, rfl, rfl⟩

/-- RS.CHIEN on the locator of a single error at position p. -/
theorem run_rsChien_of_single {p : Nat} (hposWf : cellsWf validSymbol s.mem.rsPos = true)
    (hb : s.status.busy = false) (h : Spec.wordLegal s) (hnsym : 1 ≤ rsNsym s) (hp : p < rsLength s)
    (herrs : rsErrs s = 1) (hlam : cellList s.mem.rsLambda 0 2 = [1#8, gfExp (rsLength s - 1 - p)]) (polls : Nat) :
    let t := run .rsChien polls s
    RanFrom s t ∧ runResult t = ErrCode.ok.code ∧ rsErrs t = 1 ∧
      (cellList t.mem.rsPos 0 t.rsNpos.toNat).map BitVec.toNat = [p] ∧
      t.mem.rsSyn = s.mem.rsSyn ∧ t.mem.rsLambda = s.mem.rsLambda := by
  have hpos : errorPositions s = [p] := by
    rw [← chienRoots_rsLambda, herrs, hlam]
    exact chienRoots_pair h.1 hp
  have hexec := execOn_rsChien_of_eq (s := launch (encode .rsChien) s)
    ⟨h, (herrs.trans_le hnsym).trans h.2⟩ ((congrArg List.length hpos).trans herrs.symm)
  rw [show errorPositions (launch (encode .rsChien) s) = [p] from hpos] at hexec
  have hp8 : p < 2 ^ 8 := hp.trans (Nat.lt_succ_of_le h.1)
  have hlist : cellList (cellSetFrom s.mem.rsPos 0 [BitVec.ofNat 8 p]) 0 s.rsErrs.toNat = [BitVec.ofNat 8 p] :=
    cellList_cellSetFrom herrs.symm (fun k hk => validSymbol_of_lt (Nat.le_of_lt_succ s.rsErrs.isLt) hk) hposWf
  dsimp only
  rw [run_eq_withStatusRead hb hexec, runResult_withStatusRead]
  refine ⟨⟨rfl, rfl, rfl, rfl, rfl⟩, rfl, herrs, (congrArg (List.map BitVec.toNat) hlist).trans ?_, rfl, rfl⟩
  rw [List.map_singleton, BitVec.toNat_ofNat, Nat.mod_eq_of_lt hp8]

/-! #### The sequence (R266) -/

/-- The message left in the word when position p is put right. -/
theorem take_set_word (r : Nat → Byte) {k n p : Nat} (hkn : k ≤ n) (hp : p < n) (e : Byte) :
    (((List.range n).map r).set p (((List.range n).map r).getD p 0#8 ^^^ e)).take k =
      (List.range k).map fun q => if q = p then r q ^^^ e else r q := by
  refine List.ext_getElem (by simpa using hkn) fun q hq _ => ?_
  by_cases h : q = p
  · subst h
    simp [hp]
  · simp [h, List.getElem_set_ne (Ne.symm h)]

theorem rsDecode_of_synz {polls₁ polls₂ polls₃ : Nat}
    (h : (answer (perform (rd .rsSstat) (run .rsSynd polls₁ s))).getLsbD 0 = true) :
    (rsDecode polls₁ polls₂ polls₃ s).2 =
      let t := perform (rd .rsSstat) (run .rsSynd polls₁ s)
      .validNoErrors (cellList t.mem.rsBuf 0 (rsK t)) := by
  simp only [rsDecode, if_pos h]

/-- The sequence when no command of it raises a code and an error shows: its result is the Forney reference's, of the
values the registers hold at the end. -/
theorem rsDecode_of_found {polls₁ polls₂ polls₃ : Nat} {t u v : State L P}
    (ht : perform (rd .rsSstat) (run .rsSynd polls₁ s) = t) (hu : run .rsBm polls₂ t = u)
    (hv : run .rsChien polls₃ u = v) (hz : (answer t).getLsbD 0 = false) (hru : runResult u = ErrCode.ok.code)
    (hrv : runResult v = ErrCode.ok.code) :
    (rsDecode polls₁ polls₂ polls₃ s).2 =
      let pos := (cellList v.mem.rsPos 0 v.rsNpos.toNat).map BitVec.toNat
      let f := forney (cellList v.mem.rsBuf 0 (rsLength v)) (cellList v.mem.rsSyn 0 (rsNsym v))
        (cellList v.mem.rsLambda 0 (rsErrs v + 1)) pos (rsNsym v)
      .corrected pos f.2 (f.1.take (rsK v)) := by
  have hne : ErrCode.ok.code ≠ ErrCode.tooManyErrors.code := by decide
  have hne' : ErrCode.ok.code ≠ ErrCode.locatorMismatch.code := by decide
  simp only [rsDecode, ht, hu, hv, hz, hru, hrv, if_neg hne, if_neg hne', Bool.false_eq_true, if_false]

/-- A word whose syndromes are those of one error e at position p, through all three commands and Forney. -/
theorem rsDecode_of_single {p : Nat} {e : Byte} (polls₁ polls₂ polls₃ : Nat) (hs : s.inv = true)
    (hb : s.status.busy = false) (hlegal : Spec.wordLegal s) (hnsym : 2 ≤ rsNsym s) (hp : p < rsLength s)
    (he : e ≠ 0#8) (hword : ∀ i, i < rsNsym s →
      Spec.wordAt (Spec.buf s) (rsLength s) i = gfmul e (gfExp (i * (rsLength s - 1 - p)))) :
    (rsDecode polls₁ polls₂ polls₃ s).2 = .corrected [p] [some e]
      ((List.range (rsK s)).map fun q => if q = p then Spec.buf s q ^^^ e else Spec.buf s q) := by
  obtain ⟨-, -, hlamWf, hposWf⟩ := rsArrays_wf hs
  have hsyn (i : Nat) (hi : i < rsNsym s) :
      ((List.range (rsNsym s)).map (Spec.wordAt (Spec.buf s) (rsLength s))).getD i 0#8 =
        gfmul e (gfExp (i * (rsLength s - 1 - p))) := by
    rw [← hword i hi]
    simp [hi]
  obtain ⟨ht, hz, htsyn, htlam, htpos⟩ := run_rsSynd hs hb hlegal polls₁
  generalize hteq : perform (rd .rsSstat) (run .rsSynd polls₁ s) = t at ht hz htsyn htlam htpos
  have hfound : (answer t).getLsbD 0 = false := by
    rw [hz, Bool.eq_false_iff, Ne, syndromes_all_zero_iff]
    intro h
    have hS0 := hword 0 (by omega)
    rw [h 0 (by omega), Nat.zero_mul, gfExp_zero, gfmul_one] at hS0
    exact he hS0.symm
  obtain ⟨hu, hru, huerrs, hulam, husyn, hupos⟩ := run_rsBm_of_single (s := t) (x := rsLength s - 1 - p)
    (by rwa [ht.params, htlam]) ht.idle (ht.wordLegal hlegal) (hnsym.trans_eq ht.nsym_eq.symm) he
    (by rwa [ht.nsym_eq, htsyn]) polls₂
  generalize hueq : run .rsBm polls₂ t = u at hu hru huerrs hulam husyn hupos
  have hsu := ht.trans hu
  obtain ⟨hv, hrv, hverrs, hvpos, hvsyn, hvlam⟩ := run_rsChien_of_single (s := u) (p := p)
    (by rwa [hupos, htpos]) hu.idle (hsu.wordLegal hlegal) (by rw [hsu.nsym_eq]; omega)
    (hp.trans_eq hsu.length_eq.symm) huerrs (by rw [hulam, hsu.length_eq]) polls₃
  generalize hveq : run .rsChien polls₃ u = v at hv hrv hverrs hvpos hvsyn hvlam
  have hsv := hsu.trans hv
  have hforney := forney_of_single (r := (List.range (rsLength s)).map (Spec.buf s)) (n := rsLength s) (by simp)
    hlegal.1 hp (zero_lt_two.trans_le hnsym) hsyn
  rw [rsDecode_of_found hteq hueq hveq hfound hru hrv]
  dsimp only
  rw [hvpos, hverrs, hvlam, hulam, hvsyn, husyn, hsv.buf_eq, hsv.length_eq, hsv.nsym_eq, hsv.k_eq, htsyn,
    cellList_rsBuf, hforney, take_set_word _ (n := rsLength s) (Nat.le_add_right _ _) hp]

/-- Settles O38: a codeword's syndromes are all 0, and adding e at position p makes them those of that single error. -/
theorem rsDecodeCorrectsUpToOneError : Obligations.RsDecodeCorrectsUpToOneError := by
  unfold Obligations.RsDecodeCorrectsUpToOneError
  intro L _ _ P s p e polls₁ polls₂ polls₃ hs hb hlegal
  refine ⟨fun hcode => ?_, fun hnsym hp he hcode => ?_⟩
  · obtain ⟨ht, hz, -⟩ := run_rsSynd hs hb hlegal polls₁
    rw [rsDecode_of_synz (hz.trans ((syndromes_all_zero_iff _ _ _).mpr hcode))]
    dsimp only
    rw [ht.buf_eq, ht.k_eq]
    exact congrArg RsResult.validNoErrors (cellList_rsBuf s _)
  · refine rsDecode_of_single polls₁ polls₂ polls₃ hs hb hlegal hnsym hp he fun i hi => ?_
    have h := hcode i hi
    rwa [wordAt_ite _ hp, BitVec.xor_eq_zero_iff] at h

end Sys2Proof.Machine

/-! ### The LDPC loop (R288, R289) -/

namespace Sys2Proof.Machine

section Loop

variable {L : Type} (A : LlrArith L) (c : LdpcConfig L)

theorem ldpcMore_of_conv {r : LdpcIteration L} (h : r.conv = true) (n : Nat) : ldpcMore A c n r = r := by
  cases n with
  | zero => rfl
  | succ n => rw [ldpcMore, if_pos h]

theorem ldpcMore_succ_of_not_conv {r : LdpcIteration L} (h : r.conv = false) (n : Nat) :
    ldpcMore A c (n + 1) r = ldpcMore A c n (ldpcIterate A c r.v2c r.iters) := by
  rw [ldpcMore, h, if_neg Bool.false_ne_true]

/-- Iterations with a cap m + n are iterations with a cap m, then with a cap n. -/
theorem ldpcMore_add (m n : Nat) (r : LdpcIteration L) :
    ldpcMore A c (m + n) r = ldpcMore A c n (ldpcMore A c m r) := by
  induction m generalizing r with
  | zero => rw [Nat.zero_add, ldpcMore]
  | succ m ih =>
    cases h : r.conv
    · rw [Nat.succ_add, ldpcMore_succ_of_not_conv A c h, ih, ldpcMore_succ_of_not_conv A c h]
    · simp only [ldpcMore_of_conv A c h]

theorem ldpcRun_of_le {a b : Nat} (ha : 1 ≤ a) (hab : a ≤ b) (v2c : List (List L)) (iters : Word) :
    ldpcRun A c b v2c iters = ldpcMore A c (b - a) (ldpcRun A c a v2c iters) := by
  rw [ldpcRun, ldpcRun, ← ldpcMore_add]
  congr 1
  omega

/-- A run that converged is what every larger cap leaves (R289). -/
theorem ldpcRun_of_conv {a b : Nat} (ha : 1 ≤ a) (hab : a ≤ b) {v2c : List (List L)} {iters : Word}
    (h : (ldpcRun A c a v2c iters).conv = true) : ldpcRun A c b v2c iters = ldpcRun A c a v2c iters := by
  rw [ldpcRun_of_le A c ha hab, ldpcMore_of_conv A c h]

/-- A run that did not converge goes on from its own messages and count (R292). -/
theorem ldpcRun_add {a b : Nat} (ha : 1 ≤ a) (hb : 1 ≤ b) {v2c : List (List L)} {iters : Word}
    (h : (ldpcRun A c a v2c iters).conv = false) :
    ldpcRun A c (a + b) v2c iters =
      ldpcRun A c b (ldpcRun A c a v2c iters).v2c (ldpcRun A c a v2c iters).iters := by
  obtain ⟨k, rfl⟩ := Nat.exists_eq_add_of_le' hb
  rw [ldpcRun_of_le A c ha (Nat.le_add_right a _), Nat.add_sub_cancel_left, ldpcMore_succ_of_not_conv A c h]
  rfl

/-- What the first iteration has and each further one keeps, the run's last one has. -/
theorem ldpcRun_induction {p : LdpcIteration L → Prop} {v2c : List (List L)} {iters : Word} (maxit : Nat)
    (hfirst : p (ldpcIterate A c v2c iters)) (hnext : ∀ r, p r → p (ldpcIterate A c r.v2c r.iters)) :
    p (ldpcRun A c maxit v2c iters) := by
  suffices h : ∀ n r, p r → p (ldpcMore A c n r) from h _ _ hfirst
  intro n
  induction n with
  | zero => exact fun r hr => hr
  | succ n ih =>
    intro r hr
    cases h : r.conv
    · rw [ldpcMore_succ_of_not_conv A c h]
      exact ih _ (hnext r hr)
    · rwa [ldpcMore_of_conv A c h]

/-- The last iteration of a run is an iteration from messages of the code's shape. -/
theorem ldpcRun_eq_iterate {m n : Nat} (hh : IsMatrix m n c.h) (hrx : c.rx.length = n) (maxit : Nat)
    {v2c : List (List L)} (hv : IsMatrix m n v2c) (iters : Word) :
    ∃ v count, IsMatrix m n v ∧ ldpcRun A c maxit v2c iters = ldpcIterate A c v count := by
  refine ldpcRun_induction A c (p := fun r => ∃ v count, IsMatrix m n v ∧ r = ldpcIterate A c v count) maxit
    ⟨v2c, iters, hv, rfl⟩ ?_
  rintro _ ⟨v, count, hv, rfl⟩
  exact ⟨_, _, (ldpcIterate_shaped A c v count hh hrx hv).v2c, rfl⟩

theorem ldpcMore_iters (n : Nat) (r : LdpcIteration L) :
    ∃ k ≤ n, (ldpcMore A c n r).iters = r.iters + BitVec.ofNat 32 k ∧
      ((ldpcMore A c n r).conv = false → k = n) := by
  induction n generalizing r with
  | zero => exact ⟨0, le_rfl, (BitVec.add_zero _).symm, fun _ => rfl⟩
  | succ n ih =>
    cases h : r.conv
    · obtain ⟨k, hk, hiters, hall⟩ := ih (ldpcIterate A c r.v2c r.iters)
      rw [ldpcMore_succ_of_not_conv A c h]
      refine ⟨k + 1, Nat.succ_le_succ hk, ?_, fun hc => congrArg (· + 1) (hall hc)⟩
      rw [hiters, Nat.add_comm k, BitVec.ofNat_add, ← BitVec.add_assoc]
      rfl
    · rw [ldpcMore_of_conv A c h]
      exact ⟨0, Nat.zero_le _, (BitVec.add_zero _).symm, fun hc => absurd h (hc ▸ Bool.false_ne_true)⟩

/-- A run counts its iterations: at least one, at most the cap, the cap itself without convergence (R288, R289). -/
theorem ldpcRun_iters {maxit : Nat} (hmaxit : 1 ≤ maxit) (v2c : List (List L)) (iters : Word) :
    ∃ k, 1 ≤ k ∧ k ≤ maxit ∧ (ldpcRun A c maxit v2c iters).iters = iters + BitVec.ofNat 32 k ∧
      ((ldpcRun A c maxit v2c iters).conv = false → k = maxit) := by
  obtain ⟨k, hk, hiters, hall⟩ := ldpcMore_iters A c (maxit - 1) (ldpcIterate A c v2c iters)
  refine ⟨k + 1, by omega, by omega, ?_, fun hc => ?_⟩
  · rw [ldpcRun, hiters, Nat.add_comm k, BitVec.ofNat_add, ← BitVec.add_assoc]
    rfl
  · have := hall hc
    omega

end Loop

/-! #### The two commands -/

variable {L : Type} [DecidableEq L] [Inhabited L] {P : LlrParam L}

/-- The messages LDPC.BP or LDPC.BP.C starts from (R283, R292). -/
def ldpcStart (i : Instr) (s : State L P) : List (List L) :=
  if i = .ldpcBp then startMessages P.arith (ldpcConfig s) else storedMessages s

/-- The count it starts from (R289, R292). -/
def ldpcStartCount (i : Instr) (s : State L P) : Word := if i = .ldpcBp then 0#32 else s.ldpcIters

/-- The last iteration of LDPC.BP or LDPC.BP.C from `s`. -/
def ldpcDecode (i : Instr) (s : State L P) : LdpcIteration L :=
  ldpcRun P.arith (ldpcConfig s) s.ldpcMaxit.toNat (ldpcStart i s) (ldpcStartCount i s)

omit [DecidableEq L] in
theorem ldpcStart_isMatrix (i : Instr) (s : State L P) : IsMatrix (ldpcRows s) (ldpcCols s) (ldpcStart i s) := by
  unfold ldpcStart
  split
  · exact startMessages_isMatrix s _
  · exact storedMessages_isMatrix s

omit [DecidableEq L] in
theorem ldpcDecode_shaped (i : Instr) (s : State L P) : (ldpcDecode i s).Shaped (ldpcRows s) (ldpcCols s) :=
  ldpcRun_shaped _ _ _ _ _ (ldpcConfig_h_isMatrix s) (length_ldpcConfig_rx s) (ldpcStart_isMatrix i s)

omit [DecidableEq L] in
theorem ldpcDecode_eq_iterate (i : Instr) (s : State L P) :
    ∃ v count, IsMatrix (ldpcRows s) (ldpcCols s) v ∧
      ldpcDecode i s = ldpcIterate P.arith (ldpcConfig s) v count :=
  ldpcRun_eq_iterate _ _ (ldpcConfig_h_isMatrix s) (length_ldpcConfig_rx s) _ (ldpcStart_isMatrix i s) _

theorem execOn_ldpc {i : Instr} (hi : i = .ldpcBp ∨ i = .ldpcBpC) {s : State L P} (h : Spec.ldpcLegal s) :
    execOn i s = .next (complete .ok (ldpcWrite s (ldpcDecode i s))) := by
  have hok := (ldpcOk_iff_ldpcLegal s).mpr h
  rcases hi with rfl | rfl <;> exact execOn_of_ok (if_pos hok)

theorem execOn_ldpc_of_not_legal {i : Instr} (hi : i = .ldpcBp ∨ i = .ldpcBpC) {s : State L P}
    (h : ¬ Spec.ldpcLegal s) : execOn i s = .next (complete .input s) := by
  have hok := mt (ldpcOk_iff_ldpcLegal s).mp h
  rcases hi with rfl | rfl <;> exact execOn_of_error (if_neg hok)

/-- Settles O39: the rule's check is `Spec.ldpcLegal`, for both commands. -/
theorem ldpcInputChecks : Obligations.LdpcInputChecks := by
  unfold Obligations.LdpcInputChecks
  exact (onEveryCore_iff _).mpr fun L _ _ P _ s i hi =>
    ⟨fun h => execOn_ldpc_of_not_legal hi h, fun h => ⟨_, execOn_ldpc hi h, rfl⟩⟩

/-- Settles O41, from the count of a run. -/
theorem ldpcCountsItsIterations : Obligations.LdpcCountsItsIterations := by
  unfold Obligations.LdpcCountsItsIterations
  refine (onEveryCore_iff _).mpr fun L _ _ P _ s i hi hlegal => ?_
  obtain ⟨-, -, -, -, hmaxit, -⟩ := id hlegal
  obtain ⟨k, hk, hkmax, hiters, hall⟩ :=
    ldpcRun_iters P.arith (ldpcConfig s) hmaxit (ldpcStart i s) (ldpcStartCount i s)
  exact ⟨_, k, execOn_ldpc hi hlegal, rfl, hk, hkmax, hall, hiters⟩

end Sys2Proof.Machine

/-! ### The arrays an LDPC decode writes (R290) -/

namespace Sys2Proof.Machine

/-- An M×N code fits a core, whose message arrays have 256 rows of 256 elements at most. -/
structure LdpcFits (p : Params) (m n : Nat) : Prop where
  rows_le : m ≤ p.ldpcMMax
  cols_le : n ≤ p.ldpcNMax
  rowsMax_le : p.ldpcMMax ≤ 256
  colsMax_le : p.ldpcNMax ≤ 256

theorem IsMatrix.length_getD {α : Type} {m n : Nat} {x : List (List α)} (hx : IsMatrix m n x) {r : Nat} (hr : r < m) :
    (x.getD r []).length = n := by
  obtain ⟨hlen, hrow⟩ := hx
  rw [List.getD_eq_getElem _ _ (hlen ▸ hr)]
  exact hrow _ (List.getElem_mem _)

section MessageArrays

variable {L : Type} [DecidableEq L] [Inhabited L]

/-- Rows no longer than 256 leave alone the elements of other rows and of later columns. -/
theorem cellGet_setRows_of_outside {n : Nat} (hn : n ≤ 256) (rows : List (List L))
    (hlen : ∀ row ∈ rows, row.length = n) (i : Nat) (c : Cells L) {k : Nat}
    (hk : k / 256 < i ∨ i + rows.length ≤ k / 256 ∨ n ≤ k % 256) :
    cellGet (setRows c i rows) k = cellGet c k := by
  induction rows generalizing c i with
  | nil => rfl
  | cons row rows ih =>
    obtain ⟨hrow, hrows⟩ := List.forall_mem_cons.mp hlen
    rw [List.length_cons] at hk
    rw [setRows, ih hrows _ _ (by omega), cellGet_cellSetFrom_of_outside _ _ _ _ (by omega)]

variable {p : Params} {m n : Nat} (hfit : LdpcFits p m n) {rows : List (List L)} (hrows : IsMatrix m n rows)
  {c : Cells L}

include hfit hrows

theorem setRows_wf_of_isMatrix (hc : cellsWf (validMessage p) c = true) :
    cellsWf (validMessage p) (setRows c 0 rows) = true :=
  setRows_validMessage_wf hfit.colsMax_le rows 0 (by rw [Nat.zero_add, hrows.1]; exact hfit.rows_le) hrows.2
    hfit.cols_le c hc

theorem cellGet_setRows_of_lt_of_lt (hc : cellsWf (validMessage p) c = true) {r j : Nat} (hr : r < m) (hj : j < n)
    (d : L) : cellGet (setRows c 0 rows) (256 * r + j) = (rows.getD r []).getD j d := by
  obtain ⟨hlen, hrow⟩ := hrows
  have h := cellGet_setRows hfit.colsMax_le hfit.cols_le rows 0 (by rw [Nat.zero_add, hlen]; exact hfit.rows_le)
    hrow c hc (hlen ▸ hr) hj d
  rwa [Nat.zero_add] at h

theorem cellGet_setRows_of_le {k : Nat} (hk : m ≤ k / 256 ∨ n ≤ k % 256) :
    cellGet (setRows c 0 rows) k = cellGet c k := by
  refine cellGet_setRows_of_outside (hfit.cols_le.trans hfit.colsMax_le) rows hrows.2 0 c (.inr ?_)
  rwa [Nat.zero_add, hrows.1]

/-- Canonical message arrays that agree outside the matrix written are the same after it. -/
theorem setRows_congr {c' : Cells L} (hc : cellsWf (validMessage p) c = true)
    (hc' : cellsWf (validMessage p) c' = true)
    (h : ∀ k, m ≤ k / 256 ∨ n ≤ k % 256 → cellGet c k = cellGet c' k) : setRows c 0 rows = setRows c' 0 rows := by
  refine cells_ext _ _ _ (setRows_wf_of_isMatrix hfit hrows hc) (setRows_wf_of_isMatrix hfit hrows hc') fun k => ?_
  by_cases hk : m ≤ k / 256 ∨ n ≤ k % 256
  · rw [cellGet_setRows_of_le hfit hrows hk, cellGet_setRows_of_le hfit hrows hk, h k hk]
  · obtain ⟨hr, hj⟩ := not_or.mp hk
    have hread := fun {c : Cells L} (hc : cellsWf (validMessage p) c = true) =>
      cellGet_setRows_of_lt_of_lt hfit hrows hc (not_le.mp hr) (not_le.mp hj) default
    rw [← Nat.div_add_mod k 256, hread hc, hread hc']

/-- A matrix written over one of the same shape replaces it. -/
theorem setRows_setRows {rows' : List (List L)} (hrows' : IsMatrix m n rows')
    (hc : cellsWf (validMessage p) c = true) : setRows (setRows c 0 rows') 0 rows = setRows c 0 rows :=
  setRows_congr hfit hrows (setRows_wf_of_isMatrix hfit hrows' hc) hc fun _ hk =>
    cellGet_setRows_of_le hfit hrows' hk

/-- The matrix written is what its rows read as. -/
theorem cellList_setRows (hc : cellsWf (validMessage p) c = true) {r : Nat} (hr : r < m) :
    cellList (setRows c 0 rows) (256 * r) n = rows.getD r [] := by
  refine List.ext_getElem (by rw [length_cellList, hrows.length_getD hr]) fun j hj hj' => ?_
  rw [length_cellList] at hj
  rw [← List.getD_eq_getElem _ default hj', ← cellGet_setRows_of_lt_of_lt hfit hrows hc hr hj]
  simp [cellList]

end MessageArrays

section Belief

variable {α : Type} [Inhabited α] [DecidableEq α] {valid : Nat → Bool} {c : Cells α}

/-- A list written over one of the same length replaces it. -/
theorem cellSetFrom_cellSetFrom {vs vs' : List α} (hlen : vs'.length = vs.length)
    (hv : ∀ k, k < vs.length → valid k = true) (hc : cellsWf valid c = true) :
    cellSetFrom (cellSetFrom c 0 vs') 0 vs = cellSetFrom c 0 vs := by
  have hv0 : ∀ k, k < vs.length → valid (0 + k) = true := fun k hk => by simpa using hv k hk
  have hc' := cellSetFrom_wf valid c 0 vs' (hlen ▸ hv0) hc
  refine cells_ext valid _ _ (cellSetFrom_wf _ _ _ _ hv0 hc') (cellSetFrom_wf _ _ _ _ hv0 hc) fun k => ?_
  by_cases hk : k < vs.length
  · rw [cellGet_cellSetFrom_zero default hk hv hc', cellGet_cellSetFrom_zero default hk hv hc]
  · simp only [cellGet_cellSetFrom_of_outside _ 0 _ k (.inr (by omega : 0 + vs.length ≤ k)),
      cellGet_cellSetFrom_of_outside c 0 vs' k (.inr (by omega))]

end Belief

/-! #### The state written -/

variable {L : Type} [DecidableEq L] [Inhabited L] {P : LlrParam L} {s : State L P}

/-- The arrays an LDPC decode writes are in canonical form. -/
theorem ldpcArrays_wf (hs : s.inv = true) :
    cellsWf (validBelief s.params) s.mem.ldpcBelief = true ∧ cellsWf (validMessage s.params) s.mem.ldpcC2v = true ∧
      cellsWf (validMessage s.params) s.mem.ldpcV2c = true := by
  obtain ⟨-, hm, -⟩ := (state_inv_iff s).mp hs
  obtain ⟨-, -, -, -, -, -, -, hbelief, -, -, hc2v, hv2c, -⟩ := (memory_wf_iff _ _).mp hm
  exact ⟨hbelief, hc2v, hv2c⟩

theorem ldpcFits_of_legal (hs : s.inv = true) (h : Spec.ldpcLegal s) :
    LdpcFits s.params (ldpcRows s) (ldpcCols s) := by
  obtain ⟨hp, -⟩ := (state_inv_iff s).mp hs
  obtain ⟨-, -, hM, -, hN, -⟩ := (params_legal_iff _).mp hp
  obtain ⟨-, hrows, -, hcols, -⟩ := h
  exact ⟨hrows, hcols, hM, hN⟩

section Written

variable {m n : Nat} (hfit : LdpcFits s.params m n) {it : LdpcIteration L} (hit : it.Shaped m n)

include hfit hit

theorem v2c_ldpcWrite (hs : s.inv = true) {r j : Nat} (hr : r < m) (hj : j < n) (d : L) :
    Spec.v2c (ldpcWrite s it) r j = (it.v2c.getD r []).getD j d := by
  obtain ⟨-, -, hv2c⟩ := ldpcArrays_wf hs
  exact cellGet_setRows_of_lt_of_lt hfit hit.v2c hv2c hr hj d

theorem belief_ldpcWrite (hs : s.inv = true) {j : Nat} (hj : j < n) (d : L) :
    Spec.belief (ldpcWrite s it) j = it.belief.getD j d := by
  obtain ⟨hbelief, -⟩ := ldpcArrays_wf hs
  exact cellGet_cellSetFrom_zero d (hit.belief.symm ▸ hj)
    (fun k hk => decide_eq_true ((hit.belief ▸ hk).trans_le hfit.cols_le)) hbelief

omit hfit in
theorem belief_ldpcWrite_of_le {j : Nat} (hj : n ≤ j) : Spec.belief (ldpcWrite s it) j = Spec.belief s j :=
  cellGet_cellSetFrom_of_outside _ _ _ _ (.inr (by rw [hit.belief]; omega))

/-- The elements beyond M and N stay (R290). -/
theorem messages_ldpcWrite_of_le {r j : Nat} (hj : j < 256) (h : m ≤ r ∨ n ≤ j) :
    Spec.c2v (ldpcWrite s it) r j = Spec.c2v s r j ∧ Spec.v2c (ldpcWrite s it) r j = Spec.v2c s r j := by
  have hk : m ≤ (256 * r + j) / 256 ∨ n ≤ (256 * r + j) % 256 := by omega
  exact ⟨cellGet_setRows_of_le hfit hit.c2v hk, cellGet_setRows_of_le hfit hit.v2c hk⟩

/-- One decode's outputs over another's: the writes of the later one alone. -/
theorem ldpcWrite_ldpcWrite (hs : s.inv = true) {it' : LdpcIteration L} (hit' : it'.Shaped m n) :
    ldpcWrite (ldpcWrite s it') it = ldpcWrite s it := by
  obtain ⟨hbelief, hc2v, hv2c⟩ := ldpcArrays_wf hs
  have hb : cellSetFrom (cellSetFrom s.mem.ldpcBelief 0 it'.belief) 0 it.belief =
      cellSetFrom s.mem.ldpcBelief 0 it.belief :=
    cellSetFrom_cellSetFrom (hit'.belief.trans hit.belief.symm)
      (fun k hk => decide_eq_true ((hit.belief ▸ hk).trans_le hfit.cols_le)) hbelief
  simp only [ldpcWrite, State.withMem, hb, setRows_setRows hfit hit.c2v hit'.c2v hc2v,
    setRows_setRows hfit hit.v2c hit'.v2c hv2c]

end Written

/-! #### The messages stored by a decode -/

theorem maskRow_congr {L : Type} (A : LlrArith L) {row : List Bool} {vals vals' : List L}
    (hlen : vals.length = vals'.length)
    (h : ∀ k, row.getD k false = true → vals.getD k A.zero = vals'.getD k A.zero) :
    maskRow A row vals = maskRow A row vals' := by
  refine List.ext_getElem (by simp [hlen]) fun k hk hk' => ?_
  simp only [length_maskRow, lt_min_iff] at hk hk'
  have hk := h k
  simp_all [maskRow]

theorem maskRow_maskRow {L : Type} (A : LlrArith L) {row : List Bool} {vals : List L}
    (hlen : row.length = vals.length) : maskRow A row (maskRow A row vals) = maskRow A row vals :=
  maskRow_congr A (by simp [hlen]) fun k hk => getD_maskRow_of_edge A hlen k hk

end Sys2Proof.Machine

/-! ### The continued decode (R292) -/

namespace Sys2Proof.Machine

theorem maskRow_varRow {L : Type} (A : LlrArith L) {belief : List L} {row : List Bool} {c2v : List L}
    (hb : belief.length = row.length) (hc : c2v.length = row.length) :
    maskRow A row (varRow A belief row c2v) = varRow A belief row c2v :=
  maskRow_maskRow A (by simp [hb, hc])

section Updates

variable {L : Type} {P : LlrParam L} (s : State L P)

/-- `s` with the cap of R289 set to `a`. -/
def State.withMaxit (s : State L P) (a : BitVec 16) : State L P := { s with ldpcMaxit := a }

@[simp] theorem withMaxit_withMaxit (a b : BitVec 16) : (s.withMaxit a).withMaxit b = s.withMaxit b := rfl

@[simp] theorem ldpcConfig_withMaxit (a : BitVec 16) : ldpcConfig (s.withMaxit a) = ldpcConfig s := rfl

@[simp] theorem ldpcConfig_complete (c : ErrCode) : ldpcConfig (complete c s) = ldpcConfig s := rfl

@[simp] theorem complete_withMaxit (c : ErrCode) (a : BitVec 16) :
    (complete c s).withMaxit a = complete c (s.withMaxit a) := rfl

@[simp] theorem complete_complete (c c' : ErrCode) : complete c (complete c' s) = complete c s := rfl

variable [Inhabited L]

@[simp] theorem storedMessages_withMaxit (a : BitVec 16) : storedMessages (s.withMaxit a) = storedMessages s := rfl

@[simp] theorem storedMessages_complete (c : ErrCode) : storedMessages (complete c s) = storedMessages s := rfl

variable [DecidableEq L] (it : LdpcIteration L)

@[simp] theorem ldpcRows_ldpcWrite : ldpcRows (ldpcWrite s it) = ldpcRows s := rfl

@[simp] theorem ldpcCols_ldpcWrite : ldpcCols (ldpcWrite s it) = ldpcCols s := rfl

@[simp] theorem hArray_ldpcWrite : (ldpcWrite s it).mem.ldpcH = s.mem.ldpcH := rfl

@[simp] theorem rxArray_ldpcWrite : (ldpcWrite s it).mem.ldpcRx = s.mem.ldpcRx := rfl

@[simp] theorem v2cArray_ldpcWrite : (ldpcWrite s it).mem.ldpcV2c = setRows s.mem.ldpcV2c 0 it.v2c := rfl

@[simp] theorem ldpcConfig_ldpcWrite : ldpcConfig (ldpcWrite s it) = ldpcConfig s := by
  simp only [ldpcConfig, ldpcRows_ldpcWrite, ldpcCols_ldpcWrite, hArray_ldpcWrite, rxArray_ldpcWrite]
  rfl

@[simp] theorem ldpcWrite_withMaxit (a : BitVec 16) :
    (ldpcWrite s it).withMaxit a = ldpcWrite (s.withMaxit a) it := rfl

@[simp] theorem ldpcWrite_complete (c : ErrCode) : ldpcWrite (complete c s) it = complete c (ldpcWrite s it) := rfl

/-- R282 looks at nothing a decode writes. -/
@[simp] theorem ldpcLegal_complete_ldpcWrite (c : ErrCode) :
    Spec.ldpcLegal (complete c (ldpcWrite s it)) ↔ Spec.ldpcLegal s := Iff.rfl

end Updates

variable {L : Type} [DecidableEq L] [Inhabited L] {P : LlrParam L} {s : State L P}

/-- LDPC.BP.C finds the messages an iteration left, for they are 0 at the non-edges already. -/
theorem storedMessages_ldpcWrite (hs : s.inv = true) (hfit : LdpcFits s.params (ldpcRows s) (ldpcCols s))
    {v : List (List L)} (hv : IsMatrix (ldpcRows s) (ldpcCols s) v) (count : Word) :
    let it := ldpcIterate P.arith (ldpcConfig s) v count
    storedMessages (ldpcWrite s it) = it.v2c := by
  intro it
  have hh := ldpcConfig_h_isMatrix s
  have hit : it.Shaped _ _ := ldpcIterate_shaped P.arith (ldpcConfig s) v count hh (length_ldpcConfig_rx s) hv
  obtain ⟨-, -, hv2c⟩ := ldpcArrays_wf hs
  rw [storedMessages, ldpcConfig_ldpcWrite, ldpcCols_ldpcWrite, v2cArray_ldpcWrite]
  refine List.ext_getElem (by rw [List.length_mapIdx, hh.1, hit.v2c.1]) fun i hi hi' => ?_
  have hr : i < ldpcRows s := hit.v2c.1 ▸ hi'
  have hi0 : i < (ldpcConfig s).h.length := hh.1.symm ▸ hr
  rw [List.getElem_mapIdx, cellList_setRows hfit hit.v2c hv2c hr, List.getD_eq_getElem _ _ hi']
  have hrow : it.v2c[i] = varRow P.arith it.belief (ldpcConfig s).h[i] (it.c2v[i]'(hit.c2v.1.symm ▸ hr)) :=
    List.getElem_zipWith ..
  rw [hrow, maskRow_varRow] <;> rw [hh.2 _ (List.getElem_mem _)]
  · exact hit.belief
  · exact hit.c2v.2 _ (List.getElem_mem _)

omit [DecidableEq L] [Inhabited L] in
/-- Nothing of R282 but the check of the cap itself looks at the cap. -/
theorem ldpcLegal_withMaxit {a b : BitVec 16} (h : Spec.ldpcLegal (s.withMaxit a)) (hb : 1 ≤ b.toNat) :
    Spec.ldpcLegal (s.withMaxit b) := by
  obtain ⟨hM, hMmax, hN, hNmax, -, hrest⟩ := h
  exact ⟨hM, hMmax, hN, hNmax, hb, hrest⟩

/-- The outputs of a continued decode replace those of the one before it. -/
theorem ldpcWrite_continued (hs : s.inv = true) (hfit : LdpcFits s.params (ldpcRows s) (ldpcCols s))
    {it it' : LdpcIteration L} (hit : it.Shaped (ldpcRows s) (ldpcCols s))
    (hit' : it'.Shaped (ldpcRows s) (ldpcCols s)) (a b c : BitVec 16) :
    (complete .ok (ldpcWrite ((complete .ok (ldpcWrite (s.withMaxit a) it')).withMaxit b) it)).withMaxit c =
      complete .ok (ldpcWrite (s.withMaxit c) it) := by
  simp only [complete_withMaxit, ldpcWrite_withMaxit, withMaxit_withMaxit, ldpcWrite_complete, complete_complete]
  rw [ldpcWrite_ldpcWrite (s := s.withMaxit c) hfit hit hs hit']

omit [DecidableEq L] in
theorem ldpcDecode_withMaxit (i : Instr) (a : BitVec 16) :
    ldpcDecode i (s.withMaxit a) =
      ldpcRun P.arith (ldpcConfig s) a.toNat (ldpcStart i s) (ldpcStartCount i s) := rfl

/-- LDPC.BP.C after a decode runs from what that decode wrote. -/
theorem ldpcDecode_complete_ldpcWrite (c : ErrCode) (it : LdpcIteration L) (b : BitVec 16) :
    ldpcDecode .ldpcBpC ((complete c (ldpcWrite s it)).withMaxit b) =
      ldpcRun P.arith (ldpcConfig s) b.toNat (storedMessages (ldpcWrite s it)) it.iters := by
  rw [ldpcDecode, ldpcStart, if_neg (by decide), storedMessages_withMaxit, storedMessages_complete,
    ldpcConfig_withMaxit, ldpcConfig_complete, ldpcConfig_ldpcWrite]
  rfl

section Continued

variable {t : State L P} {i : Instr} {a b : BitVec 16} (hi : i = .ldpcBp ∨ i = .ldpcBpC)
  (hlegal : Spec.ldpcLegal (s.withMaxit a)) (ht : execOn i (s.withMaxit a) = .next t)

/-- After a decode that did not converge, LDPC.BP.C runs the iterations that the cap a + b adds. -/
theorem ldpcDecode_continued (hs : s.inv = true) (hlegal : Spec.ldpcLegal (s.withMaxit a)) (hb : 1 ≤ b.toNat)
    (hab : a.toNat + b.toNat < 2 ^ 16) (hconv : (ldpcDecode i (s.withMaxit a)).conv = false) :
    ldpcDecode .ldpcBpC ((complete .ok (ldpcWrite (s.withMaxit a) (ldpcDecode i (s.withMaxit a)))).withMaxit b) =
      ldpcDecode i (s.withMaxit (a + b)) := by
  obtain ⟨-, -, -, -, ha, -⟩ := id hlegal
  have hstored : storedMessages (ldpcWrite (s.withMaxit a) (ldpcDecode i (s.withMaxit a))) =
      (ldpcDecode i (s.withMaxit a)).v2c := by
    obtain ⟨v, count, hv, hit⟩ := ldpcDecode_eq_iterate i (s.withMaxit a)
    rw [hit]
    exact storedMessages_ldpcWrite hs (ldpcFits_of_legal (s := s.withMaxit a) hs hlegal) hv count
  have hsum : (a + b).toNat = a.toNat + b.toNat := by rw [BitVec.toNat_add, Nat.mod_eq_of_lt hab]
  rw [ldpcDecode_withMaxit] at hconv
  rw [ldpcDecode_complete_ldpcWrite, hstored, ldpcConfig_withMaxit, ldpcDecode_withMaxit, ldpcDecode_withMaxit, hsum,
    ldpcRun_add P.arith (ldpcConfig s) (a := a.toNat) ha hb hconv]

include hi hlegal ht

/-- The continue property of R292. -/
theorem execOn_ldpc_continued (hs : s.inv = true) (hconv : t.ldpcConv = false) (hb : 1 ≤ b.toNat)
    (hab : a.toNat + b.toNat < 2 ^ 16) {u : State L P} (hu : execOn .ldpcBpC (t.withMaxit b) = .next u) :
    execOn i (s.withMaxit (a + b)) = .next (u.withMaxit (a + b)) := by
  obtain rfl := Host.Outcome.next.inj ((execOn_ldpc hi hlegal).symm.trans ht)
  have hsum : (a + b).toNat = a.toNat + b.toNat := by rw [BitVec.toNat_add, Nat.mod_eq_of_lt hab]
  have hlegal' : Spec.ldpcLegal
      ((complete .ok (ldpcWrite (s.withMaxit a) (ldpcDecode i (s.withMaxit a)))).withMaxit b) := by
    rw [complete_withMaxit, ldpcWrite_withMaxit, ldpcLegal_complete_ldpcWrite]
    exact ldpcLegal_withMaxit hlegal hb
  obtain rfl := Host.Outcome.next.inj ((execOn_ldpc (.inr rfl) hlegal').symm.trans hu)
  rw [execOn_ldpc hi (ldpcLegal_withMaxit hlegal (by omega)), ldpcDecode_continued hs hlegal hb hab hconv,
    ldpcWrite_continued hs (ldpcFits_of_legal (s := s.withMaxit a) hs hlegal)
      (ldpcDecode_shaped i (s.withMaxit (a + b))) (ldpcDecode_shaped i (s.withMaxit a))]

/-- The early stop of R288. -/
theorem execOn_ldpc_converged (hconv : t.ldpcConv = true) (hab : a.toNat ≤ b.toNat) :
    execOn i (s.withMaxit b) = .next (t.withMaxit b) := by
  obtain rfl := Host.Outcome.next.inj ((execOn_ldpc hi hlegal).symm.trans ht)
  obtain ⟨-, -, -, -, ha, -⟩ := id hlegal
  have hdecode : ldpcDecode i (s.withMaxit b) = ldpcDecode i (s.withMaxit a) :=
    ldpcRun_of_conv P.arith (ldpcConfig s) ha hab hconv
  rw [execOn_ldpc hi (ldpcLegal_withMaxit hlegal (ha.trans hab)), hdecode, complete_withMaxit, ldpcWrite_withMaxit,
    withMaxit_withMaxit]

end Continued

/-- Settles O44: the loop with the cap a + b is the loop with the cap a, then from its messages with the cap b; the
messages stand in LDPC_V2C in between. -/
theorem ldpcContinueAddsIterations : Obligations.LdpcContinueAddsIterations := by
  unfold Obligations.LdpcContinueAddsIterations
  exact (onEveryCore_iff _).mpr fun L _ _ P _ s t i a hi hs hlegal ht =>
    ⟨fun hconv b u hb hab hu => execOn_ldpc_continued hi hlegal ht hs hconv hb hab hu,
      fun hconv b hab => execOn_ldpc_converged hi hlegal ht hconv hab⟩

end Sys2Proof.Machine

/-! ### Scale invariance (R293) -/

namespace Sys2Proof

variable {L : Type}

/-- A map of the numbers that the operations of R12 cannot tell from a change of unit, the damping factor apart. -/
structure LlrArith.Scaling (A : LlrArith L) (f : L → L) : Prop where
  zero : f A.zero = A.zero
  add : ∀ a b, f (A.add a b) = A.add (f a) (f b)
  sub : ∀ a b, f (A.sub a b) = A.sub (f a) (f b)
  neg : ∀ a, f (A.neg a) = A.neg (f a)
  abs : ∀ a, f (A.abs a) = A.abs (f a)
  min : ∀ a b, f (A.min a b) = A.min (f a) (f b)
  mul : ∀ a d, f (A.mul a d) = A.mul (f a) d
  lt_zero : ∀ a, A.lt (f a) A.zero = A.lt a A.zero

/-- In exact arithmetic, multiplication by a positive number is one. -/
theorem LlrArith.exact_scaling {c : Rat} (hc : 0 < c) : LlrArith.exact.Scaling (c * ·) where
  zero := mul_zero c
  add := mul_add c
  sub := mul_sub c
  neg a := mul_neg c a
  abs a := by simp only [Machine.exact_abs, abs_mul, abs_of_pos hc]
  min a b := by simp only [Machine.exact_min, mul_min_of_nonneg a b hc.le]
  mul a d := (mul_assoc c a d).symm
  lt_zero a := decide_eq_decide.mpr (by simp [LlrArith.exact, mul_neg_iff, hc, hc.not_gt])

namespace Machine

/-- A configuration with its channel scaled. -/
def LdpcConfig.scale (f : L → L) (c : LdpcConfig L) : LdpcConfig L := { c with lc := f c.lc }

/-- An iteration with its beliefs and messages scaled. -/
def LdpcIteration.scale (f : L → L) (r : LdpcIteration L) : LdpcIteration L :=
  { r with c2v := r.c2v.map (List.map f), belief := r.belief.map f, v2c := r.v2c.map (List.map f) }

section Scaling

variable {A : LlrArith L} {f : L → L} (hf : A.Scaling f)

include hf

theorem getD_map_scaling (l : List L) (k : Nat) : (l.map f).getD k A.zero = f (l.getD k A.zero) := by
  have h := List.getD_map l A.zero (n := k) f
  rwa [hf.zero] at h

theorem minAbs_map (ms : List L) : minAbs A (ms.map f) = f (minAbs A ms) := by
  cases ms with
  | nil => exact hf.zero.symm
  | cons m ms =>
    simp only [minAbs, List.map_cons, List.foldl_map, ← hf.abs]
    exact List.foldl_hom f fun a x => (hf.min a (A.abs x)).symm

theorem signNegative_map (ms : List L) : signNegative A (ms.map f) = signNegative A ms := by
  simp only [signNegative, List.foldl_map, hf.lt_zero]

theorem checkMessage_map (d : L) (ms : List L) : checkMessage A d (ms.map f) = f (checkMessage A d ms) := by
  rw [checkMessage, checkMessage, signNegative_map hf, minAbs_map hf, ← hf.mul]
  split
  · simp only [LlrArith.signTimes_neg_one, hf.neg]
  · simp only [LlrArith.signTimes_one]

theorem otherMessages_map (row : List Bool) (v : List L) (j : Nat) :
    otherMessages A row (v.map f) j = (otherMessages A row v j).map f := by
  simp only [otherMessages, List.map_map, Function.comp_def, getD_map_scaling hf]

theorem checkRow_map (d : L) (row : List Bool) (v : List L) :
    checkRow A d row (v.map f) = (checkRow A d row v).map f := by
  simp only [checkRow, List.map_map, Function.comp_def, otherMessages_map hf, checkMessage_map hf, apply_ite f,
    hf.zero]

theorem channelLlrs_map (lc : L) (rx : List Bool) : channelLlrs A (f lc) rx = (channelLlrs A lc rx).map f := by
  simp only [channelLlrs, List.map_map, Function.comp_def, apply_ite f, hf.neg]

theorem maskRow_map (row : List Bool) (vals : List L) : maskRow A row (vals.map f) = (maskRow A row vals).map f := by
  simp only [maskRow, List.zipWith_map_right, List.map_zipWith, apply_ite f, hf.zero]

theorem startMessages_scale (c : LdpcConfig L) :
    startMessages A (c.scale f) = (startMessages A c).map (List.map f) := by
  simp only [startMessages, LdpcConfig.scale, List.map_map, Function.comp_def, channelLlrs_map hf, maskRow_map hf]

theorem varRow_map (belief : List L) (row : List Bool) (c2v : List L) :
    varRow A (belief.map f) row (c2v.map f) = (varRow A belief row c2v).map f := by
  simp only [varRow, ← maskRow_map hf, List.zipWith_map, List.map_zipWith, hf.sub]

theorem beliefOf_map (h : List (List Bool)) (c2v : List (List L)) (ch : L) (j : Nat) :
    beliefOf A h (c2v.map (List.map f)) (f ch) j = f (beliefOf A h c2v ch j) := by
  simp only [beliefOf, List.zip_map_right, List.foldl_map, Prod.map_fst, Prod.map_snd, id, getD_map_scaling hf]
  exact List.foldl_hom f fun a r => by rw [apply_ite f, hf.add]

/-- One iteration of the scaled channel from the scaled messages is the scaled iteration. -/
theorem ldpcIterate_scale (c : LdpcConfig L) (v : List (List L)) (iters : Word) :
    ldpcIterate A (c.scale f) (v.map (List.map f)) iters = (ldpcIterate A c v iters).scale f := by
  have hc2v : List.zipWith (checkRow A c.damp) c.h (v.map (List.map f)) =
      (List.zipWith (checkRow A c.damp) c.h v).map (List.map f) := by
    simp only [List.zipWith_map_right, List.map_zipWith, checkRow_map hf]
  have hbelief (c2v : List (List L)) :
      ((channelLlrs A c.lc c.rx).map f).mapIdx (fun j x => beliefOf A c.h (c2v.map (List.map f)) x j) =
        ((channelLlrs A c.lc c.rx).mapIdx fun j x => beliefOf A c.h c2v x j).map f :=
    List.ext_getElem (by simp) fun j hj hj' => by simp [beliefOf_map hf]
  have hv2c (belief : List L) (c2v : List (List L)) :
      List.zipWith (varRow A (belief.map f)) c.h (c2v.map (List.map f)) =
        (List.zipWith (varRow A belief) c.h c2v).map (List.map f) := by
    simp only [List.zipWith_map_right, List.map_zipWith, varRow_map hf]
  have hhd (belief : List L) :
      (belief.map f).map (fun b => A.lt b A.zero) = belief.map fun b => A.lt b A.zero := by
    simp only [List.map_map, Function.comp_def, hf.lt_zero]
  simp only [ldpcIterate, LdpcConfig.scale, LdpcIteration.scale, channelLlrs_map hf, hc2v, hbelief, hv2c, hhd]

theorem ldpcMore_scale (c : LdpcConfig L) (n : Nat) (r : LdpcIteration L) :
    ldpcMore A (c.scale f) n (r.scale f) = (ldpcMore A c n r).scale f := by
  induction n generalizing r with
  | zero => rfl
  | succ n ih =>
    cases h : r.conv
    · rw [ldpcMore_succ_of_not_conv A c h, ← ih, ← ldpcIterate_scale hf]
      exact ldpcMore_succ_of_not_conv A (c.scale f) (r := r.scale f) h n
    · rw [ldpcMore_of_conv A c h]
      exact ldpcMore_of_conv A (c.scale f) (r := r.scale f) h _

theorem ldpcRun_scale (c : LdpcConfig L) (maxit : Nat) (v : List (List L)) (iters : Word) :
    ldpcRun A (c.scale f) maxit (v.map (List.map f)) iters = (ldpcRun A c maxit v iters).scale f := by
  rw [ldpcRun, ldpcIterate_scale hf, ldpcMore_scale hf, ldpcRun]

end Scaling

/-! #### The decode of a scaled channel -/

/-- `s` with LDPC_LC scaled. -/
def State.scaleLc (s : State) (c : Rat) : State := { s with ldpcLc := c * s.ldpcLc }

theorem ldpcDecode_scaleLc (s : State) {c : Rat} (hc : 0 < c) :
    ldpcDecode .ldpcBp (s.scaleLc c) = (ldpcDecode .ldpcBp s).scale (c * ·) := by
  have hf : LlrParam.exact.arith.Scaling (c * ·) := LlrArith.exact_scaling hc
  have hconfig : ldpcConfig (s.scaleLc c) = (ldpcConfig s).scale (c * ·) := rfl
  rw [ldpcDecode, ldpcStart, if_pos rfl, hconfig, startMessages_scale hf, ldpcRun_scale hf]
  rfl

/-- The element of a scaled list of rows, at the index of a row and in the row. -/
theorem getD_getD_map_mul (c : Rat) (x : List (List Rat)) (r j : Nat) :
    ((x.map (List.map (c * ·))).getD r []).getD j 0 = c * (x.getD r []).getD j 0 := by
  have hrow := List.getD_map x [] (n := r) (List.map (c * ·))
  have helem := List.getD_map (x.getD r []) 0 (n := j) (c * ·)
  rw [List.map_nil] at hrow
  rwa [mul_zero, ← hrow] at helem

/-- The beliefs and messages of a scaled iteration, once written. -/
theorem ldpcWrite_scale {s s' : State} {m n : Nat} (hs : s.inv = true) (hs' : s'.inv = true)
    (hfit : LdpcFits s.params m n) (hfit' : LdpcFits s'.params m n) {it : LdpcIteration Rat} {c : Rat}
    (hit : it.Shaped m n) (hit' : (it.scale (c * ·)).Shaped m n) {r j : Nat} (hr : r < m) (hj : j < n) :
    let t := ldpcWrite s it
    let u := ldpcWrite s' (it.scale (c * ·))
    Spec.belief u j = c * Spec.belief t j ∧ Spec.c2v u r j = c * Spec.c2v t r j ∧
      Spec.v2c u r j = c * Spec.v2c t r j := by
  dsimp only
  rw [belief_ldpcWrite hfit hit hs hj 0, belief_ldpcWrite hfit' hit' hs' hj 0,
    c2v_ldpcWrite hs hfit.rows_le hfit.cols_le hit hr hj 0, c2v_ldpcWrite hs' hfit'.rows_le hfit'.cols_le hit' hr hj 0,
    v2c_ldpcWrite hfit hit hs hr hj 0, v2c_ldpcWrite hfit' hit' hs' hr hj 0]
  refine ⟨?_, getD_getD_map_mul c it.c2v r j, getD_getD_map_mul c it.v2c r j⟩
  have h := List.getD_map it.belief 0 (n := j) (c * ·)
  rwa [mul_zero] at h

/-- Settles O45: multiplication by c commutes with every operation of an iteration, and so with the loop. -/
theorem ldpcDecisionsDoNotDependOnScale : Obligations.LdpcDecisionsDoNotDependOnScale := by
  unfold Obligations.LdpcDecisionsDoNotDependOnScale
  intro s c hs hlegal hc
  have hfit := ldpcFits_of_legal hs hlegal
  have hit := ldpcDecode_shaped .ldpcBp s
  have hit' := ldpcDecode_shaped .ldpcBp (s.scaleLc c)
  have ht := execOn_ldpc (.inl rfl) hlegal
  have hu := execOn_ldpc (s := s.scaleLc c) (.inl rfl) hlegal
  rw [ldpcDecode_scaleLc s hc] at hu hit'
  rw [exec_eq_execOn]
  exact ⟨_, _, ht, hu, rfl, rfl, rfl, rfl, rfl, fun r j hr hj =>
    ldpcWrite_scale (s' := s.scaleLc c) hs hs hfit hfit hit hit' hr hj⟩

end Machine

end Sys2Proof

/-! ### LDPC.BP as a continued decode (R283) -/

namespace Sys2Proof.Machine

variable {L : Type} [DecidableEq L] [Inhabited L] {P : LlrParam L} {s : State L P}

/-- `s` with other messages in LDPC_V2C, and the count 0. -/
def State.withMessages (s : State L P) (v : Cells L) : State L P :=
  { s with ldpcIters := 0#32, mem := { s.mem with ldpcV2c := v } }

omit [DecidableEq L] [Inhabited L] in
theorem getD_channelLlrs (s : State L P) {j : Nat} (hj : j < ldpcCols s) (d : L) :
    (channelLlrs P.arith (ldpcConfig s).lc (ldpcConfig s).rx).getD j d = Spec.channel s j := by
  simp [channelLlrs, ldpcConfig, bitList, hj, Spec.channel]

omit [DecidableEq L] in
/-- Stored messages that are the channel LLRs on the edges are the starting messages. -/
theorem storedMessages_eq_startMessages
    (h : ∀ r j, r < ldpcRows s → j < ldpcCols s → Spec.edge s r j = true → Spec.v2c s r j = Spec.channel s j) :
    storedMessages s = startMessages P.arith (ldpcConfig s) := by
  refine List.ext_getElem (by simp [storedMessages, startMessages]) fun r hr hr' => ?_
  have hrow : r < ldpcRows s := (startMessages_isMatrix s P.arith).1 ▸ hr'
  simp only [storedMessages, startMessages, List.getElem_mapIdx, List.getElem_map]
  refine maskRow_congr P.arith (by simp) fun j hedge => ?_
  have hj : j < ldpcCols s := by
    by_contra hge
    rw [List.getD_eq_default _ _ (by simpa [ldpcConfig] using hge)] at hedge
    cases hedge
  have hedge' : Spec.edge s r j = true := by
    rw [← hedge, Spec.edge, ← getD_bitList _ _ _ hj]
    simp [ldpcConfig]
  rw [getD_cellList _ _ _ _ _ hj, getD_channelLlrs s hj]
  exact h r j hrow hj hedge'

/-- LDPC.BP leaves what LDPC.BP.C leaves from such messages and the count 0. -/
theorem execOn_ldpcBp_eq_withMessages {v : Cells L} (hs : s.inv = true) (hs' : (s.withMessages v).inv = true)
    (hlegal : Spec.ldpcLegal s)
    (hedge : ∀ r j, r < ldpcRows s → j < ldpcCols s → Spec.edge s r j = true →
      Spec.v2c (s.withMessages v) r j = Spec.channel s j)
    (hrest : ∀ r j, j < 256 → ldpcRows s ≤ r ∨ ldpcCols s ≤ j → Spec.v2c (s.withMessages v) r j = Spec.v2c s r j) :
    execOn .ldpcBp s = execOn .ldpcBpC (s.withMessages v) := by
  have hdecode : ldpcDecode .ldpcBpC (s.withMessages v) = ldpcDecode .ldpcBp s := by
    rw [ldpcDecode, ldpcStart, if_neg (by decide), storedMessages_eq_startMessages hedge]
    rfl
  have hit := ldpcDecode_shaped .ldpcBp s
  have hfit := ldpcFits_of_legal hs hlegal
  obtain ⟨-, -, hv2c⟩ := ldpcArrays_wf hs
  obtain ⟨-, -, hv⟩ := ldpcArrays_wf hs'
  have hmessages : setRows v 0 (ldpcDecode .ldpcBp s).v2c = setRows s.mem.ldpcV2c 0 (ldpcDecode .ldpcBp s).v2c := by
    refine setRows_congr hfit hit.v2c hv hv2c fun k hk => ?_
    have h := hrest (k / 256) (k % 256) (Nat.mod_lt _ (by decide)) hk
    rwa [Spec.v2c, Spec.v2c, Nat.div_add_mod] at h
  rw [execOn_ldpc (.inl rfl) hlegal, execOn_ldpc (s := s.withMessages v) (.inr rfl) hlegal, hdecode]
  simp only [ldpcWrite, State.withMem, State.withMessages, hmessages]

/-- Settles O43: both commands run the same loop, and what it writes covers the messages in which the states differ. -/
theorem ldpcStartsFromTheChannel : Obligations.LdpcStartsFromTheChannel := by
  unfold Obligations.LdpcStartsFromTheChannel
  refine (onEveryCore_iff _).mpr fun L _ _ P _ s s' hs hs' hlegal heq hedge hrest => ?_
  obtain ⟨v, rfl⟩ : ∃ v, s' = s.withMessages v := ⟨_, heq⟩
  exact execOn_ldpcBp_eq_withMessages hs hs' hlegal hedge hrest

end Sys2Proof.Machine

/-! ### The relations between the outputs of an iteration (R284 to R288) -/

namespace Sys2Proof.Machine

section Relations

variable {L : Type} (A : LlrArith L)

theorem getD_maskRow (row : List Bool) (vals : List L) {k : Nat} (hrow : k < row.length) (hvals : k < vals.length) :
    (maskRow A row vals).getD k A.zero = if row.getD k false then vals.getD k A.zero else A.zero := by
  simp [maskRow, hrow, hvals]

theorem getD_checkRow_of_not_edge (damp : L) (row : List Bool) (v : List L) {j : Nat} (hj : j < row.length)
    (h : row.getD j false = false) : (checkRow A damp row v).getD j A.zero = A.zero := by
  have hedge : row[j] = false := by rwa [List.getD_eq_getElem _ _ hj] at h
  simp [checkRow, hj, hedge]

theorem getD_zipWith_sub (x y : List L) {k : Nat} (hx : k < x.length) (hy : k < y.length) :
    (List.zipWith A.sub x y).getD k A.zero = A.sub (x.getD k A.zero) (y.getD k A.zero) := by
  simp [hx, hy]

/-- The sum of R285 runs over the checks of the variable, ascending. -/
theorem beliefOf_eq_foldl {m : Nat} {h : List (List Bool)} {c2v : List (List L)} (hh : h.length = m)
    (hc : c2v.length = m) (ch : L) (j : Nat) :
    beliefOf A h c2v ch j = ((List.range m).filter fun r => (h.getD r []).getD j false).foldl
      (fun acc r => A.add acc ((c2v.getD r []).getD j A.zero)) ch := by
  have hzip : List.zip h c2v = (List.range m).map fun r => (h.getD r [], c2v.getD r []) :=
    List.ext_getElem (by simp [hh, hc]) fun r hr hr' => by
      have hrm : r < m := by simpa using hr'
      simp [hh, hc, hrm]
  rw [beliefOf, hzip, List.foldl_map, List.foldl_filter]

/-- The syndrome of R288 is the parity of the decisions on the row's edges. -/
theorem rowSyndrome_eq_parity {n : Nat} {row hd : List Bool} (hrow : row.length = n) (hhd : hd.length = n) :
    rowSyndrome row hd = Spec.parity n fun j => row.getD j false && hd.getD j false := by
  have hzip : List.zipWith (fun h b => h && b) row hd =
      (List.range n).map fun j => row.getD j false && hd.getD j false :=
    List.ext_getElem (by simp [hrow, hhd]) fun j hj hj' => by
      have hjn : j < n := by simpa using hj'
      simp [hrow, hhd, hjn]
  rw [rowSyndrome, hzip, List.foldl_map, Spec.parity]

theorem getD_zipWith_rows {α β γ : Type} (f : List α → List β → List γ) {x : List (List α)} {y : List (List β)}
    {r : Nat} (hx : r < x.length) (hy : r < y.length) :
    (List.zipWith f x y).getD r [] = f (x.getD r []) (y.getD r []) := by
  simp [hx, hy]

variable {c : LdpcConfig L} {v : List (List L)} {m n : Nat} (hh : IsMatrix m n c.h) (hrx : c.rx.length = n)
  (hv : IsMatrix m n v) (count : Word)

include hh hrx hv

theorem getD_belief_ldpcIterate {j : Nat} (hj : j < n) :
    let it := ldpcIterate A c v count
    it.belief.getD j A.zero =
      ((List.range m).filter fun r => (c.h.getD r []).getD j false).foldl
        (fun acc r => A.add acc ((it.c2v.getD r []).getD j A.zero))
        ((channelLlrs A c.lc c.rx).getD j A.zero) := by
  intro it
  have hit : it.Shaped m n := ldpcIterate_shaped A c v count hh hrx hv
  rw [← beliefOf_eq_foldl A hh.1 hit.c2v.1]
  simp [it, ldpcIterate, hrx, hj]

theorem getD_v2c_ldpcIterate {r j : Nat} (hr : r < m) (hj : j < n) :
    let it := ldpcIterate A c v count
    (it.v2c.getD r []).getD j A.zero =
      if (c.h.getD r []).getD j false then A.sub (it.belief.getD j A.zero) ((it.c2v.getD r []).getD j A.zero)
      else A.zero := by
  intro it
  have hit : it.Shaped m n := ldpcIterate_shaped A c v count hh hrx hv
  have hrow : it.v2c.getD r [] = varRow A it.belief (c.h.getD r []) (it.c2v.getD r []) :=
    getD_zipWith_rows _ (hh.1.symm ▸ hr) (hit.c2v.1.symm ▸ hr)
  have hb : j < it.belief.length := hit.belief.symm ▸ hj
  have hc : j < (it.c2v.getD r []).length := (hit.c2v.length_getD hr).symm ▸ hj
  have hlen : j < (List.zipWith A.sub it.belief (it.c2v.getD r [])).length := by
    rw [List.length_zipWith]
    exact lt_min hb hc
  rw [hrow, varRow, getD_maskRow A _ _ ((hh.length_getD hr).symm ▸ hj) hlen, getD_zipWith_sub A _ _ hb hc]

omit hrx in
theorem getD_c2v_ldpcIterate_of_not_edge {r j : Nat} (hr : r < m) (hj : j < n)
    (h : (c.h.getD r []).getD j false = false) :
    ((ldpcIterate A c v count).c2v.getD r []).getD j A.zero = A.zero := by
  have hrow : (ldpcIterate A c v count).c2v.getD r [] = checkRow A c.damp (c.h.getD r []) (v.getD r []) :=
    getD_zipWith_rows _ (hh.1.symm ▸ hr) (hv.1.symm ▸ hr)
  rw [hrow, getD_checkRow_of_not_edge A _ _ _ ((hh.length_getD hr).symm ▸ hj) h]

theorem getD_hd_ldpcIterate (j : Nat) :
    let it := ldpcIterate A c v count
    it.hd.getD j false = (decide (j < n) && A.lt (it.belief.getD j A.zero) A.zero) := by
  intro it
  have hit : it.Shaped m n := ldpcIterate_shaped A c v count hh hrx hv
  have hhd : it.hd = it.belief.map fun b => A.lt b A.zero := rfl
  by_cases hj : j < n
  · simp [hhd, hit.belief, hj]
  · simp [hhd, hit.belief, hj]

theorem getD_syn_ldpcIterate (r : Nat) :
    let it := ldpcIterate A c v count
    it.syn.getD r false =
      (decide (r < m) && Spec.parity n fun j => (c.h.getD r []).getD j false && it.hd.getD j false) := by
  intro it
  have hit : it.Shaped m n := ldpcIterate_shaped A c v count hh hrx hv
  have hsyn : it.syn = c.h.map fun row => rowSyndrome row it.hd := rfl
  by_cases hr : r < m
  · rw [← rowSyndrome_eq_parity (hh.length_getD hr) hit.hd]
    simp [hsyn, hh.1, hr]
  · simp [hsyn, hh.1, hr]

end Relations

end Sys2Proof.Machine

/-! ### The outputs in the arrays (R285 to R290) -/

namespace Sys2Proof.Machine

theorem getLsbD_packBits_of_length_le {w : Nat} {l : List Bool} (h : l.length ≤ w) (i : Nat) :
    (packBits w l).getLsbD i = l.getD i false := by
  rw [getLsbD_packBits]
  by_cases hi : i < w
  · rw [decide_eq_true hi, Bool.true_and]
  · rw [List.getD_eq_default _ _ (by omega), Bool.and_false]

theorem packBits_of_false (w : Nat) {l : List Bool} (h : ∀ b ∈ l, b = false) : packBits w l = 0#w := by
  induction l with
  | nil => rfl
  | cons b l ih =>
    obtain ⟨rfl, hl⟩ := List.forall_mem_cons.mp h
    rw [packBits, ih hl]
    simp

theorem packBits_eq_zero_iff {w : Nat} {l : List Bool} (h : l.length ≤ w) :
    packBits w l = 0#w ↔ (l.all fun b => !b) = true := by
  simp only [List.all_eq_true, Bool.not_eq_true']
  constructor
  · intro hz b hb
    obtain ⟨i, hi, rfl⟩ := List.mem_iff_getElem.mp hb
    have hbit := getLsbD_packBits_of_length_le h i
    rw [hz, BitVec.getLsbD_zero, List.getD_eq_getElem _ _ hi] at hbit
    exact hbit.symm
  · exact packBits_of_false w

theorem parity_congr {n : Nat} {f g : Nat → Bool} (h : ∀ j, j < n → f j = g j) :
    Spec.parity n f = Spec.parity n g :=
  List.foldl_ext _ _ _ fun acc j hj => by rw [h j (List.mem_range.mp hj)]

section Outputs

variable {L : Type} {P : LlrParam L} (s : State L P)

theorem getD_ldpcConfig_h [Inhabited L] {r j : Nat} (hr : r < ldpcRows s) (hj : j < ldpcCols s) :
    ((ldpcConfig s).h.getD r []).getD j false = Spec.edge s r j := by
  rw [Spec.edge, ← getD_bitList _ _ _ hj]
  simp [ldpcConfig, hr]

variable [DecidableEq L] [Inhabited L] {s} (hs : s.inv = true) (hlegal : Spec.ldpcLegal s) (i : Instr)

include hs hlegal

/-- The belief is the channel LLR plus the messages of the variable's checks, ascending (R285). -/
theorem belief_ldpcDecode {j : Nat} (hj : j < ldpcCols s) :
    let t := ldpcWrite s (ldpcDecode i s)
    Spec.belief t j = ((List.range (ldpcRows s)).filter fun r => Spec.edge s r j).foldl
      (fun acc r => P.arith.add acc (Spec.c2v t r j)) (Spec.channel s j) := by
  intro t
  have hfit := ldpcFits_of_legal hs hlegal
  have hit := ldpcDecode_shaped i s
  obtain ⟨v, count, hv, heq⟩ := ldpcDecode_eq_iterate i s
  have hsum := getD_belief_ldpcIterate P.arith (ldpcConfig_h_isMatrix s) (length_ldpcConfig_rx s) hv count hj
  rw [← heq, getD_channelLlrs s hj] at hsum
  rw [belief_ldpcWrite hfit hit hs hj P.arith.zero, hsum,
    List.filter_congr fun r hr => getD_ldpcConfig_h s (List.mem_range.mp hr) hj]
  refine List.foldl_ext _ _ _ fun acc r hr => ?_
  have hr : r < ldpcRows s := List.mem_range.mp (List.mem_filter.mp hr).1
  rw [c2v_ldpcWrite hs hfit.rows_le hfit.cols_le hit hr hj P.arith.zero]

/-- The variable-to-check message is the belief less the check's own message on edges, 0 elsewhere (R286, R290). -/
theorem v2c_ldpcDecode {r j : Nat} (hr : r < ldpcRows s) (hj : j < ldpcCols s) :
    let t := ldpcWrite s (ldpcDecode i s)
    Spec.v2c t r j =
      if Spec.edge s r j then P.arith.sub (Spec.belief t j) (Spec.c2v t r j) else P.arith.zero := by
  intro t
  have hfit := ldpcFits_of_legal hs hlegal
  have hit := ldpcDecode_shaped i s
  obtain ⟨v, count, hv, heq⟩ := ldpcDecode_eq_iterate i s
  have h := getD_v2c_ldpcIterate P.arith (ldpcConfig_h_isMatrix s) (length_ldpcConfig_rx s) hv count hr hj
  rw [← heq, getD_ldpcConfig_h s hr hj] at h
  rw [v2c_ldpcWrite hfit hit hs hr hj P.arith.zero, belief_ldpcWrite hfit hit hs hj P.arith.zero,
    c2v_ldpcWrite hs hfit.rows_le hfit.cols_le hit hr hj P.arith.zero, h]

theorem c2v_ldpcDecode_of_not_edge {r j : Nat} (hr : r < ldpcRows s) (hj : j < ldpcCols s)
    (h : Spec.edge s r j = false) : Spec.c2v (ldpcWrite s (ldpcDecode i s)) r j = P.arith.zero := by
  have hfit := ldpcFits_of_legal hs hlegal
  rw [c2v_ldpcWrite hs hfit.rows_le hfit.cols_le (ldpcDecode_shaped i s) hr hj P.arith.zero]
  obtain ⟨v, count, hv, heq⟩ := ldpcDecode_eq_iterate i s
  rw [heq]
  exact getD_c2v_ldpcIterate_of_not_edge P.arith (ldpcConfig_h_isMatrix s) hv count hr hj
    ((getD_ldpcConfig_h s hr hj).trans h)

omit hs hlegal in
/-- The decisions and the syndromes as they stand in their bit arrays. -/
theorem getLsbD_ldpcWrite {m n : Nat} (hfit : LdpcFits s.params m n) {it : LdpcIteration L} (hit : it.Shaped m n)
    (k : Nat) :
    (ldpcWrite s it).mem.ldpcHd.getLsbD k = it.hd.getD k false ∧
      (ldpcWrite s it).mem.ldpcSyn.getLsbD k = it.syn.getD k false :=
  ⟨getLsbD_packBits_of_length_le (hit.hd.trans_le (hfit.cols_le.trans hfit.colsMax_le)) k,
    getLsbD_packBits_of_length_le (hit.syn.trans_le (hfit.rows_le.trans hfit.rowsMax_le)) k⟩

/-- The decisions are the signs of the beliefs (R287). -/
theorem hd_ldpcDecode (j : Nat) :
    let t := ldpcWrite s (ldpcDecode i s)
    t.mem.ldpcHd.getLsbD j = (decide (j < ldpcCols s) && P.arith.lt (Spec.belief t j) P.arith.zero) := by
  intro t
  have hfit := ldpcFits_of_legal hs hlegal
  have hit := ldpcDecode_shaped i s
  obtain ⟨hhd, -⟩ := getLsbD_ldpcWrite hfit hit j
  obtain ⟨v, count, hv, heq⟩ := ldpcDecode_eq_iterate i s
  have h := getD_hd_ldpcIterate P.arith (ldpcConfig_h_isMatrix s) (length_ldpcConfig_rx s) hv count j
  rw [← heq] at h
  rw [hhd, h]
  by_cases hj : j < ldpcCols s
  · rw [belief_ldpcWrite hfit hit hs hj P.arith.zero]
  · rw [decide_eq_false hj, Bool.false_and, Bool.false_and]

/-- The syndromes are the parities of the decisions on the edges (R288). -/
theorem syn_ldpcDecode (r : Nat) :
    let t := ldpcWrite s (ldpcDecode i s)
    t.mem.ldpcSyn.getLsbD r =
      (decide (r < ldpcRows s) &&
        Spec.parity (ldpcCols s) fun j => Spec.edge s r j && t.mem.ldpcHd.getLsbD j) := by
  intro t
  have hbits := getLsbD_ldpcWrite (ldpcFits_of_legal hs hlegal) (ldpcDecode_shaped i s)
  obtain ⟨-, hsyn⟩ := hbits r
  obtain ⟨v, count, hv, heq⟩ := ldpcDecode_eq_iterate i s
  have h := getD_syn_ldpcIterate P.arith (ldpcConfig_h_isMatrix s) (length_ldpcConfig_rx s) hv count r
  rw [← heq] at h
  rw [hsyn, h]
  by_cases hr : r < ldpcRows s
  · congr 1
    refine parity_congr fun j hj => ?_
    obtain ⟨hhd, -⟩ := hbits j
    rw [hhd, getD_ldpcConfig_h s hr hj]
  · rw [decide_eq_false hr, Bool.false_and, Bool.false_and]

/-- CONV says that every syndrome is 0 (R288). -/
theorem conv_ldpcDecode :
    let t := ldpcWrite s (ldpcDecode i s)
    t.ldpcConv = decide (t.mem.ldpcSyn = 0#256) := by
  have hfit := ldpcFits_of_legal hs hlegal
  have hlen : (ldpcDecode i s).syn.length ≤ 256 :=
    (ldpcDecode_shaped i s).syn.trans_le (hfit.rows_le.trans hfit.rowsMax_le)
  have hconv : (ldpcDecode i s).conv = (ldpcDecode i s).syn.all fun b => !b := by
    obtain ⟨v, count, -, heq⟩ := ldpcDecode_eq_iterate i s
    rw [heq]
    rfl
  exact hconv.trans (Bool.eq_iff_iff.mpr ((packBits_eq_zero_iff hlen).symm.trans decide_eq_true_iff.symm))

end Outputs

theorem ldpcFrame_ldpcWrite {L : Type} [DecidableEq L] [Inhabited L] {P : LlrParam L} (s : State L P)
    (it : LdpcIteration L) : Spec.ldpcFrame s (complete .ok (ldpcWrite s it)) := rfl

/-- Settles O40: the last iteration of the loop, read from the arrays it was written to. -/
theorem ldpcOutputsSatisfyTheIterationRules : Obligations.LdpcOutputsSatisfyTheIterationRules := by
  unfold Obligations.LdpcOutputsSatisfyTheIterationRules
  refine (onEveryCore_iff _).mpr fun L _ _ P _ s i hi hs hlegal => ?_
  have hit := ldpcDecode_shaped i s
  exact ⟨_, execOn_ldpc hi hlegal, ldpcFrame_ldpcWrite s _, fun j hj => belief_ldpcDecode hs hlegal i hj,
    fun r j hr hj => v2c_ldpcDecode hs hlegal i hr hj,
    fun r j hr hj h => c2v_ldpcDecode_of_not_edge hs hlegal i hr hj h, hd_ldpcDecode hs hlegal i,
    syn_ldpcDecode hs hlegal i, conv_ldpcDecode hs hlegal i, fun j hj => belief_ldpcWrite_of_le hit hj,
    fun r j hj h => messages_ldpcWrite_of_le (ldpcFits_of_legal hs hlegal) hit hj h⟩

end Sys2Proof.Machine

/-! ### The all-zero word (R294) -/

namespace Sys2Proof.Machine

/-- No value of the list is negative. -/
def AllNonneg (l : List Rat) : Prop := ∀ x ∈ l, 0 ≤ x

theorem AllNonneg.getD {l : List Rat} (h : AllNonneg l) (k : Nat) : 0 ≤ l.getD k 0 := by
  by_cases hk : k < l.length
  · rw [List.getD_eq_getElem _ _ hk]
    exact h _ (List.getElem_mem hk)
  · rw [List.getD_eq_default _ _ (not_lt.mp hk)]

theorem allNonneg_channelLlrs {lc : Rat} (hlc : 0 ≤ lc) {rx : List Bool} (hrx : ∀ b ∈ rx, b = false) :
    AllNonneg (channelLlrs LlrArith.exact lc rx) :=
  List.forall_mem_map.mpr fun b hb => by rwa [hrx b hb]

theorem allNonneg_maskRow (row : List Bool) {vals : List Rat} (h : AllNonneg vals) :
    AllNonneg (maskRow LlrArith.exact row vals) := by
  intro x hx
  obtain ⟨k, hk, rfl⟩ := List.mem_iff_getElem.mp hx
  simp only [length_maskRow, lt_min_iff] at hk
  obtain ⟨-, hk⟩ := hk
  simp only [maskRow, List.getElem_zipWith]
  split
  · exact h _ (List.getElem_mem hk)
  · exact le_rfl

theorem allNonneg_otherMessages (row : List Bool) {v : List Rat} (h : AllNonneg v) (j : Nat) :
    AllNonneg (otherMessages LlrArith.exact row v j) :=
  List.forall_mem_map.mpr fun k _ => h.getD k

/-- Messages none of which is negative make a message that is not negative (R284). -/
theorem checkMessage_nonneg {d : Rat} (hd : 0 < d) {ms : List Rat} (h : AllNonneg ms) :
    0 ≤ checkMessage LlrArith.exact d ms := by
  have hneg : (ms.filter fun m => decide (m < 0)) = [] :=
    List.filter_eq_nil_iff.mpr fun m hm => by simpa using h m hm
  have hmin : 0 ≤ minAbs LlrArith.exact ms := by
    by_cases hne : ms = []
    · rw [hne]
      exact le_rfl
    · obtain ⟨-, m, -, heq⟩ := exact_minAbs_spec hne
      exact heq ▸ abs_nonneg m
  rw [exact_checkMessage, hneg, if_neg (by decide)]
  exact mul_nonneg hmin hd.le

theorem allNonneg_checkRow {d : Rat} (hd : 0 < d) (row : List Bool) {v : List Rat} (h : AllNonneg v) :
    AllNonneg (checkRow LlrArith.exact d row v) :=
  List.forall_mem_map.mpr fun j _ => by
    split
    · exact checkMessage_nonneg hd (allNonneg_otherMessages row h j)
    · exact le_rfl

theorem beliefOf_nonneg (h : List (List Bool)) {c2v : List (List Rat)} (hc : ∀ row ∈ c2v, AllNonneg row) {ch : Rat}
    (hch : 0 ≤ ch) (j : Nat) : 0 ≤ beliefOf LlrArith.exact h c2v ch j := by
  refine List.foldlRecOn (motive := fun x : Rat => 0 ≤ x) _ _ hch fun acc hacc r hr => ?_
  split
  · exact add_nonneg hacc ((hc _ (List.of_mem_zip hr).2).getD j)
  · exact hacc

theorem rowSyndrome_of_false (row : List Bool) {hd : List Bool} (h : ∀ b ∈ hd, b = false) :
    rowSyndrome row hd = false := by
  refine List.foldlRecOn (motive := fun b : Bool => b = false) _ _ rfl fun acc hacc b hb => ?_
  obtain ⟨k, hk, rfl⟩ := List.mem_iff_getElem.mp hb
  rw [List.getElem_zipWith, h _ (List.getElem_mem _), Bool.and_false, hacc, Bool.xor_false]

section Iteration

variable {c : LdpcConfig Rat} (hlc : 0 ≤ c.lc) (hrx : ∀ b ∈ c.rx, b = false) (hd : 0 < c.damp)
  {v : List (List Rat)} (hv : ∀ row ∈ v, AllNonneg row) (count : Word)

include hlc hrx

theorem allNonneg_startMessages : ∀ row ∈ startMessages LlrArith.exact c, AllNonneg row :=
  List.forall_mem_map.mpr fun row _ => allNonneg_maskRow row (allNonneg_channelLlrs hlc hrx)

include hd hv

/-- From messages none of which is negative every decision is 0. -/
theorem hd_ldpcIterate_of_nonneg : ∀ b ∈ (ldpcIterate LlrArith.exact c v count).hd, b = false := by
  have hc2v : ∀ row ∈ List.zipWith (checkRow LlrArith.exact c.damp) c.h v, AllNonneg row := fun row hrow => by
    obtain ⟨r, hr, rfl⟩ := List.mem_iff_getElem.mp hrow
    rw [List.getElem_zipWith]
    exact allNonneg_checkRow hd _ (hv _ (List.getElem_mem _))
  refine List.forall_mem_map.mpr fun b hb => ?_
  obtain ⟨j, hj, rfl⟩ := List.mem_mapIdx.mp hb
  exact decide_eq_false
    (not_lt.mpr (beliefOf_nonneg c.h hc2v (allNonneg_channelLlrs hlc hrx _ (List.getElem_mem hj)) j))

theorem syn_ldpcIterate_of_nonneg : ∀ b ∈ (ldpcIterate LlrArith.exact c v count).syn, b = false :=
  List.forall_mem_map.mpr fun row _ => rowSyndrome_of_false row (hd_ldpcIterate_of_nonneg hlc hrx hd hv count)

theorem conv_ldpcIterate_of_nonneg : (ldpcIterate LlrArith.exact c v count).conv = true :=
  List.all_eq_true.mpr fun b hb => by rw [syn_ldpcIterate_of_nonneg hlc hrx hd hv count b hb, Bool.not_false]

end Iteration

/-- Settles O46: from the channel of the all-zero word no message is negative, so the first iteration decides 0
everywhere and stops the loop. -/
theorem ldpcAllZeroWordConvergesAtOnce : Obligations.LdpcAllZeroWordConvergesAtOnce := by
  unfold Obligations.LdpcAllZeroWordConvergesAtOnce
  intro s hlegal hlc hzero
  obtain ⟨-, -, -, -, -, hdamp, -⟩ := id hlegal
  have hd : 0 < (ldpcConfig s).damp := of_decide_eq_true hdamp
  have hrx : ∀ b ∈ (ldpcConfig s).rx, b = false :=
    List.forall_mem_map.mpr fun j hj => hzero j (List.mem_range.mp hj)
  have hv := allNonneg_startMessages (c := ldpcConfig s) hlc hrx
  have hdecode : ldpcDecode .ldpcBp s =
      ldpcIterate LlrArith.exact (ldpcConfig s) (startMessages LlrArith.exact (ldpcConfig s)) 0#32 :=
    ldpcMore_of_conv _ _ (conv_ldpcIterate_of_nonneg hlc hrx hd hv 0#32) _
  rw [exec_eq_execOn]
  refine ⟨_, execOn_ldpc (.inl rfl) hlegal, rfl, ?_, ?_, ?_, ?_⟩ <;> rw [hdecode]
  · rfl
  · exact conv_ldpcIterate_of_nonneg hlc hrx hd hv 0#32
  · exact packBits_of_false 256 (hd_ldpcIterate_of_nonneg hlc hrx hd hv 0#32)
  · exact packBits_of_false 256 (syn_ldpcIterate_of_nonneg hlc hrx hd hv 0#32)

end Sys2Proof.Machine

/-! ### The polar encoder (R340, R341) -/

namespace Sys2Proof.Machine

open Spec (parity polarEntry polarCode)

theorem parity_succ (n : Nat) (f : Nat → Bool) : parity (n + 1) f = (parity n f ^^ f n) := by
  rw [parity, List.range_succ, List.foldl_append]
  rfl

theorem parity_add (m n : Nat) (f : Nat → Bool) :
    parity (m + n) f = (parity m f ^^ parity n fun i => f (m + i)) := by
  induction n with
  | zero => exact (Bool.xor_false _).symm
  | succ n ih => rw [← Nat.add_assoc, parity_succ, parity_succ, ih, Bool.xor_assoc]

@[simp] theorem parity_false (n : Nat) : (parity n fun _ => false) = false := by
  induction n with
  | zero => rfl
  | succ n ih => rw [parity_succ, ih, Bool.xor_false]

section Blocks

variable {n i j : Nat} (hi : i < 2 ^ n) (hj : j < 2 ^ n)

include hi hj

/-- An entry of a Kronecker product is the product of its factors' entries (R340). -/
theorem polarEntry_two_pow_mul_add (a b : Nat) :
    polarEntry (2 ^ n * a + i) (2 ^ n * b + j) = (polarEntry a b && polarEntry i j) := by
  have hn := Nat.two_pow_pos n
  rw [polarEntry, polarEntry, polarEntry, ← Bool.decide_and, decide_eq_decide, Nat.ext_div_mod_iff (2 ^ n),
    Nat.and_div_two_pow, Nat.and_mod_two_pow, Nat.mul_add_div hn, Nat.mul_add_div hn, Nat.mul_add_mod,
    Nat.mul_add_mod, Nat.div_eq_of_lt hi, Nat.div_eq_of_lt hj, Nat.mod_eq_of_lt hi, Nat.mod_eq_of_lt hj,
    Nat.add_zero, Nat.add_zero]

theorem polarEntry_upper_right : polarEntry i (2 ^ n + j) = false := by
  simpa [show polarEntry 0 1 = false from rfl] using polarEntry_two_pow_mul_add hi hj 0 1

theorem polarEntry_lower_left : polarEntry (2 ^ n + i) j = polarEntry i j := by
  simpa [show polarEntry 1 0 = true from rfl] using polarEntry_two_pow_mul_add hi hj 1 0

theorem polarEntry_lower_right : polarEntry (2 ^ n + i) (2 ^ n + j) = polarEntry i j := by
  simpa [show polarEntry 1 1 = true from rfl] using polarEntry_two_pow_mul_add hi hj 1 1

end Blocks

theorem polarCode_congr {n : Nat} {u v : Nat → Bool} (h : ∀ i, i < 2 ^ n → u i = v i) (j : Nat) :
    polarCode n u j = polarCode n v j :=
  parity_congr fun i hi => by rw [h i hi]

theorem polarCode_zero (u : Nat → Bool) : polarCode 0 u 0 = u 0 := by
  simp [polarCode, parity, polarEntry]

/-- The first half of a codeword is the sum of the codewords of both halves of u. -/
theorem polarCode_succ_of_lt {n j : Nat} (hj : j < 2 ^ n) (u : Nat → Bool) :
    polarCode (n + 1) u j = (polarCode n u j ^^ polarCode n (fun i => u (2 ^ n + i)) j) := by
  rw [polarCode, Nat.pow_succ, Nat.mul_two, parity_add]
  exact congrArg _ (parity_congr fun i hi => by rw [polarEntry_lower_left hi hj])

/-- The second half of a codeword is the codeword of the second half of u. -/
theorem polarCode_succ_add {n j : Nat} (hj : j < 2 ^ n) (u : Nat → Bool) :
    polarCode (n + 1) u (2 ^ n + j) = polarCode n (fun i => u (2 ^ n + i)) j := by
  have hupper : (parity (2 ^ n) fun i => u i && polarEntry i (2 ^ n + j)) = false := by
    rw [← parity_false (2 ^ n)]
    exact parity_congr fun i hi => by rw [polarEntry_upper_right hi hj, Bool.and_false]
  rw [polarCode, Nat.pow_succ, Nat.mul_two, parity_add, hupper, Bool.false_xor]
  exact parity_congr fun i hi => by rw [polarEntry_lower_right hi hj]

end Sys2Proof.Machine

/-! ### The SC recursion (R322 to R325) -/

namespace Sys2Proof.Machine

open Spec (polarCode sc)

/-- What holds at the positions of both halves of a block holds at all of them. -/
theorem forall_lt_two_pow_succ {n : Nat} {p : Nat → Prop} (hup : ∀ j, j < 2 ^ n → p j)
    (hlow : ∀ j, j < 2 ^ n → p (2 ^ n + j)) (j : Nat) (hj : j < 2 ^ (n + 1)) : p j := by
  rw [Nat.pow_succ] at hj
  by_cases h : j < 2 ^ n
  · exact hup j h
  · rw [← Nat.add_sub_cancel' (not_lt.mp h)]
    exact hlow _ (by omega)

section Recursion

variable (fz : Nat → Bool) (n : Nat) (lv : Nat → Int) (off : Nat)

/-- The upper half of a block of 2^(n+1) LLRs, decided from their f values (R325). -/
def scUpper : (Nat → Bool) × (Nat → Bool) := sc fz n (fun i => Spec.polarF (lv i) (lv (i + 2 ^ n))) off

/-- The lower half, decided from their g values (R325). -/
def scLower : (Nat → Bool) × (Nat → Bool) :=
  sc fz n (fun i => Spec.polarG (lv i) (lv (i + 2 ^ n)) ((scUpper fz n lv off).2 i)) (off + 2 ^ n)

theorem sc_zero :
    sc fz 0 lv off = (fun _ => !fz off && decide (lv 0 < 0), fun _ => !fz off && decide (lv 0 < 0)) := rfl

theorem sc_succ : sc fz (n + 1) lv off =
    (fun i => if i < 2 ^ n then (scUpper fz n lv off).1 i else (scLower fz n lv off).1 (i - 2 ^ n),
      fun i => if i < 2 ^ n then ((scUpper fz n lv off).2 i ^^ (scLower fz n lv off).2 i)
        else (scLower fz n lv off).2 (i - 2 ^ n)) := rfl

variable {n}

theorem sc_succ_of_lt {j : Nat} (hj : j < 2 ^ n) :
    (sc fz (n + 1) lv off).1 j = (scUpper fz n lv off).1 j ∧
      (sc fz (n + 1) lv off).2 j = ((scUpper fz n lv off).2 j ^^ (scLower fz n lv off).2 j) := by
  simp [sc_succ, hj]

theorem sc_succ_add (j : Nat) :
    (sc fz (n + 1) lv off).1 (2 ^ n + j) = (scLower fz n lv off).1 j ∧
      (sc fz (n + 1) lv off).2 (2 ^ n + j) = (scLower fz n lv off).2 j := by
  simp [sc_succ]

/-- A frozen position decides 0 (R328). -/
theorem sc_fst_of_frozen : ∀ j, j < 2 ^ n → fz (off + j) = true → (sc fz n lv off).1 j = false := by
  induction n generalizing lv off with
  | zero =>
    intro j hj h
    obtain rfl : j = 0 := Nat.lt_one_iff.mp hj
    rw [Nat.add_zero] at h
    rw [sc_zero, h, Bool.not_true, Bool.false_and]
  | succ n ih =>
    refine forall_lt_two_pow_succ (fun j hj h => ?_) (fun j hj h => ?_)
    · rw [(sc_succ_of_lt fz lv off hj).1]
      exact ih _ _ j hj h
    · rw [(sc_succ_add fz lv off j).1]
      exact ih _ _ j hj (by rwa [Nat.add_assoc])

/-- The recursion's return value is the encoding of the decided bits (R328). -/
theorem sc_snd_eq_polarCode : ∀ j, j < 2 ^ n → (sc fz n lv off).2 j = polarCode n (sc fz n lv off).1 j := by
  induction n generalizing lv off with
  | zero =>
    intro j hj
    obtain rfl : j = 0 := Nat.lt_one_iff.mp hj
    exact (polarCode_zero _).symm
  | succ n ih =>
    have hlow : (fun i => (sc fz (n + 1) lv off).1 (2 ^ n + i)) = (scLower fz n lv off).1 :=
      funext fun i => (sc_succ_add fz lv off i).1
    refine forall_lt_two_pow_succ (fun j hj => ?_) (fun j hj => ?_)
    · rw [polarCode_succ_of_lt hj, hlow, (sc_succ_of_lt fz lv off hj).2,
        polarCode_congr (fun i hi => (sc_succ_of_lt fz lv off hi).1)]
      exact congrArg₂ _ (ih _ _ j hj) (ih _ _ j hj)
    · rw [polarCode_succ_add hj, hlow, (sc_succ_add fz lv off j).2]
      exact ih _ _ j hj

end Recursion

/-! #### Clean codewords -/

/-- The LLR of a bit received with reliability c (R322). -/
def polarLlr (c : Int) (b : Bool) : Int := if b then -c else c

section Clean

variable {c : Int} (hc : 0 < c)

include hc

theorem polarLlr_lt_zero (b : Bool) : decide (polarLlr c b < 0) = b := by
  cases b <;> simp [polarLlr, hc, hc.le]

/-- f of the LLRs of two bits is the LLR of their sum, equally reliable. -/
theorem polarF_polarLlr (a b : Bool) :
    Spec.polarF (polarLlr c a) (polarLlr c b) = polarLlr c (a ^^ b) := by
  cases a <;> cases b <;> simp [Spec.polarF, polarLlr, hc, hc.ne', hc.le, abs_of_pos hc]

omit hc in
/-- g of the LLRs of a ⊕ b and b, with a known, is the LLR of b, twice as reliable. -/
theorem polarG_polarLlr (a b : Bool) :
    Spec.polarG (polarLlr c (a ^^ b)) (polarLlr c b) a = polarLlr (2 * c) b := by
  cases a <;> cases b <;> simp [Spec.polarG, Spec.bit, polarLlr] <;> ring

end Clean

/-- The recursion recovers u from the LLRs of its codeword, whatever their common reliability: the f values are
those of the first half's codeword, and the g values, its partial sums being right, those of the second half's. -/
theorem sc_fst_of_codeword (fz : Nat → Bool) {n : Nat} {c : Int} (hc : 0 < c) {lv : Nat → Int} {off : Nat}
    {u : Nat → Bool} (hfz : ∀ j, j < 2 ^ n → fz (off + j) = true → u j = false)
    (hlv : ∀ j, j < 2 ^ n → lv j = polarLlr c (polarCode n u j)) :
    ∀ j, j < 2 ^ n → (sc fz n lv off).1 j = u j := by
  induction n generalizing c lv off u with
  | zero =>
    intro j hj
    obtain rfl : j = 0 := Nat.lt_one_iff.mp hj
    have hfrozen : fz off = true → u 0 = false := hfz 0 hj
    rw [sc_zero, hlv 0 hj, polarCode_zero, polarLlr_lt_zero hc]
    cases h : fz off
    · exact Bool.true_and _
    · exact (hfrozen h).symm
  | succ n ih =>
    have hlt {j : Nat} (hj : j < 2 ^ n) : 2 ^ n + j < 2 ^ (n + 1) := by
      rw [Nat.pow_succ]
      omega
    have hup {j : Nat} (hj : j < 2 ^ n) : lv j =
        polarLlr c (polarCode n u j ^^ polarCode n (fun i => u (2 ^ n + i)) j) := by
      rw [hlv j (Nat.lt_of_le_of_lt (Nat.le_add_left _ _) (hlt hj)), polarCode_succ_of_lt hj]
    have hlow {j : Nat} (hj : j < 2 ^ n) : lv (j + 2 ^ n) = polarLlr c (polarCode n (fun i => u (2 ^ n + i)) j) := by
      rw [Nat.add_comm, hlv _ (hlt hj), polarCode_succ_add hj]
    have hupper : ∀ j, j < 2 ^ n → (scUpper fz n lv off).1 j = u j := by
      refine ih hc (fun j hj => hfz j (Nat.lt_of_le_of_lt (Nat.le_add_left _ _) (hlt hj))) fun j hj => ?_
      rw [hup hj, hlow hj, polarF_polarLlr hc, Bool.xor_assoc, Bool.xor_self, Bool.xor_false]
    have hsums : ∀ j, j < 2 ^ n → (scUpper fz n lv off).2 j = polarCode n u j := fun j hj =>
      (sc_snd_eq_polarCode fz _ _ j hj).trans (polarCode_congr hupper j)
    refine forall_lt_two_pow_succ (fun j hj => ?_) (fun j hj => ?_)
    · rw [(sc_succ_of_lt fz lv off hj).1, hupper j hj]
    · rw [(sc_succ_add fz lv off j).1]
      refine ih (c := 2 * c) (u := fun i => u (2 ^ n + i)) (by omega)
        (fun i hi h => hfz _ (hlt hi) (by rwa [← Nat.add_assoc])) (fun i hi => ?_) j hj
      rw [hup hi, hlow hi, hsums i hi, polarG_polarLlr]

/-! #### Two LLRs (R323, R324) -/

theorem polarG_polarLlr_lt_zero (a b u : Bool) :
    decide (Spec.polarG (polarLlr 1 a) (polarLlr 1 b) u < 0) = if u then !a && b else a && b := by
  revert a b u
  decide

/-- The two decisions at N = 2 from received bits. -/
theorem sc_one_fst (fz rx : Nat → Bool) :
    let d := sc fz 1 (fun j => polarLlr 1 (rx j)) 0
    d.1 0 = (!fz 0 && (rx 0 ^^ rx 1)) ∧
      d.1 1 = (!fz 1 && (if d.1 0 then !rx 0 && rx 1 else rx 0 && rx 1)) := by
  have h0 : (scUpper fz 0 (fun j => polarLlr 1 (rx j)) 0).1 0 = (!fz 0 && (rx 0 ^^ rx 1)) := by
    rw [scUpper, sc_zero]
    dsimp only
    rw [polarF_polarLlr Int.one_pos, polarLlr_lt_zero Int.one_pos, Nat.zero_add, Nat.pow_zero]
  have h1 : (sc fz 1 (fun j => polarLlr 1 (rx j)) 0).1 0 = (!fz 0 && (rx 0 ^^ rx 1)) := h0
  refine ⟨h1, ?_⟩
  rw [← polarG_polarLlr_lt_zero]
  rfl

end Sys2Proof.Machine

/-! ### The decoder's lists (R325) -/

namespace Sys2Proof.Machine

open Spec (sc)

theorem polarF_eq_specPolarF : polarF = Spec.polarF := by
  funext a b
  rw [polarF_eq, Spec.polarF]
  rcases lt_trichotomy a 0 with ha | rfl | ha
  · rcases lt_trichotomy b 0 with hb | rfl | hb
    · simp [Int.sign_eq_neg_one_of_neg, ha, hb, ha.ne, hb.ne]
    · simp
    · simp [Int.sign_eq_neg_one_of_neg, Int.sign_eq_one_of_pos, ha, hb, ha.ne, hb.ne', hb.le]
  · simp
  · rcases lt_trichotomy b 0 with hb | rfl | hb
    · simp [Int.sign_eq_neg_one_of_neg, Int.sign_eq_one_of_pos, ha, hb, ha.ne', hb.ne, ha.le]
    · simp
    · simp [Int.sign_eq_one_of_pos, ha, hb, ha.ne', hb.ne', ha.not_gt, hb.not_gt]

theorem polarG_eq_specPolarG : polarG = Spec.polarG := by
  funext a b u
  rw [polarG_eq]
  cases u
  · simp [Spec.polarG, Spec.bit]
  · simp [Spec.polarG, Spec.bit]
    ring

/-- The list of the values of a function at the positions of a block. -/
def blockList {α : Type} (n : Nat) (f : Nat → α) : List α := (List.range (2 ^ n)).map f

section Blocks

variable {α β γ δ : Type} (n : Nat)

@[simp] theorem length_blockList (f : Nat → α) : (blockList n f).length = 2 ^ n := by simp [blockList]

theorem getD_blockList (f : Nat → Bool) (j : Nat) : (blockList n f).getD j false = (decide (j < 2 ^ n) && f j) := by
  by_cases hj : j < 2 ^ n <;> simp [blockList, hj]

theorem blockList_succ (f : Nat → α) :
    blockList (n + 1) f = blockList n f ++ blockList n fun i => f (i + 2 ^ n) := by
  simp only [blockList, Nat.pow_succ, Nat.mul_two, List.range_add, List.map_append, List.map_map, Function.comp_def,
    Nat.add_comm]

theorem blockList_congr {f g : Nat → α} (h : ∀ i, i < 2 ^ n → f i = g i) : blockList n f = blockList n g :=
  List.map_congr_left fun i hi => h i (List.mem_range.mp hi)

theorem blockList_append (f g : Nat → α) :
    blockList n f ++ blockList n g = blockList (n + 1) fun i => if i < 2 ^ n then f i else g (i - 2 ^ n) := by
  rw [blockList_succ]
  exact congrArg₂ _ (blockList_congr n fun i hi => (if_pos hi).symm) (blockList_congr n fun i _ => by simp)

theorem take_blockList (f : Nat → α) : (blockList (n + 1) f).take (2 ^ n) = blockList n f := by
  rw [blockList_succ, List.take_left' (length_blockList n f)]

theorem drop_blockList (f : Nat → α) : (blockList (n + 1) f).drop (2 ^ n) = blockList n fun i => f (i + 2 ^ n) := by
  rw [blockList_succ, List.drop_left' (length_blockList n f)]

theorem zipWith_blockList (k : α → β → γ) (f : Nat → α) (g : Nat → β) :
    List.zipWith k (blockList n f) (blockList n g) = blockList n fun i => k (f i) (g i) := by
  simp [blockList, List.zipWith_map]

theorem zipWith3_blockList (k : α → β → γ → δ) (f : Nat → α) (g : Nat → β) (h : Nat → γ) :
    List.zipWith3 k (blockList n f) (blockList n g) (blockList n h) = blockList n fun i => k (f i) (g i) (h i) := by
  rw [← zipWith_blockList n (fun k' c => k' c) (fun i => k (f i) (g i)) h, ← zipWith_blockList n k,
    List.zipWith_zipWith_left]

end Blocks

/-- The decoder on lists is the recursion on positions (R325). -/
theorem polarSc_blockList (frozen : BitVec 1024) (n : Nat) (lv : Nat → Int) (off : Nat) :
    polarSc frozen n (blockList n lv) off =
      (blockList n (sc frozen.getLsbD n lv off).1, blockList n (sc frozen.getLsbD n lv off).2) := by
  induction n generalizing lv off with
  | zero => rfl
  | succ n ih =>
    simp only [polarSc, take_blockList, drop_blockList, zipWith_blockList, zipWith3_blockList, ih, blockList_append,
      polarF_eq_specPolarF, polarG_eq_specPolarG]
    rfl

end Sys2Proof.Machine

/-! ### POLAR.SC (R326, R327) -/

namespace Sys2Proof.Machine

open Spec (sc polarCode)

variable {L : Type} {P : LlrParam L} (s : State L P)

/-- The decisions and the partial sums of the recursion on the received word (R325, R326). -/
def polarDecisions : (Nat → Bool) × (Nat → Bool) :=
  sc s.mem.polarFrozen.getLsbD (polarLogn s) (fun j => polarLlr 1 (s.mem.polarRx.getLsbD j)) 0

theorem polarDecisions_snd_eq_polarCode {j : Nat} (hj : j < 2 ^ polarLogn s) :
    (polarDecisions s).2 j = polarCode (polarLogn s) (polarDecisions s).1 j :=
  sc_snd_eq_polarCode _ _ _ j hj

/-- The information positions of the block (R320). -/
def polarInfo : List Nat := infoPositions s.mem.polarFrozen (2 ^ polarLogn s)

/-- The outputs of R327. -/
def polarWrite : State L P :=
  { s.withMem
      { s.mem with
        polarUhat := packBits 1024 (polarDecoded s).1
        polarXhat := packBits 1024 (polarDecoded s).2
        polarMsg := packBits 1024 ((polarInfo s).map fun j => (polarDecoded s).1.getD j false) } with
    polarKinfo := BitVec.ofNat 11 (polarInfo s).length }

theorem polarDecoded_eq_blockList :
    polarDecoded s = (blockList (polarLogn s) (polarDecisions s).1, blockList (polarLogn s) (polarDecisions s).2) := by
  have hllrs : polarLlrs (bitList s.mem.polarRx (2 ^ polarLogn s)) =
      blockList (polarLogn s) fun j => polarLlr 1 (s.mem.polarRx.getLsbD j) := List.map_map
  rw [polarDecoded, hllrs, polarSc_blockList]
  rfl

theorem length_polarInfo_le : (polarInfo s).length ≤ 2 ^ polarLogn s := length_infoPositions_le _ _

section Command

variable [DecidableEq L] [Inhabited L] {s}

theorem execOn_polarSc (h : polarLogn s ≤ s.params.polarLognMax) :
    execOn .polarSc s = .next (complete .ok (polarWrite s)) := execOn_of_ok (if_pos h)

theorem execOn_polarSc_of_lt (h : s.params.polarLognMax < polarLogn s) :
    execOn .polarSc s = .next (complete .input s) := execOn_of_error (if_neg (not_le.mpr h))

end Command

section Outputs

variable {s}

/-- The largest polar block fits its arrays (R33, R321). -/
theorem two_pow_polarLogn_le_of_inv [DecidableEq L] [Inhabited L] (hs : s.inv = true)
    (h : polarLogn s ≤ s.params.polarLognMax) : 2 ^ polarLogn s ≤ 1024 := by
  obtain ⟨hp, -⟩ := (state_inv_iff s).mp hs
  obtain ⟨-, -, -, -, -, hmax⟩ := (params_legal_iff s.params).mp hp
  exact Nat.pow_le_pow_right (by decide) (h.trans hmax)

variable (hfit : 2 ^ polarLogn s ≤ 1024)

include hfit

theorem polarUhat_polarWrite_eq_getD (j : Nat) :
    (polarWrite s).mem.polarUhat.getLsbD j = (polarDecoded s).1.getD j false := by
  obtain ⟨hlen, -⟩ := length_polarDecoded s
  exact getLsbD_packBits_of_length_le (hlen.trans_le hfit) j

theorem getLsbD_polarUhat_polarWrite (j : Nat) : (polarWrite s).mem.polarUhat.getLsbD j =
    (decide (j < 2 ^ polarLogn s) && (polarDecisions s).1 j) := by
  rw [polarUhat_polarWrite_eq_getD hfit, polarDecoded_eq_blockList, getD_blockList]

theorem getLsbD_polarXhat_polarWrite (j : Nat) : (polarWrite s).mem.polarXhat.getLsbD j =
    (decide (j < 2 ^ polarLogn s) && (polarDecisions s).2 j) := by
  obtain ⟨-, hlen⟩ := length_polarDecoded s
  have hxhat : (polarWrite s).mem.polarXhat.getLsbD j = (polarDecoded s).2.getD j false :=
    getLsbD_packBits_of_length_le (hlen.trans_le hfit) j
  rw [hxhat, polarDecoded_eq_blockList, getD_blockList]

/-- Inside the block û and x̂ are what the recursion decides and returns. -/
theorem polarWrite_of_lt {j : Nat} (hj : j < 2 ^ polarLogn s) :
    (polarWrite s).mem.polarUhat.getLsbD j = (polarDecisions s).1 j ∧
      (polarWrite s).mem.polarXhat.getLsbD j = (polarDecisions s).2 j := by
  rw [getLsbD_polarUhat_polarWrite hfit, getLsbD_polarXhat_polarWrite hfit, decide_eq_true hj, Bool.true_and,
    Bool.true_and]
  exact ⟨rfl, rfl⟩

theorem polarUhat_polarWrite_of_ge {j : Nat} (hj : 2 ^ polarLogn s ≤ j) :
    (polarWrite s).mem.polarUhat.getLsbD j = false := by
  rw [getLsbD_polarUhat_polarWrite hfit, decide_eq_false (not_lt.mpr hj), Bool.false_and]

theorem polarUhat_polarWrite_of_frozen {j : Nat} (h : s.mem.polarFrozen.getLsbD j = true) :
    (polarWrite s).mem.polarUhat.getLsbD j = false := by
  rw [getLsbD_polarUhat_polarWrite hfit]
  by_cases hj : j < 2 ^ polarLogn s
  · rw [polarDecisions, sc_fst_of_frozen _ _ _ j hj (by rwa [Nat.zero_add]), Bool.and_false]
  · rw [decide_eq_false hj, Bool.false_and]

theorem polarXhat_polarWrite_eq_polarCode (j : Nat) : (polarWrite s).mem.polarXhat.getLsbD j =
    (decide (j < 2 ^ polarLogn s) && polarCode (polarLogn s) (polarWrite s).mem.polarUhat.getLsbD j) := by
  rw [getLsbD_polarXhat_polarWrite hfit]
  by_cases hj : j < 2 ^ polarLogn s
  · rw [polarCode_congr fun i hi => (polarWrite_of_lt hfit hi).1, polarDecisions_snd_eq_polarCode s hj]
  · rw [decide_eq_false hj, Bool.false_and, Bool.false_and]

theorem getLsbD_polarMsg_polarWrite (k : Nat) : (polarWrite s).mem.polarMsg.getLsbD k =
    (decide (k < (polarInfo s).length) && (polarWrite s).mem.polarUhat.getLsbD ((polarInfo s).getD k 0)) := by
  have hinfo := length_polarInfo_le s
  have hmsg : (polarWrite s).mem.polarMsg.getLsbD k =
      ((polarInfo s).map fun j => (polarDecoded s).1.getD j false).getD k false :=
    getLsbD_packBits_of_length_le (by simpa using hinfo.trans hfit) k
  rw [hmsg, polarUhat_polarWrite_eq_getD hfit]
  by_cases hk : k < (polarInfo s).length <;> simp [hk]

theorem toNat_polarKinfo_polarWrite : (polarWrite s).polarKinfo.toNat = (polarInfo s).length := by
  have hinfo := length_polarInfo_le s
  rw [polarWrite, BitVec.toNat_ofNat, Nat.mod_eq_of_lt (by omega)]

end Outputs

/-- Settles O47: the rule's check is the one of R321. -/
theorem polarInputCheck : Obligations.PolarInputCheck := by
  unfold Obligations.PolarInputCheck
  exact (onEveryCore_iff _).mpr fun L _ _ P _ s =>
    ⟨fun h => execOn_polarSc_of_lt h, fun h => ⟨_, execOn_polarSc h, rfl⟩⟩

/-- Settles O48: what R327 writes, read back; x̂ is the encoding of û because the recursion's return value is. -/
theorem polarOutputsAreConsistent : Obligations.PolarOutputsAreConsistent := by
  unfold Obligations.PolarOutputsAreConsistent
  refine (onEveryCore_iff _).mpr fun L _ _ P _ s hs hn => ?_
  have hfit := two_pow_polarLogn_le_of_inv hs hn
  exact ⟨_, execOn_polarSc hn, rfl, fun j => polarUhat_polarWrite_of_frozen hfit,
    fun j hj => polarUhat_polarWrite_of_ge hfit hj,
    polarXhat_polarWrite_eq_polarCode hfit, getLsbD_polarMsg_polarWrite hfit, toNat_polarKinfo_polarWrite hfit⟩

/-- Settles O49: the decoder's lists are the recursion's functions; at N = 1 and N = 2 the recursion is written
out. -/
theorem polarDecisionsFollowTheRecursion : Obligations.PolarDecisionsFollowTheRecursion := by
  unfold Obligations.PolarDecisionsFollowTheRecursion
  refine (onEveryCore_iff _).mpr fun L _ _ P _ s hs => ⟨fun hn => ?_, fun h0 => ?_, fun h1 hmax => ?_⟩
  · exact ⟨_, execOn_polarSc hn, fun j hj => polarWrite_of_lt (two_pow_polarLogn_le_of_inv hs hn) hj⟩
  · have hlogn : polarLogn s = 0 := by rw [polarLogn, h0]; rfl
    have hn : polarLogn s ≤ s.params.polarLognMax := hlogn ▸ Nat.zero_le _
    refine ⟨_, execOn_polarSc hn, ?_⟩
    obtain ⟨huhat, -⟩ := polarWrite_of_lt (two_pow_polarLogn_le_of_inv hs hn) (Nat.two_pow_pos _)
    refine huhat.trans ?_
    rw [polarDecisions, hlogn, sc_zero, polarLlr_lt_zero Int.one_pos]
  · have hlogn : polarLogn s = 1 := by rw [polarLogn, h1]; rfl
    have hn : polarLogn s ≤ s.params.polarLognMax := hlogn ▸ hmax
    have hfit := two_pow_polarLogn_le_of_inv hs hn
    refine ⟨_, execOn_polarSc hn, ?_⟩
    obtain ⟨huhat0, -⟩ := polarWrite_of_lt (j := 0) hfit (by rw [hlogn]; decide)
    obtain ⟨huhat1, -⟩ := polarWrite_of_lt (j := 1) hfit (by rw [hlogn]; decide)
    rw [complete_mem, huhat0, huhat1, polarDecisions, hlogn]
    exact sc_one_fst _ _

/-- Settles O50: the LLRs of a codeword decode to its u, and the partial sums encode u again. -/
theorem polarDecodesCleanCodewords : Obligations.PolarDecodesCleanCodewords := by
  unfold Obligations.PolarDecodesCleanCodewords
  refine (onEveryCore_iff _).mpr fun L _ _ P _ s u hs hn => ?_
  intro n hfz hrx
  have hu : ∀ j, j < 2 ^ n → (polarDecisions s).1 j = u j :=
    sc_fst_of_codeword _ Int.one_pos (fun j hj => by rw [Nat.zero_add]; exact hfz j hj) fun j hj => by rw [hrx j hj]
  refine ⟨_, execOn_polarSc hn, fun j hj => ?_⟩
  obtain ⟨huhat, hxhat⟩ := polarWrite_of_lt (two_pow_polarLogn_le_of_inv hs hn) hj
  refine ⟨huhat.trans (hu j hj), ?_⟩
  calc (polarWrite s).mem.polarXhat.getLsbD j = (polarDecisions s).2 j := hxhat
    _ = polarCode n (polarDecisions s).1 j := polarDecisions_snd_eq_polarCode s hj
    _ = polarCode n u j := polarCode_congr hu j
    _ = s.mem.polarRx.getLsbD j := (hrx j hj).symm

end Sys2Proof.Machine

/-! ### The error codes (R361 to R365) -/

namespace Sys2Proof.Machine

variable {L : Type} [DecidableEq L] [Inhabited L] {P : LlrParam L} {s t : State L P}

/-- A completion with a non-zero code is the error completion, which writes STATUS alone. -/
theorem execOn_eq_complete_of_err {i : Instr} (h : execOn i s = .next t) (herr : t.status.err ≠ .ok) :
    commandRule i s = .error t.status.err ∧ t = complete t.status.err s := by
  rcases execOn_cases i s t h with ⟨s', -, rfl⟩ | ⟨c, hc, rfl⟩
  · exact absurd rfl herr
  · exact ⟨hc, rfl⟩

theorem completion_eq_complete_of_err (h : completion s = .next t) (herr : t.status.err ≠ .ok) :
    t = complete t.status.err s := by
  rcases completion_cases h with ⟨i, -, hexec⟩ | ⟨-, rfl⟩
  · obtain ⟨-, ht⟩ := execOn_eq_complete_of_err hexec herr
    exact ht
  · rfl

/-- Settles O51: an error completion is `complete`, for a command and for an illegal word. -/
theorem errorCompletionWritesStatusOnly : Obligations.ErrorCompletionWritesStatusOnly := by
  unfold Obligations.ErrorCompletionWritesStatusOnly
  refine (onEveryCore_iff _).mpr fun L _ _ P _ s t h herr => ?_
  rcases h with ⟨i, hexec⟩ | hcompl
  · obtain ⟨-, ht⟩ := execOn_eq_complete_of_err hexec herr
    exact ht
  · exact completion_eq_complete_of_err hcompl herr

theorem err_eq_zeroOperand_iff {i : Instr} (h : execOn i s = .next t) :
    t.status.err = .zeroOperand ↔ i = .gfInv ∧ s.gfA = 0#8 := by
  constructor
  · intro herr
    obtain ⟨hrule, -⟩ := execOn_eq_complete_of_err h (by simp [herr])
    simpa [herr] using commandRule_error i s _ hrule
  · rintro ⟨rfl, ha⟩
    obtain rfl := Host.Outcome.next.inj ((execOn_gfInv_of_eq_zero ha).symm.trans h)
    rfl

/-- The code a command completes with, and the commands that can raise it. -/
theorem execOn_err_cases {i : Instr} (h : execOn i s = .next t) :
    t.status.err = .ok ∨ t.status.err = .zeroOperand ∨ (t.status.err = .tooManyErrors ∧ i = .rsBm) ∨
      (t.status.err = .locatorMismatch ∧ i = .rsChien) ∨
      (t.status.err = .input ∧ i ∈ [.rsEnc, .rsSynd, .rsBm, .rsChien, .ldpcBp, .ldpcBpC, .polarSc]) := by
  by_cases hok : t.status.err = .ok
  · exact .inl hok
  obtain ⟨hrule, -⟩ := execOn_eq_complete_of_err h hok
  rcases commandRule_error i s _ hrule with ⟨hc, -⟩ | ⟨hc, hi, -⟩ | ⟨hc, hi, -⟩ | ⟨hc, hi⟩
  · exact .inr (.inl hc)
  · exact .inr (.inr (.inl ⟨hc, hi⟩))
  · exact .inr (.inr (.inr (.inl ⟨hc, hi⟩)))
  · refine .inr (.inr (.inr (.inr ⟨hc, ?_⟩)))
    simp only [List.mem_cons, List.not_mem_nil, or_false]
    exact hi.imp And.left (.imp And.left (.imp And.left (.imp And.left (.imp And.left (.imp And.left And.left)))))

/-- Settles O52, from the codes a command can complete with. -/
theorem eachCodeComesFromItsCommands : Obligations.EachCodeComesFromItsCommands := by
  unfold Obligations.EachCodeComesFromItsCommands
  refine (onEveryCore_iff _).mpr fun L _ _ P _ => ⟨by decide, fun i s t h => ?_⟩
  have hcode : t.status.err.code.toNat ≤ 5 := by cases t.status.err <;> decide
  rw [← err_eq_zeroOperand_iff h]
  rcases execOn_err_cases h with hc | hc | ⟨hc, hi⟩ | ⟨hc, hi⟩ | ⟨hc, hi⟩ <;> rw [hc] at hcode ⊢
  · simp [hcode]
  · simp [hcode]
  · simp [hcode, hi]
  · simp [hcode, hi]
  · exact ⟨by decide, fun _ => hi, Iff.rfl, by simp, by simp, hcode⟩

end Sys2Proof.Machine

/-! ### The interrupt line (R371, R372) -/

namespace Sys2Proof.Machine

variable {L : Type} {P : LlrParam L} {s t : State L P}

theorem irq_of_completesFrom (h : CompletesFrom s t) : irq t = s.irqEn := by
  rw [irq, h.done, h.irqEn, Bool.true_and]

/-- CTRL without IRQ_EN lowers the line, with or without SRST. -/
theorem irq_writeCtrl_of_not_irqEn {w : Word} (h : w.getLsbD 0 = false) (s : State L P) :
    irq (writeCtrl w s) = false := by
  rcases writeCtrl_cases w s with ⟨-, hw⟩ | ⟨-, -, hw⟩ | ⟨-, -, hw⟩
  · rw [hw, h]
    exact Bool.and_false _
  · rw [hw, h]
    exact Bool.and_false _
  · rw [hw]
    rfl

theorem irq_writeCtrl_of_irqEn {w : Word} (hirq : w.getLsbD 0 = true) (hsrst : w.getLsbD 1 = false)
    (hdone : s.status.done = true) : irq (writeCtrl w s) = true := by
  rw [writeCtrl, hsrst, hirq]
  exact (Bool.and_true _).trans hdone

/-- Settles O53: DONE and IRQ_EN after each of the writes, the completions and the resets. -/
theorem interruptRisesAndFalls : Obligations.InterruptRisesAndFalls := by
  unfold Obligations.InterruptRisesAndFalls
  refine (onEveryCore_iff _).mpr fun L _ _ P _ s a v => ⟨rfl, fun t h => ?_, fun hl hw => ?_, fun hl hw => ?_,
    fun hl hb => ?_, rfl, fun _ => rfl, fun hl hdone hirq hsrst => ?_⟩
  · exact irq_of_completesFrom (h.elim (fun ⟨_, hexec⟩ => execOn_completesFrom hexec) completion_completesFrom)
  · simp [regWrite_status v hl, irq, hw]
  · rw [regWrite_ctrl v hl, irq_writeCtrl_of_not_irqEn hw]
  · rw [regWrite_cmd_idle v hl hb]
    rfl
  · rw [regWrite_ctrl v hl, irq_writeCtrl_of_irqEn hirq hsrst hdone]

end Sys2Proof.Machine

/-! ### The hazard flag (R370) -/

namespace Sys2Proof.Machine

variable {L : Type} {P : LlrParam L}

/-- The writes that raise HAZ while BUSY = 1: to CMD, a 1 to CTRL.SRST, to an operand (R370). -/
def violatesBusyWindow (s : State L P) (a : Addr) (v : PortValue L) : Prop :=
  locate s.params a = .cmd ∨ (locate s.params a = .ctrl ∧ (v.toWord P).getLsbD 1 = true) ∨
    Spec.rw (locate s.params a)

/-- The writes that lower HAZ: a 1 to HAZ itself, a soft reset (R37, R401). -/
def clearsHaz (s : State L P) (a : Addr) (v : PortValue L) : Prop :=
  (locate s.params a = .status ∧ (v.toWord P).getLsbD 2 = true) ∨
    (locate s.params a = .ctrl ∧ (v.toWord P).getLsbD 1 = true ∧ s.status.busy = false)

/-- HAZ moves from `s` to `t` as a write of `v` to `a` moves it. -/
def HazAfterWrite (s : State L P) (a : Addr) (v : PortValue L) (t : State L P) : Prop :=
  (s.status.haz = false → (t.status.haz = true ↔ s.status.busy = true ∧ violatesBusyWindow s a v)) ∧
    (s.status.haz = true → (t.status.haz = false ↔ clearsHaz s a v))

theorem hazAfterWrite_ctrl {s : State L P} {a : Addr} (v : PortValue L) (h : locate s.params a = .ctrl) :
    HazAfterWrite s a v (regWrite a v s) := by
  rw [regWrite_ctrl v h]
  rcases writeCtrl_cases (v.toWord P) s with ⟨hw, hs⟩ | ⟨hw, hb, hs⟩ | ⟨hw, hb, hs⟩ <;>
    simp only [HazAfterWrite, violatesBusyWindow, clearsHaz, h, hs, hw]
  · simp +contextual [Spec.rw]
  · simp [hb]
  · simp [hb]

/-- Outside CTRL, STATUS and CMD a write raises HAZ where it reaches an operand with BUSY = 1, and leaves it elsewhere. -/
theorem hazAfterWrite_other {s : State L P} {a : Addr} (v : PortValue L)
    (h : locate s.params a ∉ [.ctrl, .status, .cmd]) : HazAfterWrite s a v (regWrite a v s) := by
  obtain ⟨-, hframe, -⟩ := writeOperand_frame s v (locate s.params a)
  simp only [List.mem_cons, List.not_mem_nil, or_false, not_or] at h
  rw [regWrite_of_other v (by simpa using h)]
  by_cases hop : Spec.rw (locate s.params a) <;> cases hb : s.status.busy <;>
    simp +contextual [HazAfterWrite, violatesBusyWindow, clearsHaz, isOperand_iff_rw, hframe, h, hop, hb]

theorem hazAfterWrite_regWrite (a : Addr) (v : PortValue L) (s : State L P) :
    HazAfterWrite s a v (regWrite a v s) := by
  by_cases hctrl : locate s.params a = .ctrl
  · exact hazAfterWrite_ctrl v hctrl
  by_cases hstatus : locate s.params a = .status
  · simp +contextual [HazAfterWrite, violatesBusyWindow, clearsHaz, Spec.rw, regWrite_status v hstatus, hstatus]
  by_cases hcmd : locate s.params a = .cmd
  · cases hb : s.status.busy
    · simp +contextual [HazAfterWrite, clearsHaz, regWrite_cmd_idle v hcmd hb, hcmd, hb]
    · simp +contextual [HazAfterWrite, violatesBusyWindow, clearsHaz, regWrite_cmd_busy v hcmd hb, hcmd, hb]
  · exact hazAfterWrite_other v (by simp [hctrl, hstatus, hcmd])

variable [DecidableEq L] [Inhabited L]

theorem engineTurn_haz {s t : State L P} (h : engineTurn s = .next t) : t.status.haz = s.status.haz := by
  cases hb : s.status.busy
  · rw [engineTurn, hb, if_neg Bool.false_ne_true] at h
    cases h
    rfl
  · exact (completion_completesFrom ((engineTurn_pending hb).symm.trans h)).haz

/-- HAZ after a step, by its event: a write or the reset input moves it, nothing else does. -/
theorem stepOn_haz {s t : State L P} (h : stepOn s = .next t) :
    (∃ a v es, s.events = .host (.write a v) :: es ∧ HazAfterWrite s a v t) ∨
    (∃ d es, s.events = .rst d :: es ∧ t.status.haz = false) ∨
    ((∀ a v es, s.events ≠ .host (.write a v) :: es) ∧ (∀ d es, s.events ≠ .rst d :: es) ∧
      t.status.haz = s.status.haz) := by
  rcases stepOn_cases s t h with ⟨txn, es, he, rfl⟩ | ⟨d, es, he, rfl⟩ | ⟨es, he, h'⟩ | ⟨he, h'⟩
  · cases txn with
    | read a => exact .inr (.inr ⟨by simp [he], by simp [he], congrArg Status.haz (regRead_status a _)⟩)
    | write a v => exact .inl ⟨a, v, es, he, hazAfterWrite_regWrite a v { s with events := es }⟩
  · exact .inr (.inl ⟨d, es, he, rfl⟩)
  · exact .inr (.inr ⟨by simp [he], by simp [he], engineTurn_haz (s := { s with events := es }) h'⟩)
  · exact .inr (.inr ⟨by simp [he], by simp [he], engineTurn_haz h'⟩)

/-- Settles O54: each event of the order moves HAZ as `stepOn_haz` says. -/
theorem onlyBusyWindowViolationsSetHaz : Obligations.OnlyBusyWindowViolationsSetHaz := by
  unfold Obligations.OnlyBusyWindowViolationsSetHaz
  refine (onEveryCore_iff _).mpr fun L _ _ P _ s t h => ?_
  rcases stepOn_haz h with ⟨a, v, es, he, hset, hclear⟩ | ⟨d, es, he, ht⟩ | ⟨hwrite, hrst, ht⟩
  · refine ⟨fun hz => (hset hz).trans ?_, fun hz => (hclear hz).trans ?_⟩
    · simp [he, violatesBusyWindow]
    · simp [he, clearsHaz]
  · simp [he, ht]
  · simp +contextual [hwrite, hrst, ht]

end Sys2Proof.Machine

/-! ### A command run again (R368) -/

namespace Sys2Proof.Machine

variable {L : Type} [DecidableEq L] [Inhabited L] {P : LlrParam L} {s s' : State L P}

/-- No rule reads STATUS, so it runs the same after a completion. -/
theorem commandRule_complete (i : Instr) (c : ErrCode) (s : State L P) :
    commandRule i (complete c s) = (commandRule i s).map (complete c) := by
  cases i
  case nop | hamEnc | hamEncX | hamDec | hamDecX | gfMul => rfl
  case gfInv | rsEnc | rsSynd | ldpcBp | ldpcBpC | polarSc =>
    simp only [commandRule, gfInvRule, rsEncRule, rsSyndRule, ldpcRule, polarRule, apply_ite (Except.map _)]
    rfl
  case rsBm | rsChien =>
    simp only [commandRule, rsBmRule, rsChienRule, apply_ite (Except.map _)]
    rfl

/-- The same list written again changes nothing. -/
theorem cellSetFrom_cellSetFrom_self {α : Type} [Inhabited α] [DecidableEq α] {valid : Nat → Bool} {c : Cells α}
    {base : Nat} {vs : List α} (hv : ∀ k, k < vs.length → valid (base + k) = true) (hc : cellsWf valid c = true) :
    cellSetFrom (cellSetFrom c base vs) base vs = cellSetFrom c base vs := by
  have hc' := cellSetFrom_wf valid c base vs hv hc
  refine cells_ext valid _ _ (cellSetFrom_wf valid _ base vs hv hc') hc' fun k => ?_
  by_cases hk : k < base ∨ base + vs.length ≤ k
  · exact cellGet_cellSetFrom_of_outside _ _ _ _ hk
  · obtain ⟨m, rfl⟩ := Nat.exists_eq_add_of_le (by omega : base ≤ k)
    have hm : m < vs.length := by omega
    rw [cellGet_cellSetFrom valid _ base vs m default hm hv hc', cellGet_cellSetFrom valid c base vs m default hm hv hc]

/-! #### Each rule, on what it wrote itself -/

omit [DecidableEq L] [Inhabited L] in
theorem gfInvRule_idem (h : gfInvRule s = .ok s') : gfInvRule s' = .ok s' := by
  by_cases ha : s.gfA = 0#8
  · cases (gfInvRule_of_eq_zero ha).symm.trans h
  · cases (gfInvRule_of_ne_zero ha).symm.trans h
    exact gfInvRule_of_ne_zero ha

/-- The parity stands behind the message, which is the same again (R233). -/
theorem rsEncRule_idem (hs : s.inv = true) (h : rsEncRule s = .ok s') : rsEncRule s' = .ok s' := by
  unfold rsEncRule at h
  split at h <;> cases h
  next hok =>
  obtain ⟨hlen, -⟩ := (rsWordOk_iff s).mp hok
  obtain ⟨hbuf, -⟩ := rsArrays_wf hs
  have hmsg (parity : List Byte) :
      cellList (cellSetFrom s.mem.rsBuf (rsK s) parity) 0 (rsK s) = cellList s.mem.rsBuf 0 (rsK s) := by
    simp only [cellList_zero]
    exact List.map_congr_left fun k hk => cellGet_cellSetFrom_of_outside _ _ _ _ (.inl (List.mem_range.mp hk))
  have hvalid (k : Nat) (hk : k < (rsParity (rsNsym s) (cellList s.mem.rsBuf 0 (rsK s))).length) :
      validSymbol (rsK s + k) = true := by
    rw [length_rsParity] at hk
    exact validSymbol_of_lt hlen (Nat.add_lt_add_left hk _)
  exact (if_pos hok).trans (congrArg (fun c => Except.ok (s.withMem { s.mem with rsBuf := c }))
    ((congrArg (cellSetFrom _ _ <| rsParity _ ·) (hmsg _)).trans (cellSetFrom_cellSetFrom_self hvalid hbuf)))

/-- The word is none of RS.SYND's outputs (R240). -/
theorem rsSyndRule_idem (hs : s.inv = true) (h : rsSyndRule s = .ok s') : rsSyndRule s' = .ok s' := by
  unfold rsSyndRule at h
  split at h <;> cases h
  next hok =>
  obtain ⟨-, hnsym⟩ := (rsWordOk_iff s).mp hok
  obtain ⟨-, hsyn, -⟩ := rsArrays_wf hs
  refine (if_pos hok).trans (congrArg (fun c => Except.ok (State.withMem { s with
    rsSynz := (rsSyndromes (rsNsym s) (cellList s.mem.rsBuf 0 (rsLength s))).all fun y => y == 0#8 }
    { s.mem with rsSyn := c })) (cellSetFrom_cellSetFrom rfl (fun k hk => ?_) hsyn))
  rw [length_rsSyndromes] at hk
  exact decide_eq_true (hk.trans_le hnsym)

/-- The syndromes are none of RS.BM's outputs (R245). -/
theorem rsBmRule_idem (hs : s.inv = true) (h : rsBmRule s = .ok s') : rsBmRule s' = .ok s' := by
  unfold rsBmRule at h
  split at h
  case isFalse => cases h
  case isTrue hok =>
  dsimp only at h
  split at h <;> cases h
  next hle =>
  obtain ⟨-, -, hlam, -⟩ := rsArrays_wf hs
  refine (if_pos hok).trans ((if_neg hle).trans (congrArg (fun c => Except.ok
    (State.withMem { s with rsErrs := BitVec.ofNat 8 (polyDegree (bmLocator s)) } { s.mem with rsLambda := c }))
    (cellSetFrom_cellSetFrom rfl (fun k hk => ?_) hlam)))
  rw [length_bmOutput] at hk
  exact decide_eq_true ((Nat.le_of_lt_succ hk).trans ((rsBmOk_iff s).mp hok))

/-- The locator, its degree and the sizes are none of RS.CHIEN's outputs (R250). -/
theorem rsChienRule_idem (hs : s.inv = true) (h : rsChienRule s = .ok s') : rsChienRule s' = .ok s' := by
  unfold rsChienRule at h
  split at h
  case isFalse => cases h
  case isTrue hok =>
  dsimp only at h
  split at h <;> cases h
  next hcount =>
  obtain ⟨⟨hlen, -⟩, -⟩ := (rsChienOk_iff_chienLegal s).mp hok
  obtain ⟨-, -, -, hpos⟩ := rsArrays_wf hs
  refine (if_pos hok).trans ((if_neg hcount).trans (congrArg (fun c => Except.ok
    (State.withMem { s with
      rsNpos := BitVec.ofNat 8 (chienRoots (cellList s.mem.rsLambda 0 (rsErrs s + 1)) (rsLength s)).length }
      { s.mem with rsPos := c }))
    (cellSetFrom_cellSetFrom rfl (fun k hk => ?_) hpos)))
  rw [List.length_map] at hk
  exact validSymbol_of_lt ((length_chienRoots_le _ _).trans hlen) hk

/-- LDPC.BP starts from the channel, and its outputs cover the earlier ones (R283, R290). -/
theorem ldpcRule_idem (hs : s.inv = true) (h : ldpcRule false s = .ok s') : ldpcRule false s' = .ok s' := by
  unfold ldpcRule at h
  split at h <;> cases h
  next hok =>
  have hit := ldpcDecode_shaped .ldpcBp s
  have hfit := ldpcFits_of_legal hs ((ldpcOk_iff_ldpcLegal s).mp hok)
  exact (if_pos hok).trans (congrArg Except.ok (ldpcWrite_ldpcWrite hfit hit hs hit))

omit [DecidableEq L] [Inhabited L] in
theorem polarRule_idem (h : polarRule s = .ok s') : polarRule s' = .ok s' := by
  unfold polarRule at h
  split at h <;> cases h
  next hok => exact if_pos hok

/-- But for LDPC.BP.C no rule reads what it writes, so it writes the same again (R368). -/
theorem commandRule_idem {i : Instr} (hi : i ≠ .ldpcBpC) (hs : s.inv = true) (h : commandRule i s = .ok s') :
    commandRule i s' = .ok s' := by
  cases i with
  | nop | hamEnc | hamEncX | hamDec | hamDecX | gfMul => cases h; rfl
  | gfInv => exact gfInvRule_idem h
  | rsEnc => exact rsEncRule_idem hs h
  | rsSynd => exact rsSyndRule_idem hs h
  | rsBm => exact rsBmRule_idem hs h
  | rsChien => exact rsChienRule_idem hs h
  | ldpcBp => exact ldpcRule_idem hs h
  | ldpcBpC => exact absurd rfl hi
  | polarSc => exact polarRule_idem h

/-- Settles O12: a rule that wrote its results writes them again, and one that raised a code, having written nothing,
raises it again. -/
theorem repeatedCommandGivesTheSameState : Obligations.RepeatedCommandGivesTheSameState := by
  unfold Obligations.RepeatedCommandGivesTheSameState
  refine (onEveryCore_iff _).mpr fun L _ _ P _ i s t hs hi h => ?_
  rcases execOn_cases i s t h with ⟨s', hrule, rfl⟩ | ⟨c, hrule, rfl⟩
  · have hagain : commandRule i (complete .ok s') = .ok (complete .ok s') := by
      rw [commandRule_complete, commandRule_idem hi hs hrule]
      rfl
    rw [machineOn_exec, execOn_of_ok hagain, complete_complete]
  · have hagain : commandRule i (complete c s) = .error c := by
      rw [commandRule_complete, hrule]
      rfl
    exact execOn_of_error hagain

end Sys2Proof.Machine

/-! ### CTRL.SRST, idle and busy (R402, R403) -/

namespace Sys2Proof.Machine

variable {L : Type} {P : LlrParam L}

theorem writeCtrl_srst_idle {w : Word} {s : State L P} (hw : w.getLsbD 1 = true) (hb : s.status.busy = false) :
    writeCtrl w s = softReset s := by
  rw [writeCtrl, hw, hb]
  rfl

theorem writeCtrl_srst_busy {w : Word} {s : State L P} (hw : w.getLsbD 1 = true) (hb : s.status.busy = true) :
    writeCtrl w s = setHaz { s with irqEn := w.getLsbD 0 } := by
  rw [writeCtrl, hw, hb]
  rfl

end Sys2Proof.Machine

/-! ### Drawn contents that are canonical (R402) -/

namespace Sys2Proof.Machine

section Cells

variable {α : Type} [Inhabited α] [DecidableEq α]

theorem cellSet_of_all_lt {c : Cells α} {i : Nat} (hc : ∀ e ∈ c, e.1 < i) {v : α} (hv : v ≠ unlisted α) :
    cellSet c i v = c ++ [(i, v)] := by
  induction c with
  | nil => exact if_neg hv
  | cons e t ih =>
    obtain ⟨hlt, ht⟩ := List.forall_mem_cons.mp hc
    rw [cellSet, if_neg hlt.not_gt, if_neg hlt.ne', ih ht, List.cons_append]

/-- The fold of `cellsOf` puts a canonical list behind an array whose indexes all stand below it. -/
theorem cellsOf_of_wf {valid : Nat → Bool} {l : Cells α} (hl : cellsWf valid l = true) : cellsOf valid l = l := by
  suffices h : ∀ c : Cells α, (∀ e ∈ c, ∀ e' ∈ l, e.1 < e'.1) →
      l.foldl (fun c e => if valid e.1 then cellSet c e.1 e.2 else c) c = c ++ l from h [] (by simp)
  induction l with
  | nil => exact fun c _ => (List.append_nil c).symm
  | cons e t ih =>
    obtain ⟨k, v⟩ := e
    obtain ⟨hk, hv, hlt, ht⟩ := (cellsWf_cons valid k v t).mp hl
    intro c hc
    have hset : cellSet c k v = c ++ [(k, v)] := cellSet_of_all_lt (fun e he => hc e he _ List.mem_cons_self) hv
    rw [List.foldl_cons, if_pos hk, hset, ih ht, List.append_assoc, List.singleton_append]
    refine List.forall_mem_append.mpr ⟨fun e he e' he' => hc e he e' (List.mem_cons_of_mem _ he'), ?_⟩
    simpa using hlt

end Cells

variable {L : Type} [DecidableEq L] [Inhabited L] {P : LlrParam L}

theorem conform_of_wf {p : Params} {m : Memory L} (h : m.wf p = true) : m.conform p = m := by
  obtain ⟨hbuf, hsyn, hlambda, hpos, hrx, hhd, hlsyn, hbelief, hrows, hbits, hc2v, hv2c, hfrozen, hprx, huhat, hxhat,
    hmsg⟩ := (memory_wf_iff p m).mp h
  have hcut : ∀ e ∈ m.ldpcH, (e.1, keepBits e.2 p.ldpcNMax) = id e := fun e he => Prod.ext rfl (hbits e he).symm
  rw [Memory.conform, List.map_congr_left hcut, List.map_id, cellsOf_of_wf hbuf, cellsOf_of_wf hsyn,
    cellsOf_of_wf hlambda, cellsOf_of_wf hpos, cellsOf_of_wf hbelief, cellsOf_of_wf hrows, cellsOf_of_wf hc2v,
    cellsOf_of_wf hv2c, ← hrx, ← hhd, ← hlsyn, ← hfrozen, ← hprx, ← huhat, ← hxhat, ← hmsg]

/-- Settles O57: canonical contents are drawn unchanged, and SRST on an idle core is the soft reset. -/
theorem hardResetDrawsArraysSoftResetKeepsThem : Obligations.HardResetDrawsArraysSoftResetKeepsThem := by
  unfold Obligations.HardResetDrawsArraysSoftResetKeepsThem
  refine (onEveryCore_iff _).mpr fun L _ _ P _ => ⟨fun s d es he hd => ?_, fun s a v hl hb hw => ?_⟩
  · exact ⟨_, stepOn_rst he, conform_of_wf hd, rfl, rfl⟩
  · rw [regWrite_ctrl v hl, writeCtrl_srst_idle hw hb]
    exact ⟨rfl, rfl⟩

/-- Settles O58: on a busy core SRST raises HAZ in place of the reset. -/
theorem softResetWhileBusyIsAHazard : Obligations.SoftResetWhileBusyIsAHazard := by
  unfold Obligations.SoftResetWhileBusyIsAHazard
  intro L _ _ P s a v hl hb hw
  rw [regWrite_ctrl v hl, writeCtrl_srst_busy hw hb]
  rfl

/-! #### The invariant at reset -/

theorem initial_inv {p : Params} (hp : p.legal = true) : (State.initial p : State L P).inv = true :=
  (state_inv_iff _).mpr ⟨hp, zero_wf p, rfl, rfl, Nat.zero_le _, Nat.zero_le _⟩

/-- Settles O59: no element is listed, no command is pending, and the sizes of INST-A are legal. -/
theorem resetMeetsTheInvariant : Obligations.ResetMeetsTheInvariant := by
  unfold Obligations.ResetMeetsTheInvariant
  exact ⟨initial_inv (by decide), (onEveryCore_iff _).mpr fun _ _ _ _ _ hp => initial_inv hp⟩

end Sys2Proof.Machine

/-! ### The registers at reset, and the first commands (R401, R405) -/

namespace Sys2Proof.Machine

variable {L : Type} {P : LlrParam L}

/-- The three states of R401 are of the form `resetRegisters s`, so each fact below is stated of that form. -/
theorem initial_eq_resetRegisters (p : Params) :
    (State.initial p : State L P) = resetRegisters (State.initial p) := rfl

theorem polarUhat_polarWrite_of_logn_zero {s : State L P} (h : polarLogn s = 0) :
    (polarWrite s).mem.polarUhat.getLsbD 0 = (!s.mem.polarFrozen.getLsbD 0 && s.mem.polarRx.getLsbD 0) ∧
      ∀ j, 1 ≤ j → (polarWrite s).mem.polarUhat.getLsbD j = false := by
  have hfit : 2 ^ polarLogn s ≤ 1024 := by simp [h]
  refine ⟨?_, fun j hj => polarUhat_polarWrite_of_ge hfit (by rwa [h])⟩
  obtain ⟨huhat, -⟩ := polarWrite_of_lt hfit (Nat.two_pow_pos _)
  rw [huhat, polarDecisions, h, sc_zero, polarLlr_lt_zero Int.one_pos]

theorem wordLegal_resetRegisters (s : State L P) : Spec.wordLegal (resetRegisters s) :=
  ⟨Nat.zero_le 255, Nat.zero_le s.params.nsymMax⟩

theorem not_ldpcLegal_resetRegisters (s : State L P) : ¬ Spec.ldpcLegal (resetRegisters s) :=
  fun ⟨hrows, _⟩ => Nat.not_succ_le_zero 0 hrows

variable [Inhabited L]

theorem readLocation_resetRegisters (s : State L P) :
    ∀ e ∈ Spec.resetReads P, readLocation (resetRegisters s) e.1 = e.2 := by
  simp [Spec.resetReads, readLocation, fieldWord, ctrlWord, statusWord, hamDstatWord, flagBit, ErrCode.code]

variable [DecidableEq L]

theorem hardReset_eq_resetRegisters (d : Memory L) (s : State L P) :
    hardReset d s = resetRegisters (s.withMem (d.conform s.params)) := rfl

/-- R405: M = 0 fails the check of LDPC.BP and 0 < 3/4 < 1 passes it, the word of RS.ENC and RS.SYND is empty, and the
polar block has one bit. -/
theorem firstCommands_resetRegisters (s : State L P) (p : Params) :
    Spec.firstCommands (machineOn L P p) (resetRegisters s) := by
  refine ⟨execOn_ldpc_of_not_legal (.inl rfl) (not_ldpcLegal_resetRegisters s),
    fun rows cols maxit hrows hrowsMax hcols hcolsMax hmaxit hweight => ?_,
    execOn_rsEnc (wordLegal_resetRegisters s), execOn_rsSynd (wordLegal_resetRegisters s),
    _, execOn_polarSc (Nat.zero_le _), rfl, polarUhat_polarWrite_of_logn_zero rfl⟩
  exact ⟨_, execOn_ldpc (.inl rfl) ⟨hrows, hrowsMax, hcols, hcolsMax, hmaxit, P.threeQuarters_pos,
    P.threeQuarters_lt_one, hweight⟩, rfl⟩

/-- Settles O56: all three states have the registers that `resetRegisters` writes. -/
theorem resetLeavesTheTabledValues : Obligations.ResetLeavesTheTabledValues := by
  unfold Obligations.ResetLeavesTheTabledValues
  refine ⟨(onEveryCore_iff _).mpr fun L _ _ P p => ⟨?_, fun s d =>
    List.forall_mem_cons.mpr ⟨?_, List.forall_mem_singleton.mpr ?_⟩⟩, rfl, rfl⟩
  · rw [machineOn_reset, initial_eq_resetRegisters]
    exact ⟨readLocation_resetRegisters _, firstCommands_resetRegisters _ p⟩
  · exact ⟨readLocation_resetRegisters s, firstCommands_resetRegisters s p, rfl, rfl, rfl, rfl⟩
  · rw [hardReset_eq_resetRegisters]
    exact ⟨readLocation_resetRegisters _, firstCommands_resetRegisters _ p, rfl, rfl, rfl, rfl⟩

end Sys2Proof.Machine
